-- ==== Sys2Proof/Word.lean ====
section
/-! DEFINITION. The one word type of the hardware: the 8-bit command word of format `CMD8` (30_encoding.md R80).
Every other quantity is an unbounded natural, an integer or an exact rational (00_scope.md R7, R8), not a word. -/

namespace Sys2Proof

/-- The 8-bit command word `unit[7:5] op[4:0]` (30_encoding.md R80). -/
abbrev Word := BitVec 8

end Sys2Proof
end

