-- ==== Sys2Proof/Syntax.lean ====
section
/-! DEFINITION. The commands: what the host puts on the command port (`Command`: a word and an operand tuple) and the
instruction it stands for (`Instr`: one constructor per row of spec/opcode_table.json, 30_encoding.md R82). -/

namespace Sys2Proof

/-- The two operand types of 30_encoding.md R83. -/
inductive OperandKind where
  | nat
  | rat
deriving DecidableEq, Repr

/-- A typed operand value on the operand port (30_encoding.md R83): `N` is a natural of any size, `Q` an exact
rational of any sign. The port carries values, not bits. -/
inductive Operand where
  | nat (n : ℕ)
  | rat (q : ℚ)
deriving DecidableEq, Repr

/-- A command as the host issues it: an 8-bit word and its operand tuple (30_encoding.md R80, R84). -/
structure Command where
  word : Word
  operands : List Operand
deriving DecidableEq, Repr

/-- The command set, one constructor per row of the map of 30_encoding.md R82, operands in signature order. -/
inductive Instr where
  | oscBegin
  | oscEnd
  | oscSilence (n : ℕ)
  | oscHalf (f : ℚ)
  | oscOscs (f : ℚ) (count : ℕ)
  | oscSecs (f : ℚ) (seconds : ℚ)
  | lpfInit (cutoff : ℚ)
  | lpfNext
  | zcdInit (sel : ℕ)
  | zcdNext
  | zcdRewind
  | zcdPos
  | syncFind (lo : ℚ) (hi : ℚ) (minHalfPeriods : ℕ)
  | syncDfind (minHalfPeriods : ℕ) (maxRelativeDeviation : ℚ)
  | fclsIs (value : ℚ) (lo : ℚ) (hi : ℚ)
  | fclsOscis (h1 : ℚ) (h2 : ℚ) (lo : ℚ) (hi : ℚ)
  | fclsBit (value : ℚ) (zeroLo : ℚ) (zeroHi : ℚ) (oneLo : ℚ) (oneHi : ℚ)
  | ctlStatus
deriving DecidableEq, Repr

end Sys2Proof
end

