-- ==== Sys2Proof/WellFormed.lean ====
section
/-! DEFINITION. Which commands are legal: the word is a row of the map and the operand tuple has exactly the length and
the types of the row's signature (30_encoding.md R82, R84, R86). Every value of `Instr` is the meaning of some legal
command, since its constructors carry the signatures; the checks are therefore on `Command`. Value constraints (a
positive frequency, an ordered band) are checked when a command executes, not here (R84). -/

namespace Sys2Proof

/-- The type of an operand value. -/
def Operand.kind : Operand → OperandKind
  | .nat _ => .nat
  | .rat _ => .rat

/-- The command map of 30_encoding.md R82 as a table: each legal word with its operand signature. -/
def commandMap : List (Word × List OperandKind) :=
  [(0x00#8, []),
   (0x01#8, []),
   (0x02#8, [.nat]),
   (0x03#8, [.rat]),
   (0x04#8, [.rat, .nat]),
   (0x05#8, [.rat, .rat]),
   (0x20#8, [.rat]),
   (0x21#8, []),
   (0x40#8, [.nat]),
   (0x41#8, []),
   (0x42#8, []),
   (0x43#8, []),
   (0x60#8, [.rat, .rat, .nat]),
   (0x61#8, [.nat, .rat]),
   (0x80#8, [.rat, .rat, .rat]),
   (0x81#8, [.rat, .rat, .rat, .rat]),
   (0x82#8, [.rat, .rat, .rat, .rat, .rat]),
   (0xE0#8, [])]

/-- The signature of a word, or nothing for a word outside the map. -/
def signature (w : Word) : Option (List OperandKind) :=
  commandMap.lookup w

/-- The word is a row of the map (30_encoding.md R86). -/
def Command.wordLegal (c : Command) : Bool :=
  (signature c.word).isSome

/-- The operand tuple has exactly the row's length and types (30_encoding.md R84). -/
def Command.operandsMatch (c : Command) : Bool :=
  signature c.word == some (c.operands.map Operand.kind)

/-- A command that decodes: both checks. -/
def Command.wf (c : Command) : Bool :=
  c.wordLegal && c.operandsMatch

end Sys2Proof
end

