-- ==== Sys2Proof/Decode.lean ====
section
/-! DEFINITION. The decoder of 30_encoding.md R86, total on every word and operand tuple and rejecting by name, and the
encoder that writes a command's word and operands from the same map (R82). -/

namespace Sys2Proof

/-- `bits[7:5]` of the command word (30_encoding.md R80). -/
def unitField (w : Word) : ℕ := (w.extractLsb' 5 3).toNat

/-- `bits[4:0]` of the command word (30_encoding.md R80). -/
def opField (w : Word) : ℕ := (w.extractLsb' 0 5).toNat

/-- The word `unit << 5 | op` (30_encoding.md R82). -/
def wordOf (unit : BitVec 3) (op : BitVec 5) : Word := unit ++ op

/-- Why a command does not decode; both reasons are the fault `IllegalCommand` (30_encoding.md R86). -/
inductive DecodeError where
  /-- The pair of unit and op is not a row of the map. -/
  | illegalWord
  /-- The word is a row, but the operand tuple does not match its signature. -/
  | operandMismatch
deriving DecidableEq, Repr

/-- `Decode(word, operands)` of 30_encoding.md R86, row by row of R82. -/
def decode (c : Command) : Except DecodeError Instr :=
  match unitField c.word, opField c.word with
  -- OSC
  | 0, 0 => match c.operands with
    | [] => .ok .oscBegin
    | _ => .error .operandMismatch
  | 0, 1 => match c.operands with
    | [] => .ok .oscEnd
    | _ => .error .operandMismatch
  | 0, 2 => match c.operands with
    | [.nat n] => .ok (.oscSilence n)
    | _ => .error .operandMismatch
  | 0, 3 => match c.operands with
    | [.rat f] => .ok (.oscHalf f)
    | _ => .error .operandMismatch
  | 0, 4 => match c.operands with
    | [.rat f, .nat count] => .ok (.oscOscs f count)
    | _ => .error .operandMismatch
  | 0, 5 => match c.operands with
    | [.rat f, .rat seconds] => .ok (.oscSecs f seconds)
    | _ => .error .operandMismatch
  -- LPF
  | 1, 0 => match c.operands with
    | [.rat cutoff] => .ok (.lpfInit cutoff)
    | _ => .error .operandMismatch
  | 1, 1 => match c.operands with
    | [] => .ok .lpfNext
    | _ => .error .operandMismatch
  -- ZCD
  | 2, 0 => match c.operands with
    | [.nat sel] => .ok (.zcdInit sel)
    | _ => .error .operandMismatch
  | 2, 1 => match c.operands with
    | [] => .ok .zcdNext
    | _ => .error .operandMismatch
  | 2, 2 => match c.operands with
    | [] => .ok .zcdRewind
    | _ => .error .operandMismatch
  | 2, 3 => match c.operands with
    | [] => .ok .zcdPos
    | _ => .error .operandMismatch
  -- SYNC
  | 3, 0 => match c.operands with
    | [.rat lo, .rat hi, .nat minHalfPeriods] => .ok (.syncFind lo hi minHalfPeriods)
    | _ => .error .operandMismatch
  | 3, 1 => match c.operands with
    | [.nat minHalfPeriods, .rat maxRelativeDeviation] => .ok (.syncDfind minHalfPeriods maxRelativeDeviation)
    | _ => .error .operandMismatch
  -- FCLS
  | 4, 0 => match c.operands with
    | [.rat value, .rat lo, .rat hi] => .ok (.fclsIs value lo hi)
    | _ => .error .operandMismatch
  | 4, 1 => match c.operands with
    | [.rat h1, .rat h2, .rat lo, .rat hi] => .ok (.fclsOscis h1 h2 lo hi)
    | _ => .error .operandMismatch
  | 4, 2 => match c.operands with
    | [.rat value, .rat zeroLo, .rat zeroHi, .rat oneLo, .rat oneHi] =>
      .ok (.fclsBit value zeroLo zeroHi oneLo oneHi)
    | _ => .error .operandMismatch
  -- CTL
  | 7, 0 => match c.operands with
    | [] => .ok .ctlStatus
    | _ => .error .operandMismatch
  | _, _ => .error .illegalWord

/-- The command word of an instruction, from its unit number and op number (30_encoding.md R81, R82). -/
def Instr.word : Instr → Word
  | .oscBegin => wordOf 0b000#3 0b00000#5
  | .oscEnd => wordOf 0b000#3 0b00001#5
  | .oscSilence _ => wordOf 0b000#3 0b00010#5
  | .oscHalf _ => wordOf 0b000#3 0b00011#5
  | .oscOscs _ _ => wordOf 0b000#3 0b00100#5
  | .oscSecs _ _ => wordOf 0b000#3 0b00101#5
  | .lpfInit _ => wordOf 0b001#3 0b00000#5
  | .lpfNext => wordOf 0b001#3 0b00001#5
  | .zcdInit _ => wordOf 0b010#3 0b00000#5
  | .zcdNext => wordOf 0b010#3 0b00001#5
  | .zcdRewind => wordOf 0b010#3 0b00010#5
  | .zcdPos => wordOf 0b010#3 0b00011#5
  | .syncFind _ _ _ => wordOf 0b011#3 0b00000#5
  | .syncDfind _ _ => wordOf 0b011#3 0b00001#5
  | .fclsIs _ _ _ => wordOf 0b100#3 0b00000#5
  | .fclsOscis _ _ _ _ => wordOf 0b100#3 0b00001#5
  | .fclsBit _ _ _ _ _ => wordOf 0b100#3 0b00010#5
  | .ctlStatus => wordOf 0b111#3 0b00000#5

/-- The operand tuple of an instruction, in signature order (30_encoding.md R82, R84). -/
def Instr.operands : Instr → List Operand
  | .oscBegin => []
  | .oscEnd => []
  | .oscSilence n => [.nat n]
  | .oscHalf f => [.rat f]
  | .oscOscs f count => [.rat f, .nat count]
  | .oscSecs f seconds => [.rat f, .rat seconds]
  | .lpfInit cutoff => [.rat cutoff]
  | .lpfNext => []
  | .zcdInit sel => [.nat sel]
  | .zcdNext => []
  | .zcdRewind => []
  | .zcdPos => []
  | .syncFind lo hi minHalfPeriods => [.rat lo, .rat hi, .nat minHalfPeriods]
  | .syncDfind minHalfPeriods maxRelativeDeviation => [.nat minHalfPeriods, .rat maxRelativeDeviation]
  | .fclsIs value lo hi => [.rat value, .rat lo, .rat hi]
  | .fclsOscis h1 h2 lo hi => [.rat h1, .rat h2, .rat lo, .rat hi]
  | .fclsBit value zeroLo zeroHi oneLo oneHi => [.rat value, .rat zeroLo, .rat zeroHi, .rat oneLo, .rat oneHi]
  | .ctlStatus => []

/-- The command the host issues for an instruction. -/
def encode (i : Instr) : Command := ⟨i.word, i.operands⟩

/-- The zero of an operand type: the operand words of zeros that follow a table word. -/
def OperandKind.zeroOperand : OperandKind → Operand
  | .nat => .nat 0
  | .rat => .rat 0

/-- The command a word of spec/opcode_table.json stands for: the word, followed by zero operands of its signature.
The table gives operands no bits (30_encoding.md R83: the operand port carries values, not bits; log entry 7). -/
def tableCommand (nbits w : ℕ) : Command :=
  let word := BitVec.ofNat 8 (w % 2 ^ nbits)
  ⟨word, ((signature word).getD []).map OperandKind.zeroOperand⟩

/-- The instruction the decoder reads from a table word; nothing where it refuses, or where the word has a bit set
above the 8 bits of format `CMD8`. -/
def decodeTableWord (nbits w : ℕ) : Option Instr :=
  if w % 2 ^ nbits < 2 ^ 8 then (decode (tableCommand nbits w)).toOption else none

end Sys2Proof
end

