-- ==== Sys2Proof/Config.lean ====
section
/-! DEFINITION. The instance parameters of 00_scope.md R6 and the values the spec leaves open.
`Params` is the type of one instance's parameters. `Config.*` are the constants of the one instance that
`State.reset` belongs to: the OPEN parameters have no body, so nothing can be proved from a chosen value. -/

namespace Sys2Proof

/-- The Oscillator's one bit of state (10_state.md R24). -/
inductive Phase where
  | high
  | low
deriving DecidableEq, Repr, Inhabited

/-- The polarity of a sample exactly at the threshold (00_scope.md R6, 42_zero_crossing.md R141). -/
inductive ZcEqualRule where
  | asNegative
  | asPositive
  | hold
deriving DecidableEq, Repr, Inhabited

/-- The instance parameters of 00_scope.md R6, all but `oscCycleRounding`, which is a function and therefore stands as
`Config.freeCycleRounding`. They come with the instance and its input, and no command writes them.
`srcSampleRate` and `srcBitsPerSample` are not restricted here: `LPF.INIT` and `ZCD.INIT` check them (20_memory.md R61). -/
structure Params where
  oscSampleRate : ℕ
  oscInitialPhase : Phase
  oscLeadInSamples : ℕ
  oscLeadOutSamples : ℕ
  srcSampleRate : ℕ
  srcBitsPerSample : ℕ
  srcSamples : List ℤ
  zcEqualRule : ZcEqualRule
deriving DecidableEq, Repr

/-- `oscSampleRate` less one: the parameter is a natural ≥ 1 (00_scope.md R6, D10). OPEN (log entry 1). -/
opaque Config.oscSampleRateLessOne : ℕ

/-- OPEN (00_scope.md R6, D5; log entry 1). -/
opaque Config.oscInitialPhase : Phase

/-- OPEN (00_scope.md R6, D6; log entry 1). -/
opaque Config.oscLeadInSamples : ℕ

/-- OPEN (00_scope.md R6, D6; log entry 1). -/
opaque Config.oscLeadOutSamples : ℕ

/-- OPEN, comes with the input (00_scope.md R6, D37; log entry 1). -/
opaque Config.srcSampleRate : ℕ

/-- OPEN, comes with the input (00_scope.md R6, D37; log entry 1). -/
opaque Config.srcBitsPerSample : ℕ

/-- OPEN: the input (00_scope.md R6, D37; log entry 1). -/
opaque Config.srcSamples : List ℤ

/-- OPEN (00_scope.md R6, D14; log entry 1). -/
opaque Config.zcEqualRule : ZcEqualRule

/-- The parameters of the instance `State.reset` belongs to. -/
def Config.params : Params where
  oscSampleRate := Config.oscSampleRateLessOne + 1
  oscInitialPhase := Config.oscInitialPhase
  oscLeadInSamples := Config.oscLeadInSamples
  oscLeadOutSamples := Config.oscLeadOutSamples
  srcSampleRate := Config.srcSampleRate
  srcBitsPerSample := Config.srcBitsPerSample
  srcSamples := Config.srcSamples
  zcEqualRule := Config.zcEqualRule

/-- The OPEN part of `oscCycleRounding` (00_scope.md R6, D8; log entry 2): the cycle count of `OSC.SECS` for a product
`f × seconds` that is not a natural number. `cycleCount` of Machine/Operands.lean adds the part the spec fixes. -/
opaque Config.freeCycleRounding : ℚ → ℕ

/-- The quotient `a / 0`, which the spec never forms (00_scope.md R8: a division stands only where the divisor is shown
to be nonzero). A free value, used only in states that no run reaches (log entry 3). -/
opaque Config.freeQuotient : ℚ → ℚ

/-- The oldest entry of an empty filter window, which no run reaches (10_state.md R28). A free value (log entry 3). -/
opaque Config.freeWindowEntry : ℤ

/-- The value of a replay with nothing to replay, which no run reaches (10_state.md R47 item 3). A free value (log entry 3). -/
opaque Config.freeReplayValue : ℚ

end Sys2Proof
end

