-- ==== Sys2Proof/Machine/State.lean ====
section
/-! DEFINITION. The machine's state as plain data, holding every element of 10_state.md R22, beside the ports a
transaction-level block has (00_scope.md R3, R15: commands in, responses out), and the state after reset. -/

namespace Sys2Proof.Machine

/-- The amplitude symbols (00_scope.md R12). -/
inductive Symbol where
  | high
  | low
  | zero
deriving DecidableEq, Repr

/-- A Position (00_scope.md R12): a sample count and the elapsed seconds. -/
structure Position where
  samples : ℕ
  seconds : ℚ
deriving DecidableEq, Repr

/-- The three-valued verdict of `FCLS.BIT` (00_scope.md R12). -/
inductive Tri where
  | false
  | true
  | undefined
deriving DecidableEq, Repr

/-- The fault codes of 60_exceptions.md R210, in the order of their numbers 0 to 12. -/
inductive FaultCode where
  | none
  | illegalCommand
  | invalidOperand
  | malformedBand
  | badWindow
  | badSourceFormat
  | notInitialized
  | alreadyInitialized
  | ownershipViolation
  | doubleRewind
  | rewindWithoutValue
  | rewindAfterEnd
  | sampleOutOfRange
deriving DecidableEq, Repr

/-- The typed responses of 30_encoding.md R85. -/
inductive Response where
  | ack
  | sample (q : ℚ)
  | endOfStream
  | halfPeriod (h : ℚ)
  | pos (p : Position)
  | bool (b : Bool)
  | freq (q : ℚ)
  | undefined
  | tri (t : Tri)
  | status (code : ℕ)
  | fault (c : FaultCode)
  | refused (c : FaultCode)
deriving DecidableEq, Repr

/-- The stream the detector reads (10_state.md R31). -/
inductive StreamSel where
  | raw
  | lpf
deriving DecidableEq, Repr

/-- What the host does to the machine, one event at a time (00_scope.md R14): issue a command, or apply the reset
signal between two commands (70_reset_and_hazards.md R240). -/
inductive HostEvent where
  | command (c : Command)
  | reset
deriving DecidableEq, Repr

/-- The Oscillator's state (10_state.md R24, R25). -/
structure Osc where
  phase : Phase
  out : List Symbol
deriving DecidableEq, Repr

/-- The Low-Pass Filter's state (10_state.md R26 to R29). `window` is a FIFO list, oldest first. -/
structure Lpf where
  init : Bool
  W : ℕ
  window : List ℤ
  sum : ℤ
deriving DecidableEq, Repr

/-- The Zero-Crossing Detector's state (10_state.md R30 to R39). -/
structure Zcd where
  init : Bool
  sel : StreamSel
  positive : Bool
  runLen : ℕ
  consumed : ℕ
  initPos : Position
  last : Option (ℚ × Position)
  prevPos : Position
  replay : Bool
  lastWasEnd : Bool
deriving DecidableEq, Repr

/-- The whole machine. `params` are the instance's parameters, which no command writes (00_scope.md R6). `srcIndex`,
`osc`, `lpf`, `zcd` and `fault` are the state elements of 10_state.md R22. `pending` is the command port: the host's
events not yet taken, oldest first (log entry 6). `responses` is the response port's history since reset, oldest first
(00_scope.md R15, log entry 8). -/
structure State where
  params : Params
  srcIndex : ℕ
  osc : Osc
  lpf : Lpf
  zcd : Zcd
  fault : FaultCode
  pending : List HostEvent
  responses : List Response
deriving DecidableEq, Repr

/-- Why the machine stops with a fault: never. Every fault the spec gives the CORE is a NEXT state with the fault
register written (60_exceptions.md R212), so this type has no constructor, and no step answers with one. Safe. -/
inductive Fault where
deriving DecidableEq, Repr

/-- Why a step has no meaning. -/
inductive Refusal where
  /-- Raised by an arm of `exec` for an instruction that has no meaning yet; no arm raises it now. Safe. -/
  | notModelled (mnemonic : String)
deriving DecidableEq, Repr

/-- `lpf.*` after reset (10_state.md R22). -/
def Lpf.reset : Lpf where
  init := false
  W := 0
  window := []
  sum := 0

/-- `zcd.*` after reset (10_state.md R22). -/
def Zcd.reset : Zcd where
  init := false
  sel := .raw
  positive := false
  runLen := 0
  consumed := 0
  initPos := ⟨0, 0⟩
  last := none
  prevPos := ⟨0, 0⟩
  replay := false
  lastWasEnd := false

/-- The state right after reset of an instance with parameters `p` (10_state.md R22, 70_reset_and_hazards.md R240 to
R242): no command is pending and no response has been given. -/
def State.resetOf (p : Params) : State where
  params := p
  srcIndex := 0
  osc := ⟨p.oscInitialPhase, []⟩
  lpf := Lpf.reset
  zcd := Zcd.reset
  fault := .none
  pending := []
  responses := []

/-- The machine right after reset, on the instance of Config.lean. -/
def State.reset : State := State.resetOf Config.params

end Sys2Proof.Machine
end

