-- ==== Sys2Proof/Machine/Operands.lean ====
section
/-! DEFINITION. What the commands compute from operand values, parameters and samples alone: exact arithmetic in ℚ
(00_scope.md R8), with every operand check and every formula of the unit files. -/

namespace Sys2Proof.Machine

/-- The exact quotient `a / b` (00_scope.md R8). The spec divides only where `b ≠ 0` is shown; in a state that no run
reaches, where `b = 0` could stand, the value is free (log entry 3). -/
def quot (a b : ℚ) : ℚ := if b = 0 then Config.freeQuotient a else a / b

/-- `roundHalfUp(x) = floor(x + 1/2)` of 00_scope.md R8, for the non-negative ratios it is used on. -/
def roundHalfUp (x : ℚ) : ℕ := ⌊x + 1 / 2⌋₊

/-- The samples of one half-oscillation, `floor(oscSampleRate / f / 2)` (40_oscillator.md R103). -/
def halfSamples (rate : ℕ) (f : ℚ) : ℕ := ⌊(rate : ℚ) / f / 2⌋₊

/-- `oscCycleRounding` (00_scope.md R6, 40_oscillator.md R105): a natural maps to itself, any other value to a free
natural (D8, log entry 2). -/
def cycleCount (x : ℚ) : ℕ := if x.den = 1 then x.num.toNat else Config.freeCycleRounding x

/-- The window length `roundHalfUp(srcSampleRate / cutoff)` (41_lowpass_filter.md R121). -/
def windowLength (rate : ℕ) (cutoff : ℚ) : ℕ := roundHalfUp ((rate : ℚ) / cutoff)

/-- `InBand(v, lo, hi)`, closed at both ends (44_classifier.md R190, 43_sync_detector.md R171). -/
def inBand (v lo hi : ℚ) : Bool := decide (lo ≤ v) && decide (v ≤ hi)

/-- The source format `LPF.INIT` and `ZCD.INIT` accept (20_memory.md R61). -/
def sourceFormatOk (p : Params) : Bool :=
  p.srcSampleRate ≠ 0 && (p.srcBitsPerSample = 8 || p.srcBitsPerSample = 16 || p.srcBitsPerSample = 32)

/-- A sample lies in `[0, 2^srcBitsPerSample - 1]` (20_memory.md R62, R63). -/
def sampleInRange (p : Params) (x : ℤ) : Bool :=
  decide (0 ≤ x) && decide (x ≤ 2 ^ p.srcBitsPerSample - 1)

/-- The polarity threshold `offset = 2^(srcBitsPerSample - 1)` (42_zero_crossing.md R140), written as half of
`2^srcBitsPerSample` (log entry 12). -/
def threshold (p : Params) : ℚ := (2 ^ p.srcBitsPerSample : ℕ) / 2

/-- The half-period of a run of `len` samples, `srcSampleRate / (2 × len)` (42_zero_crossing.md R143). -/
def halfPeriodOf (p : Params) (len : ℕ) : ℚ := quot p.srcSampleRate (2 * len)

/-- `Pos(n)`, the Position of `n` samples (00_scope.md R12, 42_zero_crossing.md R149). -/
def posOf (p : Params) (n : ℕ) : Position := ⟨n, quot n p.srcSampleRate⟩

/-- The average of a window of half-periods, `sum(win) / length(win)` (43_sync_detector.md R176). -/
def average (win : List ℚ) : ℚ := quot win.sum win.length

/-- The relative deviation `|v - a| / a` (43_sync_detector.md R175). -/
def relativeDeviation (v a : ℚ) : ℚ := quot |v - a| a

/-- The arithmetic mean of an oscillation's two half-periods (44_classifier.md R192). -/
def oscillationMean (h1 h2 : ℚ) : ℚ := (h1 + h2) / 2

/-- The number of a fault code (60_exceptions.md R210). -/
def FaultCode.number : FaultCode → ℕ
  | .none => 0
  | .illegalCommand => 1
  | .invalidOperand => 2
  | .malformedBand => 3
  | .badWindow => 4
  | .badSourceFormat => 5
  | .notInitialized => 6
  | .alreadyInitialized => 7
  | .ownershipViolation => 8
  | .doubleRewind => 9
  | .rewindWithoutValue => 10
  | .rewindAfterEnd => 11
  | .sampleOutOfRange => 12

/-- The byte the 8-bit sink writes for a symbol (20_memory.md R66). The sink's, at the output boundary: no command
uses it. -/
def Symbol.byte8 : Symbol → ℤ
  | .high => 0xFE
  | .low => 0x02
  | .zero => 0x80

/-- The boundary's normalization of a signed 16-bit sample (20_memory.md R63). The boundary's: no command uses it. -/
def normalize16 (x : ℤ) : ℤ := x + 2 ^ 15

end Sys2Proof.Machine
end

