-- ==== Sys2Proof/Machine/Flags.lean ====
section
/-! DEFINITION. The two-valued state elements that play the part of flags (10_state.md R42): the Oscillator's phase, the
detector's polarity and the stream ownership derived from the init flags. -/

namespace Sys2Proof.Machine

/-- `¬phase` (40_oscillator.md R103). -/
def invert : Phase → Phase
  | .high => .low
  | .low => .high

/-- The symbol of a phase (40_oscillator.md R106). -/
def phaseSymbol : Phase → Symbol
  | .high => .high
  | .low => .low

/-- `pol(s, cur)`: the polarity of a sample, true for positive (42_zero_crossing.md R141). -/
def polarity (p : Params) (q : ℚ) (cur : Bool) : Bool :=
  if threshold p < q then true
  else if q < threshold p then false
  else match p.zcEqualRule with
    | .asNegative => false
    | .asPositive => true
    | .hold => cur

/-- The detector owns the input port (10_state.md R46). -/
def State.zcdOwnsInput (s : State) : Bool := s.zcd.init && s.zcd.sel == .raw

/-- The filter owns the input port (10_state.md R46). -/
def State.lpfOwnsInput (s : State) : Bool := s.lpf.init

/-- The detector owns the filter's output (10_state.md R46). -/
def State.zcdOwnsFilter (s : State) : Bool := s.zcd.init && s.zcd.sel == .lpf

end Sys2Proof.Machine
end

