-- ==== Sys2Proof/Machine/Ops.lean ====
section
/-! DEFINITION. The operations the commands share: the primitives of 00_scope.md R10, fault entry and refusal
(60_exceptions.md R212 to R214), and the detector's internal reads (42_zero_crossing.md R144 to R148). -/

namespace Sys2Proof.Machine

/-- What a rule's pseudocode comes to: it goes on with a value and a state, or it raises a fault. A raise carries no
state, since a faulting command's writes are discarded (00_scope.md R11, 60_exceptions.md R213). -/
inductive Res (α : Type) where
  | ok (a : α) (s : State)
  | raise (c : FaultCode)
deriving DecidableEq, Repr

/-- The same outcome with another view of its value. -/
def Res.map {α β : Type} (f : α → β) : Res α → Res β
  | .ok a s => .ok (f a) s
  | .raise c => .raise c

/-! ## State updates -/

def State.setSrcIndex (s : State) (n : ℕ) : State := { s with srcIndex := n }
def State.setOsc (s : State) (o : Osc) : State := { s with osc := o }
def State.setLpf (s : State) (l : Lpf) : State := { s with lpf := l }
def State.setZcd (s : State) (z : Zcd) : State := { s with zcd := z }
def State.setFault (s : State) (c : FaultCode) : State := { s with fault := c }
def State.setPending (s : State) (es : List HostEvent) : State := { s with pending := es }

/-- `respond(v)`: the response port takes the command's one response (00_scope.md R10). -/
def State.respond (s : State) (r : Response) : State := { s with responses := s.responses ++ [r] }

/-! ## Fault entry, refusal, reset -/

/-- Fault entry (60_exceptions.md R212): the register keeps the first code, and the response is `Fault(code)`. Applied
to the state as the command found it, so that faults are precise (R213). -/
def State.enterFault (s : State) (c : FaultCode) : State :=
  (s.setFault (if s.fault = .none then c else s.fault)).respond (.fault c)

/-- Refusal in the faulted state (60_exceptions.md R214): only the response. -/
def State.refuse (s : State) : State := s.respond (.refused s.fault)

/-- The end of a command that started in `s`: its response and writes, or fault entry on `s`. -/
def State.conclude (s : State) : Res Response → State
  | .ok r s' => s'.respond r
  | .raise c => s.enterFault c

/-- Every command but `CTL.STATUS`: refused in the faulted state, else its body's end (60_exceptions.md R214). -/
def command (s : State) (body : State → Res Response) : Host.Outcome State Fault Refusal :=
  .next (if s.fault = .none then s.conclude (body s) else s.refuse)

/-- The reset signal (70_reset_and_hazards.md R240): every state element at its reset value, on the same instance
parameters. The host's later events stay on the port (log entry 5). -/
def State.applyReset (s : State) : State := (State.resetOf s.params).setPending s.pending

/-! ## The streams -/

/-- `Emit(sym, n)` (20_memory.md R65). -/
def State.emit (s : State) (sym : Symbol) (n : ℕ) : State :=
  s.setOsc { s.osc with out := s.osc.out ++ List.replicate n sym }

/-- The number of input samples not yet read. -/
def State.unread (s : State) : ℕ := s.params.srcSamples.length - s.srcIndex

/-- `ReadRaw()` (20_memory.md R62). `none` is `End`. -/
def readRaw (s : State) : Res (Option ℤ) :=
  match s.params.srcSamples[s.srcIndex]? with
  | none => .ok none s
  | some x =>
    if sampleInRange s.params x then .ok (some x) (s.setSrcIndex (s.srcIndex + 1))
    else .raise .sampleOutOfRange

/-- One filter step on the sample `x`: the window slides and the running sum follows it (41_lowpass_filter.md R124). -/
def Lpf.push (l : Lpf) (x : ℤ) : Lpf :=
  { l with
    window := l.window.tail ++ [x]
    sum := l.sum - l.window.headD Config.freeWindowEntry + x }

/-- `lpf.sum / lpf.W`, exact (41_lowpass_filter.md R123, R124). -/
def Lpf.output (l : Lpf) : ℚ := quot l.sum l.W

/-- `ReadLpf()` (41_lowpass_filter.md R124). -/
def readLpf (s : State) : Res (Option ℚ) :=
  match readRaw s with
  | .raise c => .raise c
  | .ok none s1 => .ok none s1
  | .ok (some x) s1 => .ok (some (s1.lpf.push x).output) (s1.setLpf (s1.lpf.push x))

/-- `ReadZ()`: the stream `zcd.sel` names (42_zero_crossing.md R142). -/
def readZ (s : State) : Res (Option ℚ) :=
  match s.zcd.sel with
  | .raw => (readRaw s).map (Option.map fun x : ℤ => (x : ℚ))
  | .lpf => readLpf s

/-! ## The detector -/

/-- `CurPos()` (42_zero_crossing.md R144). -/
def Zcd.curPos (z : Zcd) : Position :=
  match z.last with
  | some (_, p) => p
  | none => z.initPos

/-- `ZcdProduce()` at the end of the stream: the pending run is flushed once (42_zero_crossing.md R145). -/
def flushRun (s : State) : Res (Option ℚ) :=
  if s.zcd.runLen = 0 then .ok none s
  else .ok (some (halfPeriodOf s.params s.zcd.runLen)) (s.setZcd { s.zcd with runLen := 0 })

/-- The loop of `ZcdProduce()` (42_zero_crossing.md R145) for at most `fuel` samples. With `fuel` the number of unread
samples the loop is the rule's own: the stream has ended when it runs out (R255, log entry 11). -/
def produceLoop : ℕ → State → Res (Option ℚ)
  | 0, s => flushRun s
  | fuel + 1, s =>
    match readZ s with
    | .raise c => .raise c
    | .ok none s1 => flushRun s1
    | .ok (some q) s1 =>
      let z := { s1.zcd with consumed := s1.zcd.consumed + 1 }
      let p := polarity s1.params q z.positive
      if p = z.positive then
        produceLoop fuel (s1.setZcd { z with runLen := z.runLen + 1 })
      else
        .ok (some (halfPeriodOf s1.params z.runLen)) (s1.setZcd { z with positive := p, runLen := 1 })

/-- `ZcdProduce()` (42_zero_crossing.md R145). `none` is `End`. -/
def zcdProduce (s : State) : Res (Option ℚ) := produceLoop s.unread s

/-- The half-period a replay delivers: the look-back value (42_zero_crossing.md R147). -/
def Zcd.replayValue (z : Zcd) : ℚ :=
  match z.last with
  | some (h, _) => h
  | none => Config.freeReplayValue

/-- The look-back slot after a delivery of `h` from the stream (42_zero_crossing.md R147). -/
def State.deliver (s : State) (h : ℚ) : State :=
  s.setZcd { s.zcd with
    prevPos := s.zcd.curPos
    last := some (h, posOf s.params s.zcd.consumed)
    lastWasEnd := false }

/-- `ZcdNext()` (42_zero_crossing.md R147). `none` is `End`. -/
def zcdNext (s : State) : Res (Option ℚ) :=
  if s.zcd.replay then
    .ok (some s.zcd.replayValue) (s.setZcd { s.zcd with replay := false, lastWasEnd := false })
  else
    match zcdProduce s with
    | .raise c => .raise c
    | .ok none s1 => .ok none (s1.setZcd { s1.zcd with lastWasEnd := true })
    | .ok (some h) s1 => .ok (some h) (s1.deliver h)

/-- `ZcdRewind()` (42_zero_crossing.md R148). -/
def zcdRewind (s : State) : Res Unit :=
  if s.zcd.replay then .raise .doubleRewind
  else if s.zcd.lastWasEnd then .raise .rewindAfterEnd
  else if s.zcd.last = none then .raise .rewindWithoutValue
  else .ok () (s.setZcd { s.zcd with replay := true })

end Sys2Proof.Machine
end

