-- ==== Sys2Proof/Machine/Classifier.lean ====
section
/-! DEFINITION. The Frequency Classifier's three commands (44_classifier.md R191 to R193). -/

namespace Sys2Proof.Machine

/-- `FCLS.IS value, lo, hi` (R191). -/
def runFclsIs (value lo hi : ℚ) (s : State) : Res Response :=
  if hi < lo then .raise .malformedBand
  else .ok (.bool (inBand value lo hi)) s

/-- `FCLS.IS`: its body, refused in the faulted state. -/
def execFclsIs (value lo hi : ℚ) (s : State) : Host.Outcome State Fault Refusal :=
  command s (runFclsIs value lo hi)

/-- `FCLS.OSCIS h1, h2, lo, hi` (R192). -/
def runFclsOscis (h1 h2 lo hi : ℚ) (s : State) : Res Response :=
  if hi < lo then .raise .malformedBand
  else .ok (.bool (inBand (oscillationMean h1 h2) lo hi)) s

/-- `FCLS.OSCIS`: its body, refused in the faulted state. -/
def execFclsOscis (h1 h2 lo hi : ℚ) (s : State) : Host.Outcome State Fault Refusal :=
  command s (runFclsOscis h1 h2 lo hi)

/-- The bit of a value by two bands (44_classifier.md R193): `z` and `o` say whether it lies in the zero band and in the
one band. -/
def bitOf (z o : Bool) : Tri :=
  if o && !z then .true else if z && !o then .false else .undefined

/-- `FCLS.BIT value, zeroLo, zeroHi, oneLo, oneHi` (R193). -/
def runFclsBit (value zeroLo zeroHi oneLo oneHi : ℚ) (s : State) : Res Response :=
  if zeroHi < zeroLo ∨ oneHi < oneLo then .raise .malformedBand
  else if max zeroLo oneLo ≤ min zeroHi oneHi then .raise .malformedBand
  else .ok (.tri (bitOf (inBand value zeroLo zeroHi) (inBand value oneLo oneHi))) s

/-- `FCLS.BIT`: its body, refused in the faulted state. -/
def execFclsBit (value zeroLo zeroHi oneLo oneHi : ℚ) (s : State) : Host.Outcome State Fault Refusal :=
  command s (runFclsBit value zeroLo zeroHi oneLo oneHi)

end Sys2Proof.Machine
end

