-- ==== Sys2Proof/Machine/Control.lean ====
section
/-! DEFINITION. The control command (45_control.md R200). -/

namespace Sys2Proof.Machine

/-- `CTL.STATUS` (R200): accepted in every state, the faulted one too (60_exceptions.md R214). -/
def execCtlStatus (s : State) : Host.Outcome State Fault Refusal :=
  .next (s.respond (.status s.fault.number))

end Sys2Proof.Machine
end

