-- ==== Sys2Proof/Machine/LowPass.lean ====
section
/-! DEFINITION. The Low-Pass Filter's two commands (41_lowpass_filter.md R122, R125). -/

namespace Sys2Proof.Machine

/-- The filter as `LPF.INIT` constructs it: a window of `W` zeros (41_lowpass_filter.md R122). -/
def Lpf.construct (W : ℕ) : Lpf where
  init := true
  W := W
  window := List.replicate W 0
  sum := 0

/-- `LPF.INIT cutoff` (R122), its checks in the rule's order. -/
def runLpfInit (cutoff : ℚ) (s : State) : Res Response :=
  if s.lpf.init then .raise .alreadyInitialized
  else if !sourceFormatOk s.params then .raise .badSourceFormat
  else if s.zcdOwnsInput then .raise .ownershipViolation
  else if cutoff ≤ 0 then .raise .invalidOperand
  else if windowLength s.params.srcSampleRate cutoff = 0 then .raise .badWindow
  else .ok .ack (s.setLpf (Lpf.construct (windowLength s.params.srcSampleRate cutoff)))

/-- `LPF.INIT`: its body, refused in the faulted state. -/
def execLpfInit (cutoff : ℚ) (s : State) : Host.Outcome State Fault Refusal :=
  command s (runLpfInit cutoff)

/-- The response to one read of the filtered stream (R125). -/
def sampleResponse : Option ℚ → Response
  | some q => .sample q
  | none => .endOfStream

/-- `LPF.NEXT` (R125). -/
def runLpfNext (s : State) : Res Response :=
  if !s.lpf.init then .raise .notInitialized
  else if s.zcdOwnsFilter then .raise .ownershipViolation
  else (readLpf s).map sampleResponse

/-- `LPF.NEXT`: its body, refused in the faulted state. -/
def execLpfNext (s : State) : Host.Outcome State Fault Refusal :=
  command s runLpfNext

end Sys2Proof.Machine
end

