-- ==== Sys2Proof/Machine/Oscillator.lean ====
section
/-! DEFINITION. The Oscillator's six commands (40_oscillator.md R100 to R105). -/

namespace Sys2Proof.Machine

/-- One half-oscillation of `n` samples: emit at the current phase, then invert it (40_oscillator.md R103). -/
def State.halfOscillation (s : State) (n : ℕ) : State :=
  (s.emit (phaseSymbol s.osc.phase) n).setOsc
    { (s.emit (phaseSymbol s.osc.phase) n).osc with phase := invert s.osc.phase }

/-- `count` full cycles, each two half-oscillations of `n` samples (40_oscillator.md R104). -/
def State.cycles (n : ℕ) : ℕ → State → State
  | 0, s => s
  | count + 1, s => State.cycles n count ((s.halfOscillation n).halfOscillation n)

/-- `OSC.BEGIN`: the lead-in silence (R100). -/
def runOscBegin (s : State) : Res Response :=
  .ok .ack (s.emit .zero s.params.oscLeadInSamples)

/-- `OSC.BEGIN`: its body, refused in the faulted state. -/
def execOscBegin (s : State) : Host.Outcome State Fault Refusal :=
  command s runOscBegin

/-- `OSC.END`: the lead-out silence (R101). -/
def runOscEnd (s : State) : Res Response :=
  .ok .ack (s.emit .zero s.params.oscLeadOutSamples)

/-- `OSC.END`: its body, refused in the faulted state. -/
def execOscEnd (s : State) : Host.Outcome State Fault Refusal :=
  command s runOscEnd

/-- `OSC.SILENCE n` (R102). -/
def runOscSilence (n : ℕ) (s : State) : Res Response :=
  .ok .ack (s.emit .zero n)

/-- `OSC.SILENCE`: its body, refused in the faulted state. -/
def execOscSilence (n : ℕ) (s : State) : Host.Outcome State Fault Refusal :=
  command s (runOscSilence n)

/-- `OSC.HALF f` (R103). -/
def runOscHalf (f : ℚ) (s : State) : Res Response :=
  if f ≤ 0 then .raise .invalidOperand
  else .ok .ack (s.halfOscillation (halfSamples s.params.oscSampleRate f))

/-- `OSC.HALF`: its body, refused in the faulted state. -/
def execOscHalf (f : ℚ) (s : State) : Host.Outcome State Fault Refusal :=
  command s (runOscHalf f)

/-- `OSC.OSCS f, count` (R104). -/
def runOscOscs (f : ℚ) (count : ℕ) (s : State) : Res Response :=
  if f ≤ 0 then .raise .invalidOperand
  else .ok .ack (State.cycles (halfSamples s.params.oscSampleRate f) count s)

/-- `OSC.OSCS`: its body, refused in the faulted state. -/
def execOscOscs (f : ℚ) (count : ℕ) (s : State) : Host.Outcome State Fault Refusal :=
  command s (runOscOscs f count)

/-- `OSC.SECS f, seconds` (R105). -/
def runOscSecs (f : ℚ) (seconds : ℚ) (s : State) : Res Response :=
  if f ≤ 0 ∨ seconds < 0 then .raise .invalidOperand
  else .ok .ack (State.cycles (halfSamples s.params.oscSampleRate f) (cycleCount (f * seconds)) s)

/-- `OSC.SECS`: its body, refused in the faulted state. -/
def execOscSecs (f : ℚ) (seconds : ℚ) (s : State) : Host.Outcome State Fault Refusal :=
  command s (runOscSecs f seconds)

end Sys2Proof.Machine
end

