-- ==== Sys2Proof/Machine/Sync.lean ====
section
/-! DEFINITION. The Synchronization Detector's two commands (43_sync_detector.md R172, R176). Each loop calls `zcdNext`
once per turn, with fuel that outlasts the stream: a delivery is a replay (at most the first one), the flush of the last
run (at most one), or reads at least one sample (70_reset_and_hazards.md R255). -/

namespace Sys2Proof.Machine

/-- More turns than the detector can deliver half-periods from `s`. -/
def syncFuel (s : State) : ℕ := 2 * s.unread + 3

/-- The loop of `SYNC.FIND` (43_sync_detector.md R172). `count` is the length of the run so far: 0 in part (a), which
skips until in band, and at least 1 in part (b), which counts consecutive in-band values. The fuel never runs out
(log entry 11). -/
def findLoop (lo hi : ℚ) (minHalfPeriods : ℕ) : ℕ → ℕ → State → Res Bool
  | 0, count, s => .ok (decide (minHalfPeriods ≤ count)) s
  | fuel + 1, count, s =>
    match zcdNext s with
    | .raise c => .raise c
    | .ok none s1 => .ok (decide (minHalfPeriods ≤ count)) s1
    | .ok (some x) s1 =>
      if inBand x lo hi then findLoop lo hi minHalfPeriods fuel (count + 1) s1
      else if minHalfPeriods ≤ count then (zcdRewind s1).map fun _ => true
      else findLoop lo hi minHalfPeriods fuel 0 s1

/-- `SYNC.FIND lo, hi, minHalfPeriods` (R172). -/
def runSyncFind (lo hi : ℚ) (minHalfPeriods : ℕ) (s : State) : Res Response :=
  if !s.zcd.init then .raise .notInitialized
  else if minHalfPeriods = 0 then .raise .invalidOperand
  else if hi < lo then .raise .malformedBand
  else (findLoop lo hi minHalfPeriods (syncFuel s) 0 s).map .bool

/-- `SYNC.FIND`: its body, refused in the faulted state. -/
def execSyncFind (lo hi : ℚ) (minHalfPeriods : ℕ) (s : State) : Host.Outcome State Fault Refusal :=
  command s (runSyncFind lo hi minHalfPeriods)

/-- The response when the stream ends (43_sync_detector.md R176). -/
def dfindEnd (n run : ℕ) (win : List ℚ) : Response :=
  if n ≤ run then .freq (average win) else .undefined

/-- The window with `x` added, holding at most the last `n` values (43_sync_detector.md R176). -/
def slide (n : ℕ) (win : List ℚ) (x : ℚ) : List ℚ :=
  (if win.length = n then win.tail else win) ++ [x]

/-- The loop of `SYNC.DFIND` (43_sync_detector.md R176), with the window `win` and the run length `run`. The fuel never
runs out. -/
def dfindLoop (n : ℕ) (maxDev : ℚ) : ℕ → List ℚ → ℕ → State → Res Response
  | 0, win, run, s => .ok (dfindEnd n run win) s
  | fuel + 1, win, run, s =>
    match zcdNext s with
    | .raise c => .raise c
    | .ok none s1 => .ok (dfindEnd n run win) s1
    | .ok (some x) s1 =>
      if run = 0 then dfindLoop n maxDev fuel [x] 1 s1
      else if maxDev < relativeDeviation x (average win) then
        if n ≤ run then (zcdRewind s1).map fun _ => .freq (average win)
        else dfindLoop n maxDev fuel [x] 1 s1
      else dfindLoop n maxDev fuel (slide n win x) (run + 1) s1

/-- `SYNC.DFIND minHalfPeriods, maxRelativeDeviation` (R176). -/
def runSyncDfind (minHalfPeriods : ℕ) (maxRelativeDeviation : ℚ) (s : State) : Res Response :=
  if !s.zcd.init then .raise .notInitialized
  else if minHalfPeriods = 0 ∨ maxRelativeDeviation < 0 then .raise .invalidOperand
  else dfindLoop minHalfPeriods maxRelativeDeviation (syncFuel s) [] 0 s

/-- `SYNC.DFIND`: its body, refused in the faulted state. -/
def execSyncDfind (minHalfPeriods : ℕ) (maxRelativeDeviation : ℚ) (s : State) : Host.Outcome State Fault Refusal :=
  command s (runSyncDfind minHalfPeriods maxRelativeDeviation)

end Sys2Proof.Machine
end

