-- ==== Sys2Proof/Machine/ZeroCrossing.lean ====
section
/-! DEFINITION. The Zero-Crossing Detector's four commands (42_zero_crossing.md R146 to R149). -/

namespace Sys2Proof.Machine

/-- The stream an operand of `ZCD.INIT` selects (30_encoding.md R84). -/
def selOf (sel : ℕ) : StreamSel := if sel = 0 then .raw else .lpf

/-- The detector after construction on the stream `sel`, its first sample `first` (`none` for an empty stream), under
the parameters `p` (42_zero_crossing.md R146). -/
def Zcd.construct (p : Params) (sel : StreamSel) (first : Option ℚ) : Zcd :=
  let consumed := if first.isSome then 1 else 0
  { init := true
    sel := sel
    positive := match first with
      | some q => polarity p q false
      | none => false
    runLen := consumed
    consumed := consumed
    initPos := posOf p consumed
    last := none
    prevPos := posOf p consumed
    replay := false
    lastWasEnd := false }

/-- `ZCD.INIT sel` (R146), its checks in the rule's order. The construction sample is read from the stream the operand
selects. -/
def runZcdInit (sel : ℕ) (s : State) : Res Response :=
  if s.zcd.init then .raise .alreadyInitialized
  else if sel ≠ 0 ∧ sel ≠ 1 then .raise .invalidOperand
  else if !sourceFormatOk s.params then .raise .badSourceFormat
  else if sel = 1 ∧ !s.lpf.init then .raise .notInitialized
  else if sel = 0 ∧ s.lpf.init then .raise .ownershipViolation
  else
    match readZ (s.setZcd { s.zcd with sel := selOf sel, init := true }) with
    | .raise c => .raise c
    | .ok x s1 => .ok .ack (s1.setZcd (Zcd.construct s1.params (selOf sel) x))

/-- `ZCD.INIT`: its body, refused in the faulted state. -/
def execZcdInit (sel : ℕ) (s : State) : Host.Outcome State Fault Refusal :=
  command s (runZcdInit sel)

/-- The response to one read of the detector (R147). -/
def halfPeriodResponse : Option ℚ → Response
  | some h => .halfPeriod h
  | none => .endOfStream

/-- `ZCD.NEXT` (R147). -/
def runZcdNext (s : State) : Res Response :=
  if !s.zcd.init then .raise .notInitialized
  else (zcdNext s).map halfPeriodResponse

/-- `ZCD.NEXT`: its body, refused in the faulted state. -/
def execZcdNext (s : State) : Host.Outcome State Fault Refusal :=
  command s runZcdNext

/-- `ZCD.REWIND` (R148). -/
def runZcdRewind (s : State) : Res Response :=
  if !s.zcd.init then .raise .notInitialized
  else (zcdRewind s).map fun _ => .ack

/-- `ZCD.REWIND`: its body, refused in the faulted state. -/
def execZcdRewind (s : State) : Host.Outcome State Fault Refusal :=
  command s runZcdRewind

/-- `ZCD.POS` (R149): a fresh Position of the last value delivered, accounting for a pending rewind. -/
def runZcdPos (s : State) : Res Response :=
  if !s.zcd.init then .raise .notInitialized
  else if s.zcd.replay then .ok (.pos (posOf s.params s.zcd.prevPos.samples)) s
  else .ok (.pos (posOf s.params s.zcd.curPos.samples)) s

/-- `ZCD.POS`: its body, refused in the faulted state. -/
def execZcdPos (s : State) : Host.Outcome State Fault Refusal :=
  command s runZcdPos

end Sys2Proof.Machine
end

