-- ==== Sys2Proof/Machine/Dispatch.lean ====
section
/-! DEFINITION. One arm per command of the map (30_encoding.md R82): each calls the command's own meaning. -/

namespace Sys2Proof.Machine

def exec (i : Instr) (s : State) : Host.Outcome State Fault Refusal :=
  match i with
  | .oscBegin => Sys2Proof.Machine.execOscBegin s
  | .oscEnd => Sys2Proof.Machine.execOscEnd s
  | .oscSilence n => Sys2Proof.Machine.execOscSilence n s
  | .oscHalf f => Sys2Proof.Machine.execOscHalf f s
  | .oscOscs f count => Sys2Proof.Machine.execOscOscs f count s
  | .oscSecs f seconds => Sys2Proof.Machine.execOscSecs f seconds s
  | .lpfInit cutoff => Sys2Proof.Machine.execLpfInit cutoff s
  | .lpfNext => Sys2Proof.Machine.execLpfNext s
  | .zcdInit sel => Sys2Proof.Machine.execZcdInit sel s
  | .zcdNext => Sys2Proof.Machine.execZcdNext s
  | .zcdRewind => Sys2Proof.Machine.execZcdRewind s
  | .zcdPos => Sys2Proof.Machine.execZcdPos s
  | .syncFind lo hi minHalfPeriods => Sys2Proof.Machine.execSyncFind lo hi minHalfPeriods s
  | .syncDfind minHalfPeriods maxRelativeDeviation => Sys2Proof.Machine.execSyncDfind minHalfPeriods maxRelativeDeviation s
  | .fclsIs value lo hi => Sys2Proof.Machine.execFclsIs value lo hi s
  | .fclsOscis h1 h2 lo hi => Sys2Proof.Machine.execFclsOscis h1 h2 lo hi s
  | .fclsBit value zeroLo zeroHi oneLo oneHi => Sys2Proof.Machine.execFclsBit value zeroLo zeroHi oneLo oneHi s
  | .ctlStatus => Sys2Proof.Machine.execCtlStatus s

end Sys2Proof.Machine
end

