-- ==== Sys2Proof/Machine/Issue.lean ====
section
/-! DEFINITION. What a step calls: the command port's head is taken and issued (00_scope.md R14, 20_memory.md R71). It
stands apart from Step.lean so that it can be mended. -/

namespace Sys2Proof.Machine

/-- A command that does not decode: refused in the faulted state, else the fault `IllegalCommand` (30_encoding.md R86,
60_exceptions.md R214). -/
def State.illegal (s : State) : State :=
  if s.fault = .none then s.enterFault .illegalCommand else s.refuse

/-- Issue one command: decode it and run its meaning. `exec` refuses in the faulted state every command but
`CTL.STATUS`, and so does this for a command that does not decode; the outcome is that of refusing before decoding
(60_exceptions.md R214, log entry 10). -/
def issue (c : Command) (s : State) : Host.Outcome State Fault Refusal :=
  match decode c with
  | .ok i => exec i s
  | .error _ => .next s.illegal

/-- Take the host's next event (log entry 6): nothing happens where there is none (60_exceptions.md R222), a reset
restores the reset values (70_reset_and_hazards.md R240), a command is issued. -/
def takeEvent (s : State) : Host.Outcome State Fault Refusal :=
  match s.pending with
  | [] => .next s
  | .reset :: rest => .next (s.setPending rest).applyReset
  | .command c :: rest => issue c (s.setPending rest)

/-- The state with `c` as the very next event on the command port. -/
def State.withCommand (s : State) (c : Command) : State := s.setPending (.command c :: s.pending)

end Sys2Proof.Machine
end

