-- ==== Sys2Proof/Machine/Step.lean ====
section
/-! DEFINITION. One step of the machine, and how a table word is placed where the step takes its next command. -/

namespace Sys2Proof.Machine

/-- One transaction: the host's next event is taken and runs to completion (20_memory.md R71). -/
def step (s : State) : Host.Outcome State Fault Refusal := takeEvent s

/-- The table word `w`, with zero operands of its signature, as the next command on the command port. -/
def State.withFetchWord (s : State) (nbits w : ℕ) : State := s.withCommand (tableCommand nbits w)

end Sys2Proof.Machine
end

