-- ==== Sys2Proof/Safety.lean ====
section
/-! DEFINITION. The terms claims about the machine use: the invariant of every state a run reaches (10_state.md R47), the
response types (30_encoding.md R82), sequences of commands, and what the detector and the finders are about to read. -/

namespace Sys2Proof.Machine

/-! ## Safe states -/

/-- A Position agrees with the sample rate, `seconds = samples / srcSampleRate` (00_scope.md R12). -/
def Position.Agrees (p : Params) (pos : Position) : Prop := pos.seconds = pos.samples / p.srcSampleRate

/-- The last `n` entries of a list (all of it where it is shorter). -/
def lastN {α : Type} (n : ℕ) (l : List α) : List α := l.drop (l.length - n)

/-- What holds in every state a run reaches: the seven items of 10_state.md R47, with what they need to be kept by every
step (where the input stands before construction, what the window holds, that the format was checked, that Positions
agree with the sample rate). -/
structure State.Inv (s : State) : Prop where
  /-- R47 item 1. -/
  cursor : s.srcIndex ≤ s.params.srcSamples.length
  /-- Every sample read lay in range (20_memory.md R62). -/
  readInRange : ∀ x ∈ s.params.srcSamples.take s.srcIndex, sampleInRange s.params x = true
  /-- No sample is read before a unit is constructed (70_reset_and_hazards.md R241). -/
  unreadAtFirst : s.lpf.init = false → s.zcd.init = false → s.srcIndex = 0
  /-- A constructed unit has a valid source format (20_memory.md R61). -/
  format : s.lpf.init = true ∨ s.zcd.init = true → sourceFormatOk s.params = true
  /-- R47 item 2. -/
  filter : s.lpf.init = true → 1 ≤ s.lpf.W ∧ s.lpf.window.length = s.lpf.W ∧ s.lpf.sum = s.lpf.window.sum
  /-- The window holds the last `W` input samples, zeros before the first (41_lowpass_filter.md R120). -/
  window : s.lpf.init = true →
    s.lpf.window = lastN s.lpf.W (List.replicate s.lpf.W 0 ++ s.params.srcSamples.take s.srcIndex)
  /-- R47 item 3. -/
  replay : s.zcd.replay = true → s.zcd.last ≠ none ∧ s.zcd.lastWasEnd = false
  /-- R47 item 4: the stream of a detector with no run pending has ended. -/
  ended : s.zcd.init = true → s.zcd.runLen = 0 → s.srcIndex = s.params.srcSamples.length
  /-- R47 item 5. -/
  last : ∀ h p, s.zcd.last = some (h, p) → 0 < h ∧ p.samples ≤ s.zcd.consumed ∧ p.Agrees s.params
  /-- The detector's other Positions. -/
  positions : s.zcd.initPos.Agrees s.params ∧ s.zcd.prevPos.Agrees s.params
  /-- R47 item 6: the input port has at most one owner (the filter's output can have only one, 10_state.md R46). -/
  oneOwner : ¬ (s.lpfOwnsInput = true ∧ s.zcdOwnsInput = true)
  /-- A detector on the filter's output has a filter below it. -/
  filterBelow : s.zcdOwnsFilter = true → s.lpf.init = true
  /-- R47 item 7. -/
  detectorFresh : s.zcd.init = false → s.zcd = Zcd.reset
  /-- R47 item 7. -/
  filterFresh : s.lpf.init = false → s.lpf = Lpf.reset

/-- Every sample still on the input port lies in range. -/
def State.UnreadInRange (s : State) : Prop :=
  ∀ x ∈ s.params.srcSamples.drop s.srcIndex, 0 ≤ x ∧ x ≤ 2 ^ s.params.srcBitsPerSample - 1

/-- A source format `LPF.INIT` and `ZCD.INIT` accept (20_memory.md R61). -/
def ValidFormat (p : Params) : Prop :=
  p.srcSampleRate ≠ 0 ∧ (p.srcBitsPerSample = 8 ∨ p.srcBitsPerSample = 16 ∨ p.srcBitsPerSample = 32)

/-- Every state element of 10_state.md R22 holds its reset value, for an instance with parameters `p`. -/
def State.AtReset (p : Params) (s : State) : Prop :=
  s.srcIndex = 0 ∧ s.osc.phase = p.oscInitialPhase ∧ s.osc.out = [] ∧
  s.lpf.init = false ∧ s.lpf.W = 0 ∧ s.lpf.window = [] ∧ s.lpf.sum = 0 ∧
  s.zcd.init = false ∧ s.zcd.sel = .raw ∧ s.zcd.positive = false ∧ s.zcd.runLen = 0 ∧ s.zcd.consumed = 0 ∧
  s.zcd.initPos = ⟨0, 0⟩ ∧ s.zcd.last = none ∧ s.zcd.prevPos = ⟨0, 0⟩ ∧ s.zcd.replay = false ∧
  s.zcd.lastWasEnd = false ∧ s.fault = .none

/-- The state after a command that found `s` and raised the fault `c`: only the fault register is written, and the
response is `Fault(c)` (60_exceptions.md R212, R213). -/
def State.faultedWith (s : State) (c : FaultCode) : State :=
  { s with fault := c, responses := s.responses ++ [.fault c] }

/-! ## Commands and their responses -/

/-- The commands of the Oscillator. -/
def isOsc : Instr → Bool
  | .oscBegin | .oscEnd | .oscSilence _ | .oscHalf _ | .oscOscs _ _ | .oscSecs _ _ => true
  | .lpfInit _ | .lpfNext | .zcdInit _ | .zcdNext | .zcdRewind | .zcdPos | .syncFind _ _ _ | .syncDfind _ _
  | .fclsIs _ _ _ | .fclsOscis _ _ _ _ | .fclsBit _ _ _ _ _ | .ctlStatus => false

/-- The commands of the Frequency Classifier. -/
def isFcls : Instr → Bool
  | .fclsIs _ _ _ | .fclsOscis _ _ _ _ | .fclsBit _ _ _ _ _ => true
  | .oscBegin | .oscEnd | .oscSilence _ | .oscHalf _ | .oscOscs _ _ | .oscSecs _ _ | .lpfInit _ | .lpfNext
  | .zcdInit _ | .zcdNext | .zcdRewind | .zcdPos | .syncFind _ _ _ | .syncDfind _ _ | .ctlStatus => false

/-- `r` is a response of the type 30_encoding.md R82 and R85 give the command. -/
def answers : Instr → Response → Prop
  | .oscBegin, r | .oscEnd, r | .oscSilence _, r | .oscHalf _, r | .oscOscs _ _, r | .oscSecs _ _, r
  | .lpfInit _, r | .zcdInit _, r | .zcdRewind, r => r = .ack
  | .lpfNext, r => r = .endOfStream ∨ ∃ q, r = .sample q
  | .zcdNext, r => r = .endOfStream ∨ ∃ h, 0 < h ∧ r = .halfPeriod h
  | .zcdPos, r => ∃ p, r = .pos p
  | .syncFind _ _ _, r | .fclsIs _ _ _, r | .fclsOscis _ _ _ _, r => ∃ b, r = .bool b
  | .syncDfind _ _, r => r = .undefined ∨ ∃ q, 0 < q ∧ r = .freq q
  | .fclsBit _ _ _ _ _, r => ∃ t, r = .tri t
  | .ctlStatus, r => ∃ c : FaultCode, r = .status c.number

/-- The state after a sequence of commands, each run by `exec`; it stays where one does not answer a next state. -/
def execMany : List Instr → State → State
  | [], s => s
  | i :: rest, s =>
    match exec i s with
    | .next t => execMany rest t
    | .fault _ => s
    | .refused _ => s

/-! ## The Oscillator's output -/

/-- `count` cycles of `n` symbols of the phase `ph` and `n` of its inverse (40_oscillator.md R104). -/
def cycleSymbols (ph : Phase) (n count : ℕ) : List Symbol :=
  (List.replicate count (List.replicate n (phaseSymbol ph) ++ List.replicate n (phaseSymbol (invert ph)))).flatten

/-- The symbols a successful command appends, by the table of 40_oscillator.md R108. -/
def symbolsAdded (p : Params) : Instr → ℕ
  | .oscBegin => p.oscLeadInSamples
  | .oscEnd => p.oscLeadOutSamples
  | .oscSilence n => n
  | .oscHalf f => ⌊(p.oscSampleRate : ℚ) / (2 * f)⌋₊
  | .oscOscs f count => 2 * count * ⌊(p.oscSampleRate : ℚ) / (2 * f)⌋₊
  | .oscSecs f seconds => 2 * cycleCount (f * seconds) * ⌊(p.oscSampleRate : ℚ) / (2 * f)⌋₊
  | .lpfInit _ | .lpfNext | .zcdInit _ | .zcdNext | .zcdRewind | .zcdPos | .syncFind _ _ _ | .syncDfind _ _
  | .fclsIs _ _ _ | .fclsOscis _ _ _ _ | .fclsBit _ _ _ _ _ | .ctlStatus => 0

/-- The half-oscillations a successful command executes (10_state.md R48). -/
def halfOscillations : Instr → ℕ
  | .oscHalf _ => 1
  | .oscOscs _ count => 2 * count
  | .oscSecs f seconds => 2 * cycleCount (f * seconds)
  | .oscBegin | .oscEnd | .oscSilence _ | .lpfInit _ | .lpfNext | .zcdInit _ | .zcdNext | .zcdRewind | .zcdPos
  | .syncFind _ _ _ | .syncDfind _ _ | .fclsIs _ _ _ | .fclsOscis _ _ _ _ | .fclsBit _ _ _ _ _ | .ctlStatus => 0

/-- The half-oscillations a sequence of commands executes from `s`: those of each command that does not fault and is not
refused (10_state.md R48, 60_exceptions.md R213, R214). -/
def executedHalfOscillations : List Instr → State → ℕ
  | [], _ => 0
  | i :: rest, s =>
    match exec i s with
    | .next t => (if t.fault = .none then halfOscillations i else 0) + executedHalfOscillations rest t
    | .fault _ => 0
    | .refused _ => 0

/-! ## What the detector is about to read -/

/-- The filter after the input samples `xs`. -/
def Lpf.pushAll (l : Lpf) (xs : List ℤ) : Lpf := xs.foldl Lpf.push l

/-- The outputs of a filter for the input samples that follow (41_lowpass_filter.md R124). -/
def Lpf.outputs : Lpf → List ℤ → List ℚ
  | _, [] => []
  | l, x :: xs => (l.push x).output :: Lpf.outputs (l.push x) xs

/-- The values still to come on the detector's stream (42_zero_crossing.md R142). -/
def State.upcoming (s : State) : List ℚ :=
  match s.zcd.sel with
  | .raw => (s.params.srcSamples.drop s.srcIndex).map fun x : ℤ => (x : ℚ)
  | .lpf => s.lpf.outputs (s.params.srcSamples.drop s.srcIndex)

/-- The input port and the filter after the detector has taken `n` values from its stream. -/
def State.taken (s : State) (n : ℕ) : State :=
  { s with
    srcIndex := s.srcIndex + n
    lpf := match s.zcd.sel with
      | .raw => s.lpf
      | .lpf => s.lpf.pushAll ((s.params.srcSamples.drop s.srcIndex).take n) }

/-- The lengths of the runs that a run of `len` samples of polarity `pos`, still in progress, and the stream values after
it form (42_zero_crossing.md R150). -/
def runLengths (p : Params) : Bool → ℕ → List ℚ → List ℕ
  | _, len, [] => [len]
  | pos, len, q :: qs =>
    if polarity p q pos = pos then runLengths p pos (len + 1) qs
    else len :: runLengths p (polarity p q pos) 1 qs

/-- The sample counts of the Positions recorded with runs of these lengths, `before` samples lying before the first: each
counts the sample that ended its run, the last none (42_zero_crossing.md R150). -/
def recordedCounts : ℕ → List ℕ → List ℕ
  | _, [] => []
  | before, [len] => [before + len]
  | before, len :: next :: rest => (before + len + 1) :: recordedCounts (before + len) (next :: rest)

/-! ## What the finders read -/

/-- From `s`, successive reads of the detector deliver the half-periods `vs` and leave it in `t`. -/
def Delivers : List ℚ → State → State → Prop
  | [], s, t => s = t
  | v :: vs, s, t => ∃ u, zcdNext s = .ok (some v) u ∧ Delivers vs u t

/-- `vs` holds no `n` consecutive values in the band. -/
def NoRun (lo hi : ℚ) (n : ℕ) (vs : List ℚ) : Prop :=
  ∀ w, w <:+: vs → w.length = n → ∃ v ∈ w, inBand v lo hi = false

/-- The average of the last `n` values of a run, of all of them where it is shorter (43_sync_detector.md R176). -/
def runAverage (n : ℕ) (run : List ℚ) : ℚ := (lastN n run).sum / (lastN n run).length

/-- The relative deviation of `v` from the average of the last `n` values of `run` exceeds `maxDev`
(43_sync_detector.md R175). -/
def Deviates (n : ℕ) (maxDev : ℚ) (run : List ℚ) (v : ℚ) : Prop :=
  maxDev < |v - runAverage n run| / runAverage n run

/-- A run of the dynamic finder: not empty, and each value stays within `maxDev` of the average of the last `n` values
before it (43_sync_detector.md R176). -/
def Steady (n : ℕ) (maxDev : ℚ) (run : List ℚ) : Prop :=
  run ≠ [] ∧ ∀ before v after, run = before ++ v :: after → before ≠ [] → ¬ Deviates n maxDev before v

/-- The values `skipped` are runs too short for the dynamic finder, each ended by the first value of the next, the last
of them by `next`, which begins a new run (43_sync_detector.md R176). -/
inductive Restarts (n : ℕ) (maxDev : ℚ) : List ℚ → ℚ → Prop where
  | nil (next : ℚ) : Restarts n maxDev [] next
  | cons (v : ℚ) (run rest : List ℚ) (next : ℚ) :
      Steady n maxDev (v :: run) → (v :: run).length < n →
      Deviates n maxDev (v :: run) ((rest ++ [next]).headD next) →
      Restarts n maxDev rest next → Restarts n maxDev (v :: run ++ rest) next

end Sys2Proof.Machine
end

