-- ==== Sys2Proof/Certificates/Slice0/Obligations.lean ====
section
/-! DEFINITION. The statements for the provers. Each says what the machine does under a numbered rule of the spec; a
statement about a command's result has the whole next state as its conclusion, so it is also its frame and says where
the command completes. -/

open Sys2Proof Sys2Proof.Machine

/-! ## Reset and the command port -/

/-- 10_state.md R22: every state element with its reset value, for every instance. -/
def Obligations.ResetGivesEveryElementItsListedValue : Prop :=
  (∀ p : Params, (State.resetOf p).AtReset p ∧ (State.resetOf p).params = p) ∧
    State.reset = State.resetOf Config.params

/-- 70_reset_and_hazards.md R240: the reset signal, in every state, the faulted one too. -/
def Obligations.ResetSignalRestoresEveryElement : Prop :=
  ∀ (s : State) (rest : List HostEvent), s.pending = .reset :: rest →
    ∃ t, step s = .next t ∧ t.AtReset s.params ∧ t.params = s.params ∧ t.pending = rest

/-- 60_exceptions.md R222, 70_reset_and_hazards.md R241: with no command issued the state is held. -/
def Obligations.IdlePortHoldsTheState : Prop :=
  ∀ s : State, s.pending = [] → step s = .next s

/-- A step runs the instruction its command decodes to, on the state with the command taken off the port. -/
def Obligations.StepRunsTheDecodedCommand : Prop :=
  ∀ (s : State) (c : Command) (rest : List HostEvent) (i : Instr), s.pending = .command c :: rest →
    decode c = .ok i → step s = exec i { s with pending := rest }

/-- 70_reset_and_hazards.md R255, with the model's outcomes: no step of this machine stops (log entry 4). -/
def Obligations.EveryStepAnswersANextState : Prop :=
  ∀ s : State, ∃ t, step s = .next t

/-- 00_scope.md R6: no command changes an instance parameter; 70_reset_and_hazards.md R240: a reset keeps them. -/
def Obligations.NoStepChangesAParameter : Prop :=
  ∀ s t : State, step s = .next t → t.params = s.params

/-- 00_scope.md R3, R10: a command puts exactly one response on the port, and takes only itself off it. -/
def Obligations.EveryCommandGivesExactlyOneResponse : Prop :=
  ∀ (s : State) (c : Command) (rest : List HostEvent), s.pending = .command c :: rest →
    ∃ t r, step s = .next t ∧ t.responses = s.responses ++ [r] ∧ t.pending = rest

/-- 30_encoding.md R85: the response is of the type of the command, or `Fault`, or in the faulted state `Refused`. -/
def Obligations.ResponsesHaveTheirListedTypes : Prop :=
  ∀ (i : Instr) (s t : State), s.Inv → exec i s = .next t →
    (s.fault = .none → ∃ r, t.responses = s.responses ++ [r] ∧
      ((answers i r ∧ t.fault = .none) ∨ (r = .fault t.fault ∧ t.fault ≠ .none))) ∧
    (s.fault ≠ .none → i ≠ .ctlStatus → t.responses = s.responses ++ [.refused s.fault])

/-! ## Decoding -/

/-- Decode and encode agree, on every instruction and every command. -/
def Obligations.DecodeInvertsEncode : Prop :=
  (∀ i : Instr, decode (encode i) = .ok i) ∧
  (∀ (c : Command) (i : Instr), decode c = .ok i → encode i = c)

/-- 30_encoding.md R84, R86: exactly the words of the map, with operands of exactly the listed types, decode. -/
def Obligations.ExactlyTheMapDecodes : Prop :=
  ∀ c : Command, (∃ i, decode c = .ok i) ↔ c.wf = true

/-- 30_encoding.md R82: the words of the map, written out, with the instruction each stands for. -/
def Obligations.MapWordsDecodeToTheirCommands : Prop :=
  decode ⟨0b00000000#8, []⟩ = .ok .oscBegin ∧
  decode ⟨0b00000011#8, [.rat 1200]⟩ = .ok (.oscHalf 1200) ∧
  decode ⟨0b00100000#8, [.rat 2000]⟩ = .ok (.lpfInit 2000) ∧
  decode ⟨0b01000010#8, []⟩ = .ok .zcdRewind ∧
  decode ⟨0b01100000#8, [.rat 1800, .rat 2200, .nat 40]⟩ = .ok (.syncFind 1800 2200 40) ∧
  decode ⟨0b10000010#8, [.rat 1200, .rat 1000, .rat 1400, .rat 2200, .rat 2600]⟩ =
    .ok (.fclsBit 1200 1000 1400 2200 2600) ∧
  decode ⟨0b11100000#8, []⟩ = .ok .ctlStatus

/-- 30_encoding.md R86: an illegal word, or operands that do not match the signature, fault and change no other state. -/
def Obligations.IllegalCommandsFault : Prop :=
  ∀ (s : State) (c : Command) (rest : List HostEvent), s.fault = .none → s.pending = .command c :: rest →
    c.wf = false → step s = .next ({ s with pending := rest }.faultedWith .illegalCommand)

/-! ## Faults -/

/-- 60_exceptions.md R214: in the faulted state every command but `CTL.STATUS` with no operands is refused, legal or
not, and `CTL.STATUS` answers. -/
def Obligations.FaultedStateRefusesCommands : Prop :=
  ∀ (s : State) (c : Command) (rest : List HostEvent), s.fault ≠ .none → s.pending = .command c :: rest →
    (c ≠ ⟨0xE0#8, []⟩ →
      step s = .next { s with pending := rest, responses := s.responses ++ [.refused s.fault] }) ∧
    (c = ⟨0xE0#8, []⟩ →
      step s = .next { s with pending := rest, responses := s.responses ++ [.status s.fault.number] })

/-- 60_exceptions.md R213: a command that faults, legal or not, leaves everything but the fault register as it found
it, and answers with the code it left there. -/
def Obligations.FaultsArePrecise : Prop :=
  ∀ (s t : State) (c : Command) (rest : List HostEvent), s.fault = .none → s.pending = .command c :: rest →
    step s = .next t → t.fault ≠ .none → t = { s with pending := rest }.faultedWith t.fault

/-- 60_exceptions.md R216, 10_state.md R40: the fault register keeps the first code until a reset. -/
def Obligations.OnlyResetLeavesTheFaultedState : Prop :=
  ∀ s t : State, step s = .next t → s.fault ≠ .none →
    t.fault = s.fault ∨ (t.fault = .none ∧ ∃ rest, s.pending = .reset :: rest)

/-- 60_exceptions.md R210: the numbers of the fault codes. -/
def Obligations.FaultCodesHaveTheListedNumbers : Prop :=
  FaultCode.none.number = 0 ∧ FaultCode.illegalCommand.number = 1 ∧ FaultCode.invalidOperand.number = 2 ∧
  FaultCode.malformedBand.number = 3 ∧ FaultCode.badWindow.number = 4 ∧ FaultCode.badSourceFormat.number = 5 ∧
  FaultCode.notInitialized.number = 6 ∧ FaultCode.alreadyInitialized.number = 7 ∧
  FaultCode.ownershipViolation.number = 8 ∧ FaultCode.doubleRewind.number = 9 ∧
  FaultCode.rewindWithoutValue.number = 10 ∧ FaultCode.rewindAfterEnd.number = 11 ∧
  FaultCode.sampleOutOfRange.number = 12

/-- 45_control.md R200: `CTL.STATUS` answers in every state and changes none. -/
def Obligations.StatusReadsTheFaultRegister : Prop :=
  ∀ s : State, exec .ctlStatus s = .next { s with responses := s.responses ++ [.status s.fault.number] }

/-! ## The invariant -/

/-- The invariant holds after reset, for every instance. -/
def Obligations.ResetStateMeetsTheInvariant : Prop :=
  (∀ p : Params, (State.resetOf p).Inv) ∧ State.reset.Inv

/-- 10_state.md R47: the invariant of every reachable state is kept by every step from every state that has it. -/
def Obligations.EveryStepKeepsTheInvariant : Prop :=
  ∀ s t : State, s.Inv → step s = .next t → t.Inv

/-- 10_state.md R23, R25: but for reset, the input cursor only grows and the symbol output is only appended to. -/
def Obligations.StreamsOnlyMoveForward : Prop :=
  ∀ s t : State, step s = .next t → (∀ rest, s.pending ≠ .reset :: rest) →
    s.srcIndex ≤ t.srcIndex ∧ s.osc.out <+: t.osc.out

/-- 10_state.md R22 ("set by"), R42: which commands can write which unit's state: the frame of every command on the
units it does not belong to. -/
def Obligations.UnitsAreWrittenOnlyByTheirCommands : Prop :=
  ∀ (i : Instr) (s t : State), exec i s = .next t →
    (isOsc i = false → t.osc = s.osc) ∧
    ((isOsc i = true ∨ isFcls i = true ∨ i = .zcdPos ∨ i = .ctlStatus) →
      t.srcIndex = s.srcIndex ∧ t.lpf = s.lpf ∧ t.zcd = s.zcd) ∧
    ((i = .lpfNext ∨ ∃ cutoff, i = .lpfInit cutoff) → t.zcd = s.zcd) ∧
    ((∃ cutoff, i = .lpfInit cutoff) → t.srcIndex = s.srcIndex) ∧
    ((∃ sel, sel ≠ 1 ∧ i = .zcdInit sel) → t.lpf = s.lpf) ∧
    (i = .zcdRewind → t.srcIndex = s.srcIndex ∧ t.lpf = s.lpf ∧ { t.zcd with replay := s.zcd.replay } = s.zcd) ∧
    (s.zcd.init = true → s.zcd.sel = .raw → i ≠ .lpfNext → (∀ cutoff, i ≠ .lpfInit cutoff) → t.lpf = s.lpf)

/-- 10_state.md R26, R27, R30, R31: a unit once constructed stays constructed, with its window length and its stream,
until reset. -/
def Obligations.ConstructedUnitsStayConstructed : Prop :=
  ∀ s t : State, step s = .next t → (∀ rest, s.pending ≠ .reset :: rest) →
    (s.lpf.init = true → t.lpf.init = true ∧ t.lpf.W = s.lpf.W) ∧
    (s.zcd.init = true → t.zcd.init = true ∧ t.zcd.sel = s.zcd.sel ∧ t.zcd.initPos = s.zcd.initPos)

/-- 20_memory.md R75, R60: the encode side and the decode side of an instance do not touch or read each other. Whatever
the input port presents (its rate, bit depth and samples) and whatever the decode units hold, an `OSC` command's outcome
is the same. -/
def Obligations.EncodeAndDecodeSidesAreIndependent : Prop :=
  (∀ (i : Instr) (s t : State), isOsc i = true → exec i s = .next t →
    t = { s with osc := t.osc, fault := t.fault, responses := t.responses } ∧
    ∀ (n : ℕ) (l : Lpf) (z : Zcd) (rate bits : ℕ) (xs : List ℤ) (rule : ZcEqualRule),
      exec i { s with
          srcIndex := n, lpf := l, zcd := z
          params := { s.params with
            srcSampleRate := rate, srcBitsPerSample := bits, srcSamples := xs, zcEqualRule := rule } } =
        .next { t with
          srcIndex := n, lpf := l, zcd := z
          params := { s.params with
            srcSampleRate := rate, srcBitsPerSample := bits, srcSamples := xs, zcEqualRule := rule } }) ∧
  (∀ (i : Instr) (s t : State) (o : Osc), isOsc i = false → exec i s = .next t →
    exec i { s with osc := o } = .next { t with osc := o })

/-! ## The Oscillator -/

/-- 40_oscillator.md R100, R101, R102: the three silences emit `Zero` symbols and leave the phase. -/
def Obligations.SilencesAppendZeroSymbols : Prop :=
  ∀ s : State, s.fault = .none →
    exec .oscBegin s = .next { s with
      osc := { s.osc with out := s.osc.out ++ List.replicate s.params.oscLeadInSamples .zero }
      responses := s.responses ++ [.ack] } ∧
    exec .oscEnd s = .next { s with
      osc := { s.osc with out := s.osc.out ++ List.replicate s.params.oscLeadOutSamples .zero }
      responses := s.responses ++ [.ack] } ∧
    ∀ n : ℕ, exec (.oscSilence n) s = .next { s with
      osc := { s.osc with out := s.osc.out ++ List.replicate n .zero }
      responses := s.responses ++ [.ack] }

/-- 40_oscillator.md R103: `OSC.HALF` emits `n = floor(oscSampleRate / (2f))` symbols of the phase and inverts it,
whatever `n` is; it faults on `f ≤ 0`. -/
def Obligations.HalfEmitsThePhaseAndInvertsIt : Prop :=
  ∀ (s : State) (f : ℚ), s.fault = .none →
    (∀ n : ℕ, 0 < f → (n : ℚ) ≤ s.params.oscSampleRate / (2 * f) →
      (s.params.oscSampleRate : ℚ) / (2 * f) < n + 1 →
      (s.osc.phase = .high → exec (.oscHalf f) s = .next { s with
        osc := ⟨.low, s.osc.out ++ List.replicate n .high⟩, responses := s.responses ++ [.ack] }) ∧
      (s.osc.phase = .low → exec (.oscHalf f) s = .next { s with
        osc := ⟨.high, s.osc.out ++ List.replicate n .low⟩, responses := s.responses ++ [.ack] })) ∧
    (f ≤ 0 → exec (.oscHalf f) s = .next (s.faultedWith .invalidOperand))

/-- 40_oscillator.md R104: `OSC.OSCS` emits `count` whole cycles and leaves the phase as it was; the check of `f` comes
first, even with `count = 0`. -/
def Obligations.OscsEmitsWholeCycles : Prop :=
  ∀ (s : State) (f : ℚ) (count : ℕ), s.fault = .none →
    (∀ n : ℕ, 0 < f → (n : ℚ) ≤ s.params.oscSampleRate / (2 * f) →
      (s.params.oscSampleRate : ℚ) / (2 * f) < n + 1 →
      exec (.oscOscs f count) s = .next { s with
        osc := ⟨s.osc.phase, s.osc.out ++ cycleSymbols s.osc.phase n count⟩
        responses := s.responses ++ [.ack] }) ∧
    (f ≤ 0 → exec (.oscOscs f count) s = .next (s.faultedWith .invalidOperand))

/-- 40_oscillator.md R105: `OSC.SECS` emits `oscCycleRounding(f × seconds)` whole cycles, which is `f × seconds` itself
where that is a natural number (else the count is free, log entry 2). -/
def Obligations.SecsEmitsCyclesForTheTime : Prop :=
  ∀ (s : State) (f seconds : ℚ), s.fault = .none →
    (∀ n : ℕ, 0 < f → 0 ≤ seconds → (n : ℚ) ≤ s.params.oscSampleRate / (2 * f) →
      (s.params.oscSampleRate : ℚ) / (2 * f) < n + 1 →
      exec (.oscSecs f seconds) s = .next { s with
        osc := ⟨s.osc.phase, s.osc.out ++ cycleSymbols s.osc.phase n (cycleCount (f * seconds))⟩
        responses := s.responses ++ [.ack] } ∧
      ∀ c : ℕ, f * seconds = c → cycleCount (f * seconds) = c) ∧
    (f ≤ 0 ∨ seconds < 0 → exec (.oscSecs f seconds) s = .next (s.faultedWith .invalidOperand))

/-- 30_encoding.md R90: the equivalences of the Oscillator's commands. `2n` commands give `2n` responses where one gives
one, so that equivalence is of everything but the responses. -/
def Obligations.OscillatorEquivalences : Prop :=
  ∀ s : State, s.fault = .none →
    exec .oscBegin s = exec (.oscSilence s.params.oscLeadInSamples) s ∧
    exec .oscEnd s = exec (.oscSilence s.params.oscLeadOutSamples) s ∧
    (∀ (f : ℚ) (n : ℕ), 0 < f →
      { execMany [.oscOscs f n] s with responses := s.responses } =
        { execMany (List.replicate (2 * n) (.oscHalf f)) s with responses := s.responses }) ∧
    (∀ f seconds : ℚ, 0 < f → 0 ≤ seconds →
      exec (.oscSecs f seconds) s = exec (.oscOscs f (cycleCount (f * seconds))) s)

/-- 40_oscillator.md R108: over any sequence of commands that raises no fault, the output grows by the sum of the
symbols the table lists for each (`Safety.symbolsAdded`). -/
def Obligations.OutputGrowsByTheListedCounts : Prop :=
  ∀ (is : List Instr) (s : State), s.fault = .none → (execMany is s).fault = .none →
    (execMany is s).osc.out.length = s.osc.out.length + (is.map (symbolsAdded s.params)).sum

/-- 10_state.md R48: after any sequence of commands, from any state, faulting or not, the phase is what it was exactly
if the number of half-oscillations executed is even; so after any sequence from reset it is `oscInitialPhase` exactly
then. -/
def Obligations.PhaseFollowsTheParityOfHalfOscillations : Prop :=
  (∀ (is : List Instr) (s : State),
    (execMany is s).osc.phase = s.osc.phase ↔ Even (executedHalfOscillations is s)) ∧
  ∀ (is : List Instr) (p : Params),
    (execMany is (State.resetOf p)).osc.phase = p.oscInitialPhase ↔
      Even (executedHalfOscillations is (State.resetOf p))

/-- 40_oscillator.md R109: silence of any length between two half-oscillations does not reset the alternation. -/
def Obligations.SilenceKeepsThePhaseContinuous : Prop :=
  ∀ (s : State) (f : ℚ) (k n : ℕ), s.fault = .none → 0 < f → (n : ℚ) ≤ s.params.oscSampleRate / (2 * f) →
    (s.params.oscSampleRate : ℚ) / (2 * f) < n + 1 →
    (execMany [.oscHalf f, .oscSilence k, .oscHalf f] s).osc =
      ⟨s.osc.phase, s.osc.out ++ List.replicate n (phaseSymbol s.osc.phase) ++ List.replicate k .zero ++
        List.replicate n (phaseSymbol (invert s.osc.phase))⟩

/-! ## The Low-Pass Filter -/

/-- 41_lowpass_filter.md R121, R122: `LPF.INIT` fills a window of `W` zeros, `W` being `srcSampleRate / cutoff` rounded
half up; its faults, in the rule's order. -/
def Obligations.LpfInitConstructsAZeroWindow : Prop :=
  ∀ (s : State) (cutoff : ℚ), s.fault = .none →
    (∀ W : ℕ, s.lpf.init = false → ValidFormat s.params → ¬ (s.zcd.init = true ∧ s.zcd.sel = .raw) → 0 < cutoff →
      1 ≤ W → (W : ℚ) - 1 / 2 ≤ s.params.srcSampleRate / cutoff →
      (s.params.srcSampleRate : ℚ) / cutoff < W + 1 / 2 →
      exec (.lpfInit cutoff) s = .next { s with
        lpf := { init := true, W := W, window := List.replicate W 0, sum := 0 }
        responses := s.responses ++ [.ack] }) ∧
    (s.lpf.init = true → exec (.lpfInit cutoff) s = .next (s.faultedWith .alreadyInitialized)) ∧
    (s.lpf.init = false → ¬ ValidFormat s.params →
      exec (.lpfInit cutoff) s = .next (s.faultedWith .badSourceFormat)) ∧
    (s.lpf.init = false → ValidFormat s.params → s.zcd.init = true → s.zcd.sel = .raw →
      exec (.lpfInit cutoff) s = .next (s.faultedWith .ownershipViolation)) ∧
    (s.lpf.init = false → ValidFormat s.params → ¬ (s.zcd.init = true ∧ s.zcd.sel = .raw) → cutoff ≤ 0 →
      exec (.lpfInit cutoff) s = .next (s.faultedWith .invalidOperand)) ∧
    (s.lpf.init = false → ValidFormat s.params → ¬ (s.zcd.init = true ∧ s.zcd.sel = .raw) → 0 < cutoff →
      (s.params.srcSampleRate : ℚ) / cutoff < 1 / 2 →
      exec (.lpfInit cutoff) s = .next (s.faultedWith .badWindow))

/-- 41_lowpass_filter.md R124, R125: `LPF.NEXT` slides the window and answers `sum / W`, answers `End` after the last
sample, and faults in the rule's order. -/
def Obligations.LpfNextSlidesTheWindow : Prop :=
  ∀ s : State, s.fault = .none →
    (s.lpf.init = false → exec .lpfNext s = .next (s.faultedWith .notInitialized)) ∧
    (s.lpf.init = true → s.zcd.init = true → s.zcd.sel = .lpf →
      exec .lpfNext s = .next (s.faultedWith .ownershipViolation)) ∧
    (s.lpf.init = true → ¬ (s.zcd.init = true ∧ s.zcd.sel = .lpf) →
      (s.params.srcSamples.length ≤ s.srcIndex →
        exec .lpfNext s = .next { s with responses := s.responses ++ [.endOfStream] }) ∧
      (∀ x : ℤ, s.params.srcSamples[s.srcIndex]? = some x → (x < 0 ∨ 2 ^ s.params.srcBitsPerSample - 1 < x) →
        exec .lpfNext s = .next (s.faultedWith .sampleOutOfRange)) ∧
      (∀ (x old : ℤ) (rest : List ℤ), s.params.srcSamples[s.srcIndex]? = some x → 0 ≤ x →
        x ≤ 2 ^ s.params.srcBitsPerSample - 1 → s.lpf.window = old :: rest → s.lpf.W ≠ 0 →
        exec .lpfNext s = .next { s with
          srcIndex := s.srcIndex + 1
          lpf := { s.lpf with window := rest ++ [x], sum := s.lpf.sum - old + x }
          responses := s.responses ++ [.sample (((s.lpf.sum - old + x : ℤ) : ℚ) / s.lpf.W)] }))

/-- 41_lowpass_filter.md R120: the `k`-th output is the sum of the last `W` inputs, zeros before the first, over `W`.
Only the sample read must lie in range. -/
def Obligations.FilterOutputIsTheMovingAverage : Prop :=
  ∀ (s : State) (x : ℤ), s.Inv → s.fault = .none → s.lpf.init = true → ¬ (s.zcd.init = true ∧ s.zcd.sel = .lpf) →
    s.params.srcSamples[s.srcIndex]? = some x → 0 ≤ x → x ≤ 2 ^ s.params.srcBitsPerSample - 1 →
    ∃ t, exec .lpfNext s = .next t ∧ t.fault = .none ∧ t.srcIndex = s.srcIndex + 1 ∧
      t.responses = s.responses ++
        [.sample (((List.range s.lpf.W).map fun j =>
          if j ≤ s.srcIndex then ((s.params.srcSamples.getD (s.srcIndex - j) 0 : ℤ) : ℚ) else 0).sum / s.lpf.W)]

/-- 41_lowpass_filter.md R127: every output lies in the range of the samples, and a window of one passes them through. -/
def Obligations.FilterOutputStaysInSampleRange : Prop :=
  ∀ (s t : State) (q : ℚ), s.Inv → s.fault = .none → exec .lpfNext s = .next t →
    t.responses = s.responses ++ [.sample q] →
    0 ≤ q ∧ q ≤ 2 ^ s.params.srcBitsPerSample - 1 ∧
    (s.lpf.W = 1 → s.params.srcSamples[s.srcIndex]? = some q.num ∧ q = q.num)

/-! ## The Zero-Crossing Detector -/

/-- 42_zero_crossing.md R140, R141: the threshold of each bit depth, and the polarity of a sample above, below and
exactly at it. -/
def Obligations.PolarityIsAboveOrBelowTheThreshold : Prop :=
  ∀ (p : Params) (cur : Bool),
    (p.srcBitsPerSample = 8 → threshold p = 128) ∧ (p.srcBitsPerSample = 16 → threshold p = 32768) ∧
    (p.srcBitsPerSample = 32 → threshold p = 2147483648) ∧
    ∀ q : ℚ, (threshold p < q → polarity p q cur = true) ∧ (q < threshold p → polarity p q cur = false) ∧
      (q = threshold p → polarity p q cur = match p.zcEqualRule with
        | .asNegative => false
        | .asPositive => true
        | .hold => cur)

/-- 42_zero_crossing.md R146: `ZCD.INIT` consumes the first sample of the stream its operand selects; its faults, in the
rule's order. -/
def Obligations.ZcdInitConsumesTheFirstSample : Prop :=
  ∀ (s : State) (sel : ℕ), s.fault = .none →
    (s.zcd.init = true → exec (.zcdInit sel) s = .next (s.faultedWith .alreadyInitialized)) ∧
    (s.zcd.init = false → sel ≠ 0 → sel ≠ 1 → exec (.zcdInit sel) s = .next (s.faultedWith .invalidOperand)) ∧
    (s.zcd.init = false → (sel = 0 ∨ sel = 1) → ¬ ValidFormat s.params →
      exec (.zcdInit sel) s = .next (s.faultedWith .badSourceFormat)) ∧
    (s.zcd.init = false → ValidFormat s.params → sel = 1 → s.lpf.init = false →
      exec (.zcdInit sel) s = .next (s.faultedWith .notInitialized)) ∧
    (s.zcd.init = false → ValidFormat s.params → sel = 0 → s.lpf.init = true →
      exec (.zcdInit sel) s = .next (s.faultedWith .ownershipViolation)) ∧
    (s.zcd.init = false → ValidFormat s.params → (sel = 0 ∧ s.lpf.init = false ∨ sel = 1 ∧ s.lpf.init = true) →
      (s.params.srcSamples.length ≤ s.srcIndex → exec (.zcdInit sel) s = .next { s with
        zcd := {
          init := true, sel := if sel = 0 then .raw else .lpf, positive := false, runLen := 0, consumed := 0
          initPos := ⟨0, 0⟩, last := none, prevPos := ⟨0, 0⟩, replay := false, lastWasEnd := false }
        responses := s.responses ++ [.ack] }) ∧
      (∀ x : ℤ, s.params.srcSamples[s.srcIndex]? = some x → (x < 0 ∨ 2 ^ s.params.srcBitsPerSample - 1 < x) →
        exec (.zcdInit sel) s = .next (s.faultedWith .sampleOutOfRange)) ∧
      (∀ x : ℤ, s.params.srcSamples[s.srcIndex]? = some x → 0 ≤ x → x ≤ 2 ^ s.params.srcBitsPerSample - 1 →
        (sel = 0 → exec (.zcdInit sel) s = .next { s with
          srcIndex := s.srcIndex + 1
          zcd := {
            init := true, sel := .raw, positive := polarity s.params x false, runLen := 1, consumed := 1
            initPos := ⟨1, 1 / s.params.srcSampleRate⟩, last := none, prevPos := ⟨1, 1 / s.params.srcSampleRate⟩
            replay := false, lastWasEnd := false }
          responses := s.responses ++ [.ack] }) ∧
        (∀ (old : ℤ) (rest : List ℤ), sel = 1 → s.lpf.window = old :: rest → s.lpf.W ≠ 0 →
          exec (.zcdInit sel) s = .next { s with
            srcIndex := s.srcIndex + 1
            lpf := { s.lpf with window := rest ++ [x], sum := s.lpf.sum - old + x }
            zcd := {
              init := true, sel := .lpf
              positive := polarity s.params (((s.lpf.sum - old + x : ℤ) : ℚ) / s.lpf.W) false
              runLen := 1, consumed := 1
              initPos := ⟨1, 1 / s.params.srcSampleRate⟩, last := none, prevPos := ⟨1, 1 / s.params.srcSampleRate⟩
              replay := false, lastWasEnd := false }
            responses := s.responses ++ [.ack] })))

/-- 42_zero_crossing.md R143, R145, R147: `ZCD.NEXT` replays a rewound value; else it reads its stream, raw or filtered,
up to the sample that ends the run in progress, or flushes the last run, or answers `End`; a sample out of range faults. -/
def Obligations.ZcdNextDeliversTheRunInProgress : Prop :=
  ∀ s : State, s.fault = .none →
    (s.zcd.init = false → exec .zcdNext s = .next (s.faultedWith .notInitialized)) ∧
    (∀ (h : ℚ) (p : Position), s.zcd.init = true → s.zcd.replay = true → s.zcd.last = some (h, p) →
      exec .zcdNext s = .next { s with
        zcd := { s.zcd with replay := false, lastWasEnd := false }
        responses := s.responses ++ [.halfPeriod h] }) ∧
    (s.zcd.init = true → s.zcd.replay = false → s.params.srcSampleRate ≠ 0 →
      (∀ (run : List ℚ) (y : ℚ) (after : List ℚ), s.zcd.runLen ≠ 0 → s.upcoming = run ++ y :: after →
        (∀ x ∈ (s.params.srcSamples.drop s.srcIndex).take (run.length + 1), sampleInRange s.params x = true) →
        (∀ v ∈ run, polarity s.params v s.zcd.positive = s.zcd.positive) →
        polarity s.params y s.zcd.positive ≠ s.zcd.positive →
        exec .zcdNext s = .next { s.taken (run.length + 1) with
          zcd := { s.zcd with
            positive := !s.zcd.positive
            runLen := 1
            consumed := s.zcd.consumed + run.length + 1
            prevPos := s.zcd.curPos
            last := some ((s.params.srcSampleRate : ℚ) / (2 * (s.zcd.runLen + run.length : ℕ)),
              ⟨s.zcd.consumed + run.length + 1,
                ((s.zcd.consumed + run.length + 1 : ℕ) : ℚ) / s.params.srcSampleRate⟩)
            lastWasEnd := false }
          responses := s.responses ++
            [.halfPeriod ((s.params.srcSampleRate : ℚ) / (2 * (s.zcd.runLen + run.length : ℕ)))] }) ∧
      (s.zcd.runLen ≠ 0 → s.UnreadInRange → s.srcIndex ≤ s.params.srcSamples.length →
        (∀ v ∈ s.upcoming, polarity s.params v s.zcd.positive = s.zcd.positive) →
        exec .zcdNext s = .next { s.taken s.upcoming.length with
          zcd := { s.zcd with
            runLen := 0
            consumed := s.zcd.consumed + s.upcoming.length
            prevPos := s.zcd.curPos
            last := some ((s.params.srcSampleRate : ℚ) / (2 * (s.zcd.runLen + s.upcoming.length : ℕ)),
              ⟨s.zcd.consumed + s.upcoming.length,
                ((s.zcd.consumed + s.upcoming.length : ℕ) : ℚ) / s.params.srcSampleRate⟩)
            lastWasEnd := false }
          responses := s.responses ++
            [.halfPeriod ((s.params.srcSampleRate : ℚ) / (2 * (s.zcd.runLen + s.upcoming.length : ℕ)))] }) ∧
      (s.zcd.runLen = 0 → s.params.srcSamples.length ≤ s.srcIndex →
        exec .zcdNext s = .next { s with
          zcd := { s.zcd with lastWasEnd := true }
          responses := s.responses ++ [.endOfStream] }) ∧
      (∀ (good : List ℤ) (bad : ℤ) (after : List ℤ), s.params.srcSamples.drop s.srcIndex = good ++ bad :: after →
        (∀ x ∈ good, sampleInRange s.params x = true) → sampleInRange s.params bad = false →
        (∀ v ∈ s.upcoming.take good.length, polarity s.params v s.zcd.positive = s.zcd.positive) →
        exec .zcdNext s = .next (s.faultedWith .sampleOutOfRange)))

/-- 42_zero_crossing.md R148: `ZCD.REWIND` arms the replay and changes nothing else; its faults, in the rule's order. -/
def Obligations.ZcdRewindArmsTheReplay : Prop :=
  ∀ s : State, s.fault = .none →
    (s.zcd.init = false → exec .zcdRewind s = .next (s.faultedWith .notInitialized)) ∧
    (s.zcd.init = true → s.zcd.replay = true → exec .zcdRewind s = .next (s.faultedWith .doubleRewind)) ∧
    (s.zcd.init = true → s.zcd.replay = false → s.zcd.lastWasEnd = true →
      exec .zcdRewind s = .next (s.faultedWith .rewindAfterEnd)) ∧
    (s.zcd.init = true → s.zcd.replay = false → s.zcd.lastWasEnd = false → s.zcd.last = none →
      exec .zcdRewind s = .next (s.faultedWith .rewindWithoutValue)) ∧
    (s.zcd.init = true → s.zcd.replay = false → s.zcd.lastWasEnd = false → s.zcd.last ≠ none →
      exec .zcdRewind s = .next { s with
        zcd := { s.zcd with replay := true }
        responses := s.responses ++ [.ack] })

/-- 42_zero_crossing.md R144, R149: `ZCD.POS` answers the Position of the last value delivered, of the one before it
while a rewind is pending, and the construction Position before any; it changes no state. -/
def Obligations.ZcdPosAnswersTheLastPosition : Prop :=
  ∀ s : State, s.fault = .none →
    (s.zcd.init = false → exec .zcdPos s = .next (s.faultedWith .notInitialized)) ∧
    (s.zcd.init = true → s.params.srcSampleRate ≠ 0 →
      (s.zcd.replay = true → exec .zcdPos s = .next { s with responses := s.responses ++
        [.pos ⟨s.zcd.prevPos.samples, (s.zcd.prevPos.samples : ℚ) / s.params.srcSampleRate⟩] }) ∧
      (∀ (h : ℚ) (p : Position), s.zcd.replay = false → s.zcd.last = some (h, p) →
        exec .zcdPos s = .next { s with responses := s.responses ++
          [.pos ⟨p.samples, (p.samples : ℚ) / s.params.srcSampleRate⟩] }) ∧
      (s.zcd.replay = false → s.zcd.last = none → exec .zcdPos s = .next { s with responses := s.responses ++
        [.pos ⟨s.zcd.initPos.samples, (s.zcd.initPos.samples : ℚ) / s.params.srcSampleRate⟩] }))

/-- 42_zero_crossing.md R152: a rewind and the read after it re-deliver the last value and leave the detector as it was. -/
def Obligations.RewindThenNextRedeliversTheValue : Prop :=
  ∀ (s : State) (h : ℚ) (p : Position), s.fault = .none → s.zcd.init = true → s.zcd.replay = false →
    s.zcd.lastWasEnd = false → s.zcd.last = some (h, p) →
    execMany [.zcdRewind, .zcdNext] s = { s with responses := s.responses ++ [.ack, .halfPeriod h] }

/-- 42_zero_crossing.md R150: the detector delivers exactly the runs of its stream, raw or filtered, each with its
Position, and then `End`. -/
def Obligations.DetectorDeliversTheRunsOfItsStream : Prop :=
  ∀ (s : State) (sel : ℕ) (q : ℚ) (qs : List ℚ), s.Inv → s.fault = .none → s.zcd.init = false →
    ValidFormat s.params → (sel = 0 ∧ s.lpf.init = false ∨ sel = 1 ∧ s.lpf.init = true) → s.UnreadInRange →
    { s with zcd := { s.zcd with sel := if sel = 0 then .raw else .lpf } }.upcoming = q :: qs →
    (execMany (.zcdInit sel ::
        (List.replicate (runLengths s.params (polarity s.params q false) 1 qs).length
          [Instr.zcdNext, Instr.zcdPos]).flatten ++ [.zcdNext]) s).responses =
      s.responses ++ .ack ::
        (List.zipWith (fun len n => [Response.halfPeriod ((s.params.srcSampleRate : ℚ) / (2 * (len : ℕ))),
            Response.pos ⟨n, ((n : ℕ) : ℚ) / s.params.srcSampleRate⟩])
          (runLengths s.params (polarity s.params q false) 1 qs)
          (recordedCounts 0 (runLengths s.params (polarity s.params q false) 1 qs))).flatten ++ [.endOfStream]

/-- 42_zero_crossing.md R151: a square wave of `k` full cycles, each half `n` samples on its side of the threshold,
delivers exactly `2k` half-periods of `srcSampleRate / (2n)`, then `End`. -/
def Obligations.SquareWaveGivesTwoHalfPeriodsACycle : Prop :=
  ∀ (p : Params) (a b : ℤ) (n k : ℕ), ValidFormat p → sampleInRange p a = true → sampleInRange p b = true → 1 ≤ n →
    ((a : ℚ) > threshold p ∧ (b : ℚ) < threshold p ∨ (a : ℚ) < threshold p ∧ (b : ℚ) > threshold p) →
    p.srcSamples = (List.replicate k (List.replicate n a ++ List.replicate n b)).flatten →
    (execMany (.zcdInit 0 :: List.replicate (2 * k + 1) .zcdNext) (State.resetOf p)).responses =
      .ack :: List.replicate (2 * k) (.halfPeriod ((p.srcSampleRate : ℚ) / (2 * n))) ++ [.endOfStream]

/-- 42_zero_crossing.md R151, 40_oscillator.md R104, 20_memory.md R66: what one instance's Oscillator emits as `k` cycles
at `f`, another's detector reads back from the sink's bytes as `2k` half-periods, each equal to `f` up to the floor. -/
def Obligations.OscillatorOutputReadsBackAsItsFrequency : Prop :=
  ∀ (enc dec : Params) (f : ℚ) (n k : ℕ), 0 < f → 1 ≤ n → dec.srcSampleRate = enc.oscSampleRate →
    dec.srcBitsPerSample = 8 → (n : ℚ) ≤ enc.oscSampleRate / (2 * f) → (enc.oscSampleRate : ℚ) / (2 * f) < n + 1 →
    dec.srcSamples = (execMany [.oscOscs f k] (State.resetOf enc)).osc.out.map Symbol.byte8 →
    (execMany (.zcdInit 0 :: List.replicate (2 * k + 1) .zcdNext) (State.resetOf dec)).responses =
      .ack :: List.replicate (2 * k) (.halfPeriod ((dec.srcSampleRate : ℚ) / (2 * n))) ++ [.endOfStream] ∧
    f ≤ (dec.srcSampleRate : ℚ) / (2 * n) ∧ (dec.srcSampleRate : ℚ) / (2 * (n + 1)) < f

/-! ## The Synchronization Detector -/

/-- Where the detector and the finders complete: constructed, no fault, and no sample out of range ahead. -/
def Obligations.DetectorReadsComplete : Prop :=
  ∀ s : State, s.Inv → s.fault = .none → s.zcd.init = true → s.UnreadInRange →
    (∃ t, exec .zcdNext s = .next t ∧ t.fault = .none ∧
      (t.responses = s.responses ++ [.endOfStream] ∨ ∃ h, 0 < h ∧ t.responses = s.responses ++ [.halfPeriod h])) ∧
    (∀ (lo hi : ℚ) (n : ℕ), lo ≤ hi → n ≠ 0 → ∃ t b, exec (.syncFind lo hi n) s = .next t ∧ t.fault = .none ∧
      t.responses = s.responses ++ [.bool b]) ∧
    (∀ (n : ℕ) (d : ℚ), 0 ≤ d → n ≠ 0 → ∃ t, exec (.syncDfind n d) s = .next t ∧ t.fault = .none ∧
      (t.responses = s.responses ++ [.undefined] ∨ ∃ q, 0 < q ∧ t.responses = s.responses ++ [.freq q]))

/-- 43_sync_detector.md R172: `SYNC.FIND` skips to the first run of at least `n` in-band values, consumes all of it and
rewinds the value that ended it; at the end of the stream it succeeds exactly with such a run pending. -/
def Obligations.SyncFindStopsAfterTheFirstLongRun : Prop :=
  ∀ (s : State) (lo hi : ℚ) (n : ℕ), s.fault = .none →
    (s.zcd.init = false → exec (.syncFind lo hi n) s = .next (s.faultedWith .notInitialized)) ∧
    (s.zcd.init = true → n = 0 → exec (.syncFind lo hi n) s = .next (s.faultedWith .invalidOperand)) ∧
    (s.zcd.init = true → n ≠ 0 → hi < lo → exec (.syncFind lo hi n) s = .next (s.faultedWith .malformedBand)) ∧
    (s.zcd.init = true → n ≠ 0 → lo ≤ hi →
      (∀ (skipped run : List ℚ) (y : ℚ) (u : State), Delivers (skipped ++ run ++ [y]) s u →
        NoRun lo hi n skipped → (∀ v, skipped.getLast? = some v → inBand v lo hi = false) →
        (∀ v ∈ run, inBand v lo hi = true) → n ≤ run.length → inBand y lo hi = false →
        exec (.syncFind lo hi n) s = .next { u with
          zcd := { u.zcd with replay := true }
          responses := s.responses ++ [.bool true] }) ∧
      (∀ (skipped run : List ℚ) (u w : State), Delivers (skipped ++ run) s u → zcdNext u = .ok none w →
        NoRun lo hi n skipped → (∀ v, skipped.getLast? = some v → inBand v lo hi = false) →
        (∀ v ∈ run, inBand v lo hi = true) → n ≤ run.length →
        exec (.syncFind lo hi n) s = .next { w with responses := s.responses ++ [.bool true] }) ∧
      (∀ (vs : List ℚ) (u w : State), Delivers vs s u → zcdNext u = .ok none w → NoRun lo hi n vs →
        exec (.syncFind lo hi n) s = .next { w with responses := s.responses ++ [.bool false] }) ∧
      (∀ (vs : List ℚ) (u : State) (c : FaultCode), Delivers vs s u → zcdNext u = .raise c →
        (∀ before run y after, vs = before ++ run ++ y :: after → run.length = n →
          (∀ v ∈ run, inBand v lo hi = true) → inBand y lo hi = true) →
        exec (.syncFind lo hi n) s = .next (s.faultedWith c)))

/-- 43_sync_detector.md R175, R176, R177: `SYNC.DFIND` restarts at each value that deviates from a short run, and
succeeds with the average of the last `n` values of the first run of at least `n`, the value that ended it rewound; the
boundary is inclusive (R179). -/
def Obligations.SyncDfindStopsAfterTheFirstSteadyRun : Prop :=
  ∀ (s : State) (n : ℕ) (d : ℚ), s.fault = .none →
    (s.zcd.init = false → exec (.syncDfind n d) s = .next (s.faultedWith .notInitialized)) ∧
    (s.zcd.init = true → (n = 0 ∨ d < 0) → exec (.syncDfind n d) s = .next (s.faultedWith .invalidOperand)) ∧
    (s.Inv → s.zcd.init = true → n ≠ 0 → 0 ≤ d →
      (∀ (skipped run : List ℚ) (v y : ℚ) (u : State), Delivers (skipped ++ v :: run ++ [y]) s u →
        Restarts n d skipped v → Steady n d (v :: run) → n ≤ (v :: run).length → Deviates n d (v :: run) y →
        exec (.syncDfind n d) s = .next { u with
          zcd := { u.zcd with replay := true }
          responses := s.responses ++ [.freq ((lastN n (v :: run)).sum / n)] }) ∧
      (∀ (skipped run : List ℚ) (v : ℚ) (u w : State), Delivers (skipped ++ v :: run) s u →
        zcdNext u = .ok none w → Restarts n d skipped v → Steady n d (v :: run) →
        exec (.syncDfind n d) s = .next { w with
          responses := s.responses ++
            [if n ≤ (v :: run).length then .freq ((lastN n (v :: run)).sum / n) else .undefined] }) ∧
      (∀ w : State, zcdNext s = .ok none w →
        exec (.syncDfind n d) s = .next { w with responses := s.responses ++ [.undefined] }) ∧
      (∀ (skipped run : List ℚ) (v : ℚ) (u : State) (c : FaultCode), Delivers (skipped ++ v :: run) s u →
        zcdNext u = .raise c → Restarts n d skipped v → Steady n d (v :: run) →
        exec (.syncDfind n d) s = .next (s.faultedWith c)) ∧
      (∀ c : FaultCode, zcdNext s = .raise c → exec (.syncDfind n d) s = .next (s.faultedWith c)))

/-- 43_sync_detector.md R173, R176: neither finder raises a rewind fault, from any state. -/
def Obligations.FindersNeverRaiseARewindFault : Prop :=
  ∀ (s t : State), s.fault = .none →
    ((∃ lo hi n, exec (.syncFind lo hi n) s = .next t) ∨ (∃ n d, exec (.syncDfind n d) s = .next t)) →
    t.fault ≠ .doubleRewind ∧ t.fault ≠ .rewindWithoutValue ∧ t.fault ≠ .rewindAfterEnd

/-- 43_sync_detector.md R174, R178, 70_reset_and_hazards.md R245: a finder that did not fault leaves either a replay of
the value that ended the run, after which a host's rewind is a double rewind, or the detector at its end. -/
def Obligations.FindersLeaveAReplayOrTheEnd : Prop :=
  ∀ (s t : State), s.Inv → s.fault = .none →
    ((∃ lo hi n, exec (.syncFind lo hi n) s = .next t) ∨ (∃ n d, exec (.syncDfind n d) s = .next t)) →
    t.fault = .none →
    (t.zcd.replay = true →
      (t.responses = s.responses ++ [.bool true] ∨ ∃ q, t.responses = s.responses ++ [.freq q]) ∧
      exec .zcdRewind t = .next (t.faultedWith .doubleRewind) ∧
      ∃ y p, t.zcd.last = some (y, p) ∧ exec .zcdNext t = .next { t with
        zcd := { t.zcd with replay := false }
        responses := t.responses ++ [.halfPeriod y] }) ∧
    (t.zcd.replay = false →
      t.srcIndex = t.params.srcSamples.length ∧ t.zcd.runLen = 0 ∧ t.zcd.lastWasEnd = true ∧
      exec .zcdNext t = .next { t with responses := t.responses ++ [.endOfStream] }) ∧
    (t.responses = s.responses ++ [.bool false] ∨ t.responses = s.responses ++ [.undefined] →
      t.zcd.replay = false)

/-- 43_sync_detector.md R174, R178, 70_reset_and_hazards.md R248: after a finder that did not fault, `ZCD.POS` answers
the Position the detector had after the run's last value: for `SYNC.FIND` and for `SYNC.DFIND` where a value ended the
run and was rewound, and for `SYNC.FIND` where the stream ended first (found or not, the last value read). -/
def Obligations.PositionAfterAFindIsTheRunsLast : Prop :=
  ∀ (s u w : State) (n : ℕ), s.Inv → s.fault = .none → s.zcd.init = true → n ≠ 0 →
    (∀ (lo hi y : ℚ) (skipped run : List ℚ), lo ≤ hi → Delivers (skipped ++ run) s u → zcdNext u = .ok (some y) w →
      NoRun lo hi n skipped → (∀ v, skipped.getLast? = some v → inBand v lo hi = false) →
      (∀ v ∈ run, inBand v lo hi = true) → n ≤ run.length → inBand y lo hi = false →
      ∃ t, exec (.syncFind lo hi n) s = .next t ∧ exec .zcdPos t = .next { t with
        responses := s.responses ++ [.bool true, .pos ⟨u.zcd.curPos.samples,
          (u.zcd.curPos.samples : ℚ) / s.params.srcSampleRate⟩] }) ∧
    (∀ (lo hi : ℚ) (vs : List ℚ), lo ≤ hi → Delivers vs s u → zcdNext u = .ok none w →
      (∀ before run y after, vs = before ++ run ++ y :: after → run.length = n →
        (∀ v ∈ run, inBand v lo hi = true) → inBand y lo hi = true) →
      ∃ t b, exec (.syncFind lo hi n) s = .next t ∧ exec .zcdPos t = .next { t with
        responses := s.responses ++ [.bool b, .pos ⟨u.zcd.curPos.samples,
          (u.zcd.curPos.samples : ℚ) / s.params.srcSampleRate⟩] }) ∧
    (∀ (d v y : ℚ) (skipped run : List ℚ), 0 ≤ d → Delivers (skipped ++ v :: run) s u →
      zcdNext u = .ok (some y) w → Restarts n d skipped v → Steady n d (v :: run) → n ≤ (v :: run).length →
      Deviates n d (v :: run) y →
      ∃ t, exec (.syncDfind n d) s = .next t ∧ exec .zcdPos t = .next { t with
        responses := s.responses ++ [.freq ((lastN n (v :: run)).sum / n), .pos ⟨u.zcd.curPos.samples,
          (u.zcd.curPos.samples : ℚ) / s.params.srcSampleRate⟩] })

/-! ## The Frequency Classifier -/

/-- 44_classifier.md R190, R191: `FCLS.IS` tests a closed band. -/
def Obligations.IsTestsTheClosedBand : Prop :=
  ∀ (s : State) (value lo hi : ℚ), s.fault = .none →
    (lo ≤ hi → exec (.fclsIs value lo hi) s =
      .next { s with responses := s.responses ++ [.bool (decide (lo ≤ value ∧ value ≤ hi))] }) ∧
    (hi < lo → exec (.fclsIs value lo hi) s = .next (s.faultedWith .malformedBand))

/-- 44_classifier.md R192: `FCLS.OSCIS` tests the arithmetic mean. -/
def Obligations.OscisTestsTheMean : Prop :=
  ∀ (s : State) (h1 h2 lo hi : ℚ), s.fault = .none →
    (lo ≤ hi → exec (.fclsOscis h1 h2 lo hi) s =
      .next { s with responses := s.responses ++ [.bool (decide (lo ≤ (h1 + h2) / 2 ∧ (h1 + h2) / 2 ≤ hi))] }) ∧
    (hi < lo → exec (.fclsOscis h1 h2 lo hi) s = .next (s.faultedWith .malformedBand))

/-- 44_classifier.md R193: `FCLS.BIT` answers the bit of the band a value lies in, `Undefined` in neither, and faults on
bands that are malformed or share a point. -/
def Obligations.BitAnswersTheBandOfTheValue : Prop :=
  ∀ (s : State) (value zeroLo zeroHi oneLo oneHi : ℚ), s.fault = .none →
    (zeroLo ≤ zeroHi → oneLo ≤ oneHi →
      (¬ ∃ x, (zeroLo ≤ x ∧ x ≤ zeroHi) ∧ (oneLo ≤ x ∧ x ≤ oneHi)) →
      (oneLo ≤ value ∧ value ≤ oneHi → exec (.fclsBit value zeroLo zeroHi oneLo oneHi) s =
        .next { s with responses := s.responses ++ [.tri .true] }) ∧
      (zeroLo ≤ value ∧ value ≤ zeroHi → exec (.fclsBit value zeroLo zeroHi oneLo oneHi) s =
        .next { s with responses := s.responses ++ [.tri .false] }) ∧
      (¬ (oneLo ≤ value ∧ value ≤ oneHi) → ¬ (zeroLo ≤ value ∧ value ≤ zeroHi) →
        exec (.fclsBit value zeroLo zeroHi oneLo oneHi) s =
          .next { s with responses := s.responses ++ [.tri .undefined] })) ∧
    ((zeroHi < zeroLo ∨ oneHi < oneLo ∨ ∃ x, (zeroLo ≤ x ∧ x ≤ zeroHi) ∧ (oneLo ≤ x ∧ x ≤ oneHi)) →
      exec (.fclsBit value zeroLo zeroHi oneLo oneHi) s = .next (s.faultedWith .malformedBand))

/-- 44_classifier.md R194: a classifier command's response depends on its operands alone, and it changes no state on
success. -/
def Obligations.ClassifierIsPure : Prop :=
  ∀ (i : Instr) (s1 s2 t1 t2 : State), isFcls i = true → s1.fault = .none → s2.fault = .none →
    exec i s1 = .next t1 → exec i s2 = .next t2 →
    t1.fault = t2.fault ∧ ∃ r, t1 = { s1 with fault := t1.fault, responses := s1.responses ++ [r] } ∧
      t2 = { s2 with fault := t2.fault, responses := s2.responses ++ [r] }
end

