-- ==== Sys2Proof/Laws/Decode.lean ====
section
/-! SUPPORT. The fields of a command word and the word of its fields. -/

namespace Sys2Proof

theorem unitField_wordOf : ∀ (u : BitVec 3) (o : BitVec 5), unitField (wordOf u o) = u.toNat := by decide

theorem opField_wordOf : ∀ (u : BitVec 3) (o : BitVec 5), opField (wordOf u o) = o.toNat := by decide

/-- A word is the word of its two fields: no bit is dropped. -/
theorem wordOf_fields : ∀ w : Word, wordOf (BitVec.ofNat 3 (unitField w)) (BitVec.ofNat 5 (opField w)) = w := by
  decide

/-- Every word with a signature is a row of the map. -/
theorem mem_commandMap_of_signature : ∀ w : Word, ∀ ks ∈ signature w, (w, ks) ∈ commandMap := by decide

end Sys2Proof
end

