-- ==== Sys2Proof/Laws/Operands.lean ====
section
/-! SUPPORT. The laws of the pure operations: exact quotients, floors, bands, fault numbers. -/

namespace Sys2Proof.Machine

theorem quot_of_ne {a b : ℚ} (h : b ≠ 0) : quot a b = a / b := if_neg h

theorem quot_pos {a b : ℚ} (ha : 0 < a) (hb : 0 < b) : 0 < quot a b := by
  rw [quot_of_ne hb.ne']; exact div_pos ha hb

/-- The half-samples of a frequency, by the bounds of the floor. -/
theorem halfSamples_eq_iff {rate : ℕ} {f : ℚ} (hf : 0 < f) (n : ℕ) :
    halfSamples rate f = n ↔ (n : ℚ) ≤ rate / (2 * f) ∧ (rate : ℚ) / (2 * f) < n + 1 := by
  have h : (rate : ℚ) / f / 2 = rate / (2 * f) := by rw [div_div, mul_comm]
  rw [halfSamples, h]
  exact Nat.floor_eq_iff (by positivity)

/-- The window length, by the bounds of rounding half up. -/
theorem windowLength_eq_iff {rate : ℕ} {cutoff : ℚ} (hc : 0 < cutoff) (W : ℕ) :
    windowLength rate cutoff = W ↔
      (W : ℚ) - 1 / 2 ≤ rate / cutoff ∧ (rate : ℚ) / cutoff < W + 1 / 2 := by
  rw [windowLength, roundHalfUp, Nat.floor_eq_iff (by positivity)]
  constructor <;> rintro ⟨h1, h2⟩ <;> constructor <;> linarith

@[simp] theorem cycleCount_natCast (n : ℕ) : cycleCount (n : ℚ) = n := by
  simp [cycleCount]

theorem inBand_iff {v lo hi : ℚ} : inBand v lo hi = true ↔ lo ≤ v ∧ v ≤ hi := by
  simp [inBand]

theorem sampleInRange_iff {p : Params} {x : ℤ} :
    sampleInRange p x = true ↔ 0 ≤ x ∧ x ≤ 2 ^ p.srcBitsPerSample - 1 := by
  simp [sampleInRange]

theorem sourceFormatOk_iff {p : Params} :
    sourceFormatOk p = true ↔
      p.srcSampleRate ≠ 0 ∧ (p.srcBitsPerSample = 8 ∨ p.srcBitsPerSample = 16 ∨ p.srcBitsPerSample = 32) := by
  simp [sourceFormatOk, or_assoc]

theorem halfPeriodOf_eq {p : Params} {len : ℕ} (hl : len ≠ 0) :
    halfPeriodOf p len = p.srcSampleRate / (2 * len) := by
  rw [halfPeriodOf, quot_of_ne]; positivity

theorem halfPeriodOf_pos {p : Params} {len : ℕ} (hp : p.srcSampleRate ≠ 0) (hl : len ≠ 0) :
    0 < halfPeriodOf p len := by
  rw [halfPeriodOf_eq hl]; positivity

@[simp] theorem posOf_samples (p : Params) (n : ℕ) : (posOf p n).samples = n := rfl

theorem posOf_seconds {p : Params} (hp : p.srcSampleRate ≠ 0) (n : ℕ) :
    (posOf p n).seconds = n / p.srcSampleRate :=
  quot_of_ne (by exact_mod_cast hp)

@[simp] theorem invert_invert (ph : Phase) : invert (invert ph) = ph := by cases ph <;> rfl

theorem invert_ne (ph : Phase) : invert ph ≠ ph := by cases ph <;> decide

theorem FaultCode.number_injective : Function.Injective FaultCode.number := by
  intro a b; cases a <;> cases b <;> decide

theorem polarity_above {p : Params} {q : ℚ} (h : threshold p < q) (cur : Bool) : polarity p q cur = true := by
  simp [polarity, h]

theorem polarity_below {p : Params} {q : ℚ} (h : q < threshold p) (cur : Bool) : polarity p q cur = false := by
  simp [polarity, h, h.le.not_gt]

theorem threshold_eq {p : Params} (h : p.srcBitsPerSample ≠ 0) : threshold p = 2 ^ (p.srcBitsPerSample - 1) := by
  obtain ⟨k, hk⟩ := Nat.exists_eq_succ_of_ne_zero h
  simp [threshold, hk, pow_succ]

end Sys2Proof.Machine
end

