-- ==== Sys2Proof/Laws/State.lean ====
section
/-! SUPPORT. One lemma per field per state update, and the laws of updates over each other, so that no later proof
unfolds a record update. -/

namespace Sys2Proof.Machine

variable (s : State)

@[simp] theorem State.setSrcIndex_params (n : ℕ) : (s.setSrcIndex n).params = s.params := rfl
@[simp] theorem State.setSrcIndex_srcIndex (n : ℕ) : (s.setSrcIndex n).srcIndex = n := rfl
@[simp] theorem State.setSrcIndex_osc (n : ℕ) : (s.setSrcIndex n).osc = s.osc := rfl
@[simp] theorem State.setSrcIndex_lpf (n : ℕ) : (s.setSrcIndex n).lpf = s.lpf := rfl
@[simp] theorem State.setSrcIndex_zcd (n : ℕ) : (s.setSrcIndex n).zcd = s.zcd := rfl
@[simp] theorem State.setSrcIndex_fault (n : ℕ) : (s.setSrcIndex n).fault = s.fault := rfl
@[simp] theorem State.setSrcIndex_pending (n : ℕ) : (s.setSrcIndex n).pending = s.pending := rfl
@[simp] theorem State.setSrcIndex_responses (n : ℕ) : (s.setSrcIndex n).responses = s.responses := rfl

@[simp] theorem State.setOsc_params (o : Osc) : (s.setOsc o).params = s.params := rfl
@[simp] theorem State.setOsc_srcIndex (o : Osc) : (s.setOsc o).srcIndex = s.srcIndex := rfl
@[simp] theorem State.setOsc_osc (o : Osc) : (s.setOsc o).osc = o := rfl
@[simp] theorem State.setOsc_lpf (o : Osc) : (s.setOsc o).lpf = s.lpf := rfl
@[simp] theorem State.setOsc_zcd (o : Osc) : (s.setOsc o).zcd = s.zcd := rfl
@[simp] theorem State.setOsc_fault (o : Osc) : (s.setOsc o).fault = s.fault := rfl
@[simp] theorem State.setOsc_pending (o : Osc) : (s.setOsc o).pending = s.pending := rfl
@[simp] theorem State.setOsc_responses (o : Osc) : (s.setOsc o).responses = s.responses := rfl

@[simp] theorem State.setLpf_params (l : Lpf) : (s.setLpf l).params = s.params := rfl
@[simp] theorem State.setLpf_srcIndex (l : Lpf) : (s.setLpf l).srcIndex = s.srcIndex := rfl
@[simp] theorem State.setLpf_osc (l : Lpf) : (s.setLpf l).osc = s.osc := rfl
@[simp] theorem State.setLpf_lpf (l : Lpf) : (s.setLpf l).lpf = l := rfl
@[simp] theorem State.setLpf_zcd (l : Lpf) : (s.setLpf l).zcd = s.zcd := rfl
@[simp] theorem State.setLpf_fault (l : Lpf) : (s.setLpf l).fault = s.fault := rfl
@[simp] theorem State.setLpf_pending (l : Lpf) : (s.setLpf l).pending = s.pending := rfl
@[simp] theorem State.setLpf_responses (l : Lpf) : (s.setLpf l).responses = s.responses := rfl

@[simp] theorem State.setZcd_params (z : Zcd) : (s.setZcd z).params = s.params := rfl
@[simp] theorem State.setZcd_srcIndex (z : Zcd) : (s.setZcd z).srcIndex = s.srcIndex := rfl
@[simp] theorem State.setZcd_osc (z : Zcd) : (s.setZcd z).osc = s.osc := rfl
@[simp] theorem State.setZcd_lpf (z : Zcd) : (s.setZcd z).lpf = s.lpf := rfl
@[simp] theorem State.setZcd_zcd (z : Zcd) : (s.setZcd z).zcd = z := rfl
@[simp] theorem State.setZcd_fault (z : Zcd) : (s.setZcd z).fault = s.fault := rfl
@[simp] theorem State.setZcd_pending (z : Zcd) : (s.setZcd z).pending = s.pending := rfl
@[simp] theorem State.setZcd_responses (z : Zcd) : (s.setZcd z).responses = s.responses := rfl

@[simp] theorem State.setFault_params (c : FaultCode) : (s.setFault c).params = s.params := rfl
@[simp] theorem State.setFault_srcIndex (c : FaultCode) : (s.setFault c).srcIndex = s.srcIndex := rfl
@[simp] theorem State.setFault_osc (c : FaultCode) : (s.setFault c).osc = s.osc := rfl
@[simp] theorem State.setFault_lpf (c : FaultCode) : (s.setFault c).lpf = s.lpf := rfl
@[simp] theorem State.setFault_zcd (c : FaultCode) : (s.setFault c).zcd = s.zcd := rfl
@[simp] theorem State.setFault_fault (c : FaultCode) : (s.setFault c).fault = c := rfl
@[simp] theorem State.setFault_pending (c : FaultCode) : (s.setFault c).pending = s.pending := rfl
@[simp] theorem State.setFault_responses (c : FaultCode) : (s.setFault c).responses = s.responses := rfl

@[simp] theorem State.setPending_params (es : List HostEvent) : (s.setPending es).params = s.params := rfl
@[simp] theorem State.setPending_srcIndex (es : List HostEvent) : (s.setPending es).srcIndex = s.srcIndex := rfl
@[simp] theorem State.setPending_osc (es : List HostEvent) : (s.setPending es).osc = s.osc := rfl
@[simp] theorem State.setPending_lpf (es : List HostEvent) : (s.setPending es).lpf = s.lpf := rfl
@[simp] theorem State.setPending_zcd (es : List HostEvent) : (s.setPending es).zcd = s.zcd := rfl
@[simp] theorem State.setPending_fault (es : List HostEvent) : (s.setPending es).fault = s.fault := rfl
@[simp] theorem State.setPending_pending (es : List HostEvent) : (s.setPending es).pending = es := rfl
@[simp] theorem State.setPending_responses (es : List HostEvent) : (s.setPending es).responses = s.responses := rfl

@[simp] theorem State.respond_params (r : Response) : (s.respond r).params = s.params := rfl
@[simp] theorem State.respond_srcIndex (r : Response) : (s.respond r).srcIndex = s.srcIndex := rfl
@[simp] theorem State.respond_osc (r : Response) : (s.respond r).osc = s.osc := rfl
@[simp] theorem State.respond_lpf (r : Response) : (s.respond r).lpf = s.lpf := rfl
@[simp] theorem State.respond_zcd (r : Response) : (s.respond r).zcd = s.zcd := rfl
@[simp] theorem State.respond_fault (r : Response) : (s.respond r).fault = s.fault := rfl
@[simp] theorem State.respond_pending (r : Response) : (s.respond r).pending = s.pending := rfl
@[simp] theorem State.respond_responses (r : Response) : (s.respond r).responses = s.responses ++ [r] := rfl

@[simp] theorem State.emit_params (sym : Symbol) (n : ℕ) : (s.emit sym n).params = s.params := rfl
@[simp] theorem State.emit_srcIndex (sym : Symbol) (n : ℕ) : (s.emit sym n).srcIndex = s.srcIndex := rfl
@[simp] theorem State.emit_osc (sym : Symbol) (n : ℕ) : (s.emit sym n).osc = { s.osc with out := s.osc.out ++ List.replicate n sym } := rfl
@[simp] theorem State.emit_lpf (sym : Symbol) (n : ℕ) : (s.emit sym n).lpf = s.lpf := rfl
@[simp] theorem State.emit_zcd (sym : Symbol) (n : ℕ) : (s.emit sym n).zcd = s.zcd := rfl
@[simp] theorem State.emit_fault (sym : Symbol) (n : ℕ) : (s.emit sym n).fault = s.fault := rfl
@[simp] theorem State.emit_pending (sym : Symbol) (n : ℕ) : (s.emit sym n).pending = s.pending := rfl
@[simp] theorem State.emit_responses (sym : Symbol) (n : ℕ) : (s.emit sym n).responses = s.responses := rfl

@[simp] theorem State.enterFault_params (c : FaultCode) : (s.enterFault c).params = s.params := rfl
@[simp] theorem State.enterFault_srcIndex (c : FaultCode) : (s.enterFault c).srcIndex = s.srcIndex := rfl
@[simp] theorem State.enterFault_osc (c : FaultCode) : (s.enterFault c).osc = s.osc := rfl
@[simp] theorem State.enterFault_lpf (c : FaultCode) : (s.enterFault c).lpf = s.lpf := rfl
@[simp] theorem State.enterFault_zcd (c : FaultCode) : (s.enterFault c).zcd = s.zcd := rfl
@[simp] theorem State.enterFault_fault (c : FaultCode) : (s.enterFault c).fault = if s.fault = .none then c else s.fault := rfl
@[simp] theorem State.enterFault_pending (c : FaultCode) : (s.enterFault c).pending = s.pending := rfl
@[simp] theorem State.enterFault_responses (c : FaultCode) : (s.enterFault c).responses = s.responses ++ [.fault c] := rfl

@[simp] theorem State.refuse_params : s.refuse.params = s.params := rfl
@[simp] theorem State.refuse_srcIndex : s.refuse.srcIndex = s.srcIndex := rfl
@[simp] theorem State.refuse_osc : s.refuse.osc = s.osc := rfl
@[simp] theorem State.refuse_lpf : s.refuse.lpf = s.lpf := rfl
@[simp] theorem State.refuse_zcd : s.refuse.zcd = s.zcd := rfl
@[simp] theorem State.refuse_fault : s.refuse.fault = s.fault := rfl
@[simp] theorem State.refuse_pending : s.refuse.pending = s.pending := rfl
@[simp] theorem State.refuse_responses : s.refuse.responses = s.responses ++ [.refused s.fault] := rfl

@[simp] theorem State.applyReset_params : s.applyReset.params = s.params := rfl
@[simp] theorem State.applyReset_srcIndex : s.applyReset.srcIndex = 0 := rfl
@[simp] theorem State.applyReset_osc : s.applyReset.osc = ⟨s.params.oscInitialPhase, []⟩ := rfl
@[simp] theorem State.applyReset_lpf : s.applyReset.lpf = Lpf.reset := rfl
@[simp] theorem State.applyReset_zcd : s.applyReset.zcd = Zcd.reset := rfl
@[simp] theorem State.applyReset_fault : s.applyReset.fault = .none := rfl
@[simp] theorem State.applyReset_pending : s.applyReset.pending = s.pending := rfl
@[simp] theorem State.applyReset_responses : s.applyReset.responses = [] := rfl

@[simp] theorem State.setOsc_self : s.setOsc s.osc = s := rfl
@[simp] theorem State.setLpf_self : s.setLpf s.lpf = s := rfl
@[simp] theorem State.setZcd_self : s.setZcd s.zcd = s := rfl
@[simp] theorem State.setFault_self : s.setFault s.fault = s := rfl
@[simp] theorem State.setZcd_setZcd (z z' : Zcd) : (s.setZcd z).setZcd z' = s.setZcd z' := rfl
@[simp] theorem State.setOsc_setOsc (o o' : Osc) : (s.setOsc o).setOsc o' = s.setOsc o' := rfl
@[simp] theorem State.setLpf_setLpf (l l' : Lpf) : (s.setLpf l).setLpf l' = s.setLpf l' := rfl

/-- Two states with the same fields are the same. -/
theorem State.ext_fields {s t : State} (h1 : s.params = t.params) (h2 : s.srcIndex = t.srcIndex) (h3 : s.osc = t.osc)
    (h4 : s.lpf = t.lpf) (h5 : s.zcd = t.zcd) (h6 : s.fault = t.fault) (h7 : s.pending = t.pending)
    (h8 : s.responses = t.responses) : s = t := by
  cases s; cases t; simp_all

end Sys2Proof.Machine
end

