-- ==== Sys2Proof/Laws/Ops.lean ====
section
/-! SUPPORT. What each shared operation can do, said once: an outcome law or an inversion law per operation, which later
proofs cite instead of unfolding it. -/

namespace Sys2Proof.Machine

/-! ## Commands -/

@[simp] theorem conclude_ok (s t : State) (r : Response) : s.conclude (.ok r t) = t.respond r := rfl
@[simp] theorem conclude_raise (s : State) (c : FaultCode) : s.conclude (.raise c) = s.enterFault c := rfl
@[simp] theorem Res.map_ok {α β : Type} (f : α → β) (a : α) (s : State) : (Res.ok a s).map f = .ok (f a) s := rfl
@[simp] theorem Res.map_raise {α β : Type} (f : α → β) (c : FaultCode) : (Res.raise c : Res α).map f = .raise c := rfl

theorem Res.map_eq_ok {α β : Type} {f : α → β} {r : Res α} {b : β} {s : State} :
    r.map f = .ok b s ↔ ∃ a, r = .ok a s ∧ f a = b := by
  cases r <;> simp [and_comm]

theorem command_of_none {s : State} (h : s.fault = .none) (body : State → Res Response) :
    command s body = .next (s.conclude (body s)) := by
  simp [command, h]

theorem command_of_ne {s : State} (h : s.fault ≠ .none) (body : State → Res Response) :
    command s body = .next s.refuse := by
  simp [command, h]

/-- The three ways a command that started with no fault ends. -/
theorem command_cases {s t : State} {body : State → Res Response} (h : command s body = .next t)
    (hs : s.fault = .none) :
    (∃ r u, body s = .ok r u ∧ t = u.respond r) ∨ (∃ c, body s = .raise c ∧ t = s.enterFault c) := by
  rw [command_of_none hs] at h
  cases hb : body s with
  | ok r u => rw [hb] at h; exact .inl ⟨r, u, rfl, by simpa using h.symm⟩
  | raise c => rw [hb] at h; exact .inr ⟨c, rfl, by simpa using h.symm⟩

/-! ## The Oscillator -/

/-- Everything one half-oscillation does (40_oscillator.md R103). -/
theorem State.halfOscillation_eq (s : State) (n : ℕ) :
    s.halfOscillation n =
      s.setOsc ⟨invert s.osc.phase, s.osc.out ++ List.replicate n (phaseSymbol s.osc.phase)⟩ := rfl

/-- Everything `count` full cycles do (40_oscillator.md R104). -/
theorem State.cycles_eq (n count : ℕ) (s : State) :
    State.cycles n count s = s.setOsc ⟨s.osc.phase, s.osc.out ++ cycleSymbols s.osc.phase n count⟩ := by
  induction count generalizing s with
  | zero => simp [State.cycles, cycleSymbols]; rfl
  | succ count ih =>
    rw [State.cycles, ih]
    simp [State.halfOscillation_eq, cycleSymbols, List.replicate_succ]

/-! ## The input port -/

theorem readRaw_end {s : State} (h : s.params.srcSamples[s.srcIndex]? = none) : readRaw s = .ok none s := by
  simp [readRaw, h]

theorem readRaw_sample {s : State} {x : ℤ} (h : s.params.srcSamples[s.srcIndex]? = some x)
    (hx : sampleInRange s.params x = true) : readRaw s = .ok (some x) (s.setSrcIndex (s.srcIndex + 1)) := by
  simp [readRaw, h, hx]

theorem readRaw_outOfRange {s : State} {x : ℤ} (h : s.params.srcSamples[s.srcIndex]? = some x)
    (hx : sampleInRange s.params x = false) : readRaw s = .raise .sampleOutOfRange := by
  simp [readRaw, h, hx]

/-! ## The detector's stream -/

/-- The stream value the detector reads where the input sample is `x`. -/
def State.streamValue (s : State) (x : ℤ) : ℚ :=
  match s.zcd.sel with
  | .raw => x
  | .lpf => (s.lpf.push x).output

@[simp] theorem State.taken_params (s : State) (n : ℕ) : (s.taken n).params = s.params := rfl
@[simp] theorem State.taken_srcIndex (s : State) (n : ℕ) : (s.taken n).srcIndex = s.srcIndex + n := rfl
@[simp] theorem State.taken_osc (s : State) (n : ℕ) : (s.taken n).osc = s.osc := rfl
@[simp] theorem State.taken_zcd (s : State) (n : ℕ) : (s.taken n).zcd = s.zcd := rfl
@[simp] theorem State.taken_fault (s : State) (n : ℕ) : (s.taken n).fault = s.fault := rfl
@[simp] theorem State.taken_pending (s : State) (n : ℕ) : (s.taken n).pending = s.pending := rfl
@[simp] theorem State.taken_responses (s : State) (n : ℕ) : (s.taken n).responses = s.responses := rfl

@[simp] theorem State.taken_zero (s : State) : s.taken 0 = s := by
  cases s with | mk p i o l z f e r => cases h : z.sel <;> simp [State.taken, Lpf.pushAll, h]

theorem State.taken_lpf_of_raw {s : State} (h : s.zcd.sel = .raw) (n : ℕ) : (s.taken n).lpf = s.lpf := by
  simp [State.taken, h]

theorem State.taken_lpf_of_lpf {s : State} (h : s.zcd.sel = .lpf) (n : ℕ) :
    (s.taken n).lpf = s.lpf.pushAll ((s.params.srcSamples.drop s.srcIndex).take n) := by
  simp [State.taken, h]

/-- Taking one value slides the filter by the input sample, if the detector reads the filter. -/
theorem State.taken_one_lpf {s : State} {x : ℤ} (h : s.params.srcSamples[s.srcIndex]? = some x) :
    (s.taken 1).lpf = match s.zcd.sel with | .raw => s.lpf | .lpf => s.lpf.push x := by
  obtain ⟨hlt, hx⟩ := List.getElem?_eq_some_iff.1 h
  cases hs : s.zcd.sel with
  | raw => rw [State.taken_lpf_of_raw hs]
  | lpf =>
    rw [State.taken_lpf_of_lpf hs, List.drop_eq_getElem_cons hlt, hx]
    simp [Lpf.pushAll]

theorem State.taken_add (s : State) (m n : ℕ) :
    (s.taken m).taken n = s.taken (m + n) := by
  refine State.ext_fields rfl (by simp [Nat.add_assoc]) rfl ?_ rfl rfl rfl rfl
  cases hs : s.zcd.sel with
  | raw =>
    rw [State.taken_lpf_of_raw (by simpa using hs), State.taken_lpf_of_raw hs, State.taken_lpf_of_raw hs]
  | lpf =>
    rw [State.taken_lpf_of_lpf (by simpa using hs), State.taken_lpf_of_lpf hs, State.taken_lpf_of_lpf hs]
    simp only [Lpf.pushAll, State.taken_params, State.taken_srcIndex, ← List.foldl_append]
    rw [← List.drop_drop, List.take_add]

/-- `ReadZ` at the end of the input. -/
theorem readZ_end {s : State} (h : s.params.srcSamples[s.srcIndex]? = none) : readZ s = .ok none s := by
  cases hs : s.zcd.sel <;> simp [readZ, readLpf, hs, readRaw_end h]

/-- `ReadZ` of a sample in range. -/
theorem readZ_sample {s : State} {x : ℤ} (h : s.params.srcSamples[s.srcIndex]? = some x)
    (hx : sampleInRange s.params x = true) : readZ s = .ok (some (s.streamValue x)) (s.taken 1) := by
  have hl := State.taken_one_lpf h
  cases hs : s.zcd.sel with
  | raw =>
    have : s.taken 1 = s.setSrcIndex (s.srcIndex + 1) :=
      State.ext_fields rfl rfl rfl (by simpa [hs] using hl) rfl rfl rfl rfl
    simp [readZ, hs, readRaw_sample h hx, State.streamValue, this]
  | lpf =>
    have : s.taken 1 = (s.setSrcIndex (s.srcIndex + 1)).setLpf (s.lpf.push x) :=
      State.ext_fields rfl rfl rfl (by simpa [hs] using hl) rfl rfl rfl rfl
    simp [readZ, readLpf, hs, readRaw_sample h hx, State.streamValue, this]

/-- `ReadZ` of a sample out of range. -/
theorem readZ_outOfRange {s : State} {x : ℤ} (h : s.params.srcSamples[s.srcIndex]? = some x)
    (hx : sampleInRange s.params x = false) : readZ s = .raise .sampleOutOfRange := by
  cases hs : s.zcd.sel <;> simp [readZ, readLpf, hs, readRaw_outOfRange h hx]

/-- Everything `ReadZ` can do. -/
theorem readZ_cases (s : State) :
    (s.params.srcSamples[s.srcIndex]? = none ∧ readZ s = .ok none s) ∨
    (∃ x, s.params.srcSamples[s.srcIndex]? = some x ∧ sampleInRange s.params x = true ∧
      readZ s = .ok (some (s.streamValue x)) (s.taken 1)) ∨
    (∃ x, s.params.srcSamples[s.srcIndex]? = some x ∧ sampleInRange s.params x = false ∧
      readZ s = .raise .sampleOutOfRange) := by
  cases h : s.params.srcSamples[s.srcIndex]? with
  | none => exact .inl ⟨rfl, readZ_end h⟩
  | some x =>
    cases hx : sampleInRange s.params x with
    | true => exact .inr (.inl ⟨x, rfl, hx, readZ_sample h hx⟩)
    | false => exact .inr (.inr ⟨x, rfl, hx, readZ_outOfRange h hx⟩)

/-! ## Run extraction -/

/-- The detector with one more sample of the current run. -/
def Zcd.grow (z : Zcd) : Zcd := { z with consumed := z.consumed + 1, runLen := z.runLen + 1 }

/-- The detector after a sample of polarity `p` ended the run. -/
def Zcd.flip (z : Zcd) (p : Bool) : Zcd := { z with consumed := z.consumed + 1, positive := p, runLen := 1 }

theorem unread_eq_zero {s : State} (h : s.params.srcSamples[s.srcIndex]? = none) : s.unread = 0 := by
  have := List.getElem?_eq_none_iff.1 h
  simp [State.unread]; omega

theorem unread_pos {s : State} {x : ℤ} (h : s.params.srcSamples[s.srcIndex]? = some x) :
    s.unread = (s.taken 1).unread + 1 := by
  obtain ⟨hlt, -⟩ := List.getElem?_eq_some_iff.1 h
  simp [State.unread]; omega

@[simp] theorem unread_setZcd (s : State) (z : Zcd) : (s.setZcd z).unread = s.unread := rfl

theorem zcdProduce_end {s : State} (h : s.params.srcSamples[s.srcIndex]? = none) : zcdProduce s = flushRun s := by
  simp [zcdProduce, unread_eq_zero h, produceLoop]

/-- The loop of `ZcdProduce` on a sample that continues the run (42_zero_crossing.md R145). -/
theorem zcdProduce_grow {s : State} {x : ℤ} (h : s.params.srcSamples[s.srcIndex]? = some x)
    (hx : sampleInRange s.params x = true)
    (hp : polarity s.params (s.streamValue x) s.zcd.positive = s.zcd.positive) :
    zcdProduce s = zcdProduce ((s.taken 1).setZcd s.zcd.grow) := by
  simp [zcdProduce, unread_pos h, produceLoop, readZ_sample h hx, hp, Zcd.grow]

/-- The loop of `ZcdProduce` on a sample that ends the run (42_zero_crossing.md R145). -/
theorem zcdProduce_flip {s : State} {x : ℤ} (h : s.params.srcSamples[s.srcIndex]? = some x)
    (hx : sampleInRange s.params x = true)
    (hp : polarity s.params (s.streamValue x) s.zcd.positive ≠ s.zcd.positive) :
    zcdProduce s = .ok (some (halfPeriodOf s.params s.zcd.runLen))
      ((s.taken 1).setZcd (s.zcd.flip (polarity s.params (s.streamValue x) s.zcd.positive))) := by
  simp [zcdProduce, unread_pos h, produceLoop, readZ_sample h hx, hp, Zcd.flip]

theorem zcdProduce_outOfRange {s : State} {x : ℤ} (h : s.params.srcSamples[s.srcIndex]? = some x)
    (hx : sampleInRange s.params x = false) : zcdProduce s = .raise .sampleOutOfRange := by
  simp [zcdProduce, unread_pos h, produceLoop, readZ_outOfRange h hx]

/-- An induction over what `ZcdProduce` reads: the stream has ended, a sample is out of range, a sample ends the run, or
a sample continues it and the claim holds after it. -/
theorem produce_induction {P : State → Prop}
    (atEnd : ∀ s : State, s.params.srcSamples[s.srcIndex]? = none → P s)
    (bad : ∀ s x, s.params.srcSamples[s.srcIndex]? = some x → sampleInRange s.params x = false → P s)
    (flip : ∀ s x, s.params.srcSamples[s.srcIndex]? = some x → sampleInRange s.params x = true →
      polarity s.params (s.streamValue x) s.zcd.positive ≠ s.zcd.positive → P s)
    (grow : ∀ s x, s.params.srcSamples[s.srcIndex]? = some x → sampleInRange s.params x = true →
      polarity s.params (s.streamValue x) s.zcd.positive = s.zcd.positive →
      P ((s.taken 1).setZcd s.zcd.grow) → P s) (s : State) : P s := by
  generalize hn : s.unread = n
  induction n generalizing s with
  | zero =>
    refine atEnd s ?_
    rw [List.getElem?_eq_none_iff]
    simp [State.unread] at hn; omega
  | succ n ih =>
    cases h : s.params.srcSamples[s.srcIndex]? with
    | none => exact atEnd s h
    | some x =>
      cases hx : sampleInRange s.params x with
      | false => exact bad s x h hx
      | true =>
        by_cases hp : polarity s.params (s.streamValue x) s.zcd.positive = s.zcd.positive
        · refine grow s x h hx hp (ih _ ?_)
          have := unread_pos h
          simp; omega
        · exact flip s x h hx hp

/-- Everything `ZcdProduce` leaves alone. -/
theorem zcdProduce_frame {s t : State} {h : Option ℚ} (hr : zcdProduce s = .ok h t) :
    t.params = s.params ∧ t.osc = s.osc ∧ t.fault = s.fault ∧ t.pending = s.pending ∧ t.responses = s.responses ∧
    s.srcIndex ≤ t.srcIndex ∧ (s.zcd.sel = .raw → t.lpf = s.lpf) ∧ t.lpf.init = s.lpf.init ∧ t.lpf.W = s.lpf.W ∧
    t.zcd.init = s.zcd.init ∧ t.zcd.sel = s.zcd.sel ∧ t.zcd.initPos = s.zcd.initPos ∧ t.zcd.last = s.zcd.last ∧
    t.zcd.prevPos = s.zcd.prevPos ∧ t.zcd.replay = s.zcd.replay ∧ t.zcd.lastWasEnd = s.zcd.lastWasEnd := by
  have one {s : State} {x : ℤ} (hx : s.params.srcSamples[s.srcIndex]? = some x) :
      (s.taken 1).lpf.init = s.lpf.init ∧ (s.taken 1).lpf.W = s.lpf.W := by
    rw [State.taken_one_lpf hx]; cases s.zcd.sel <;> simp [Lpf.push]
  have flush {s t : State} {h : Option ℚ} (hr : flushRun s = .ok h t) :
      t = s.setZcd { s.zcd with runLen := 0 } ∨ t = s := by
    unfold flushRun at hr; split at hr <;> simp_all
  revert t h
  induction s using produce_induction with
  | atEnd s hs =>
    intro t h hr
    rw [zcdProduce_end hs] at hr
    obtain rfl | rfl := flush hr <;> simp
  | bad s x hs hx =>
    intro t h hr
    rw [zcdProduce_outOfRange hs hx] at hr; cases hr
  | flip s x hs hx hp =>
    intro t h hr
    rw [zcdProduce_flip hs hx hp] at hr
    simp only [Res.ok.injEq] at hr
    obtain ⟨-, rfl⟩ := hr
    exact ⟨rfl, rfl, rfl, rfl, rfl, Nat.le_succ _, fun h => State.taken_lpf_of_raw h 1, (one hs).1, (one hs).2,
      rfl, rfl, rfl, rfl, rfl, rfl, rfl⟩
  | grow s x hs hx hp ih =>
    intro t h hr
    rw [zcdProduce_grow hs hx hp] at hr
    obtain ⟨h1, h2, h3, h4, h5, h6, h7, h8, h9, h10, h11, h12, h13, h14, h15, h16⟩ := ih hr
    refine ⟨h1, h2, h3, h4, h5, Nat.le_of_succ_le h6, fun h => (h7 h).trans (State.taken_lpf_of_raw h 1),
      h8.trans (one hs).1, h9.trans (one hs).2, h10, h11, h12, h13, h14, h15, h16⟩

/-! ## Reads and rewinds of the detector -/

theorem zcdNext_replay {s : State} (h : s.zcd.replay = true) :
    zcdNext s = .ok (some s.zcd.replayValue) (s.setZcd { s.zcd with replay := false, lastWasEnd := false }) := by
  simp [zcdNext, h]

theorem zcdNext_produce {s t : State} {h : ℚ} (hr : s.zcd.replay = false) (hp : zcdProduce s = .ok (some h) t) :
    zcdNext s = .ok (some h) (t.deliver h) := by
  simp [zcdNext, hr, hp]

theorem zcdNext_end {s t : State} (hr : s.zcd.replay = false) (hp : zcdProduce s = .ok none t) :
    zcdNext s = .ok none (t.setZcd { t.zcd with lastWasEnd := true }) := by
  simp [zcdNext, hr, hp]

/-- The three ways a read of the detector succeeds. -/
theorem zcdNext_cases {s t : State} {r : Option ℚ} (h : zcdNext s = .ok r t) :
    (s.zcd.replay = true ∧ r = some s.zcd.replayValue ∧
      t = s.setZcd { s.zcd with replay := false, lastWasEnd := false }) ∨
    (s.zcd.replay = false ∧ ∃ v u, zcdProduce s = .ok (some v) u ∧ r = some v ∧ t = u.deliver v) ∨
    (s.zcd.replay = false ∧ ∃ u, zcdProduce s = .ok none u ∧ r = none ∧
      t = u.setZcd { u.zcd with lastWasEnd := true }) := by
  cases hr : s.zcd.replay with
  | true => rw [zcdNext_replay hr] at h; simp_all
  | false =>
    cases hp : zcdProduce s with
    | raise c => simp [zcdNext, hr, hp] at h
    | ok v u =>
      cases v with
      | none => rw [zcdNext_end hr hp] at h; simp_all
      | some v =>
        rw [zcdNext_produce hr hp] at h
        simp only [Res.ok.injEq] at h
        obtain ⟨rfl, rfl⟩ := h
        exact .inr (.inl ⟨rfl, v, u, rfl, rfl, rfl⟩)

/-- The only fault of `ZcdProduce` (42_zero_crossing.md R145). -/
theorem zcdProduce_raise {s : State} {c : FaultCode} (h : zcdProduce s = .raise c) : c = .sampleOutOfRange := by
  induction s using produce_induction with
  | atEnd s hs =>
    rw [zcdProduce_end hs, flushRun] at h
    split at h <;> cases h
  | bad s x hs hx => rw [zcdProduce_outOfRange hs hx] at h; cases h; rfl
  | flip s x hs hx hp => rw [zcdProduce_flip hs hx hp] at h; cases h
  | grow s x hs hx hp ih => exact ih (zcdProduce_grow hs hx hp ▸ h)

/-- The only fault of a read of the detector (42_zero_crossing.md R147). -/
theorem zcdNext_raise {s : State} {c : FaultCode} (h : zcdNext s = .raise c) : c = .sampleOutOfRange := by
  cases hr : s.zcd.replay with
  | true => rw [zcdNext_replay hr] at h; cases h
  | false =>
    cases hp : zcdProduce s with
    | raise c' => simp only [zcdNext, hr, hp, Bool.false_eq_true, if_false, Res.raise.injEq] at h; exact h ▸ zcdProduce_raise hp
    | ok v u => cases v <;> simp [zcdNext, hr, hp] at h

/-- The faults of a rewind (42_zero_crossing.md R148). -/
theorem zcdRewind_raise {s : State} {c : FaultCode} (h : zcdRewind s = .raise c) :
    c = .doubleRewind ∨ c = .rewindAfterEnd ∨ c = .rewindWithoutValue := by
  unfold zcdRewind at h
  repeat' split at h
  all_goals cases h
  all_goals simp

/-- Everything a read of the detector leaves alone. -/
theorem zcdNext_frame {s t : State} {r : Option ℚ} (h : zcdNext s = .ok r t) :
    t.params = s.params ∧ t.osc = s.osc ∧ t.fault = s.fault ∧ t.pending = s.pending ∧ t.responses = s.responses ∧
    s.srcIndex ≤ t.srcIndex ∧ (s.zcd.sel = .raw → t.lpf = s.lpf) ∧ t.lpf.init = s.lpf.init ∧ t.lpf.W = s.lpf.W ∧
    t.zcd.init = s.zcd.init ∧ t.zcd.sel = s.zcd.sel ∧ t.zcd.initPos = s.zcd.initPos ∧ t.zcd.replay = false := by
  obtain ⟨-, -, rfl⟩ | ⟨hr, v, u, hp, -, rfl⟩ | ⟨hr, u, hp, -, rfl⟩ := zcdNext_cases h
  · simp
  · have := zcdProduce_frame hp; simp_all [State.deliver]
  · have := zcdProduce_frame hp; simp_all

/-- `ZcdRewind` succeeds exactly where a value can be replayed (42_zero_crossing.md R148). -/
theorem zcdRewind_ok {s : State} (h1 : s.zcd.replay = false) (h2 : s.zcd.lastWasEnd = false)
    (h3 : s.zcd.last ≠ none) : zcdRewind s = .ok () (s.setZcd { s.zcd with replay := true }) := by
  simp [zcdRewind, h1, h2, h3]

theorem zcdRewind_cases {s t : State} {u : Unit} (h : zcdRewind s = .ok u t) :
    s.zcd.replay = false ∧ s.zcd.lastWasEnd = false ∧ s.zcd.last ≠ none ∧
      t = s.setZcd { s.zcd with replay := true } := by
  unfold zcdRewind at h
  split at h
  · cases h
  · split at h
    · cases h
    · split at h
      · cases h
      · simp_all

/-! ## The finders' loops -/

/-- A bound on the half-periods the detector can still deliver (70_reset_and_hazards.md R255). -/
def deliveriesLeft (s : State) : ℕ :=
  2 * s.unread + (if s.zcd.runLen = 0 then 0 else 1) + (if s.zcd.replay then 1 else 0)

theorem deliveriesLeft_lt_syncFuel (s : State) : deliveriesLeft s < syncFuel s := by
  unfold deliveriesLeft syncFuel; split <;> split <;> omega

theorem zcdProduce_some_measure {s t : State} {v : ℚ} (hr : zcdProduce s = .ok (some v) t) :
    2 * t.unread + (if t.zcd.runLen = 0 then 0 else 1) < 2 * s.unread + (if s.zcd.runLen = 0 then 0 else 1) := by
  revert t v
  induction s using produce_induction with
  | atEnd s hs =>
    intro t v hr
    rw [zcdProduce_end hs, flushRun] at hr
    split at hr
    · cases hr
    · simp only [Res.ok.injEq] at hr
      obtain ⟨-, rfl⟩ := hr
      simp_all
  | bad s x hs hx =>
    intro t v hr
    rw [zcdProduce_outOfRange hs hx] at hr; cases hr
  | flip s x hs hx hp =>
    intro t v hr
    rw [zcdProduce_flip hs hx hp] at hr
    simp only [Res.ok.injEq] at hr
    obtain ⟨-, rfl⟩ := hr
    have := unread_pos hs
    simp [Zcd.flip]; split <;> omega
  | grow s x hs hx hp ih =>
    intro t v hr
    rw [zcdProduce_grow hs hx hp] at hr
    have h1 := ih hr
    have h2 := unread_pos hs
    simp [Zcd.grow] at h1
    split at h1 <;> split <;> omega

/-- Each delivery uses up the bound. -/
theorem zcdNext_some_measure {s t : State} {v : ℚ} (h : zcdNext s = .ok (some v) t) :
    deliveriesLeft t < deliveriesLeft s := by
  obtain ⟨hr, -, rfl⟩ | ⟨hr, w, u, hp, -, rfl⟩ | ⟨-, u, -, hn, -⟩ := zcdNext_cases h
  · simp only [deliveriesLeft, hr, unread_setZcd, State.setZcd_zcd, if_true]
    simp only [Bool.false_eq_true, if_false]
    exact Nat.lt_succ_self _
  · have h1 := zcdProduce_some_measure hp
    have h2 := (zcdProduce_frame hp).2.2.2.2.2.2.2.2.2.2.2.2.2.2.1
    simp [deliveriesLeft, State.deliver, h2, hr]
    exact h1
  · cases hn

/-- The loop of `SYNC.FIND` does not depend on its fuel, once the fuel outlasts the stream. -/
theorem findLoop_fuel {lo hi : ℚ} {n : ℕ} (f g count : ℕ) (s : State) (hf : deliveriesLeft s < f)
    (hg : deliveriesLeft s < g) : findLoop lo hi n f count s = findLoop lo hi n g count s := by
  induction f generalizing g count s with
  | zero => omega
  | succ f ih =>
    cases g with
    | zero => omega
    | succ g =>
      unfold findLoop
      cases h : zcdNext s with
      | raise c => rfl
      | ok r t =>
        cases r with
        | none => rfl
        | some v =>
          have := zcdNext_some_measure h
          simp only [ih g (count + 1) t (by omega) (by omega), ih g 0 t (by omega) (by omega)]

/-- The loop of `SYNC.DFIND` does not depend on its fuel, once the fuel outlasts the stream. -/
theorem dfindLoop_fuel {n : ℕ} {d : ℚ} (f g : ℕ) (win : List ℚ) (run : ℕ) (s : State) (hf : deliveriesLeft s < f)
    (hg : deliveriesLeft s < g) : dfindLoop n d f win run s = dfindLoop n d g win run s := by
  induction f generalizing g win run s with
  | zero => omega
  | succ f ih =>
    cases g with
    | zero => omega
    | succ g =>
      unfold dfindLoop
      cases h : zcdNext s with
      | raise c => rfl
      | ok r t =>
        cases r with
        | none => rfl
        | some v =>
          have := zcdNext_some_measure h
          simp only [ih g _ _ t (by omega) (by omega)]

/-- The loop of `SYNC.FIND` with fuel that outlasts the stream. -/
def find (lo hi : ℚ) (n count : ℕ) (s : State) : Res Bool := findLoop lo hi n (syncFuel s) count s

/-- The loop of `SYNC.DFIND` with fuel that outlasts the stream. -/
def dfind (n : ℕ) (d : ℚ) (win : List ℚ) (run : ℕ) (s : State) : Res Response :=
  dfindLoop n d (syncFuel s) win run s

/-- The rule's own loop, with no fuel (43_sync_detector.md R172). -/
theorem find_eq (lo hi : ℚ) (n count : ℕ) (s : State) :
    find lo hi n count s =
      match zcdNext s with
      | .raise c => .raise c
      | .ok none t => .ok (decide (n ≤ count)) t
      | .ok (some x) t =>
        if inBand x lo hi then find lo hi n (count + 1) t
        else if n ≤ count then (zcdRewind t).map fun _ => true
        else find lo hi n 0 t := by
  rw [find, findLoop_fuel _ (deliveriesLeft s + 1) _ _ (deliveriesLeft_lt_syncFuel s) (Nat.lt_succ_self _), findLoop]
  cases h : zcdNext s with
  | raise c => rfl
  | ok r t =>
    cases r with
    | none => rfl
    | some v =>
      have := zcdNext_some_measure h
      simp only [find, findLoop_fuel _ (syncFuel t) _ t this (deliveriesLeft_lt_syncFuel t)]

/-- The rule's own loop, with no fuel (43_sync_detector.md R176). -/
theorem dfind_eq (n : ℕ) (d : ℚ) (win : List ℚ) (run : ℕ) (s : State) :
    dfind n d win run s =
      match zcdNext s with
      | .raise c => .raise c
      | .ok none t => .ok (dfindEnd n run win) t
      | .ok (some x) t =>
        if run = 0 then dfind n d [x] 1 t
        else if d < relativeDeviation x (average win) then
          if n ≤ run then (zcdRewind t).map fun _ => .freq (average win)
          else dfind n d [x] 1 t
        else dfind n d (slide n win x) (run + 1) t := by
  rw [dfind, dfindLoop_fuel _ (deliveriesLeft s + 1) _ _ _ (deliveriesLeft_lt_syncFuel s) (Nat.lt_succ_self _),
    dfindLoop]
  cases h : zcdNext s with
  | raise c => rfl
  | ok r t =>
    cases r with
    | none => rfl
    | some v =>
      have := zcdNext_some_measure h
      simp only [dfind, dfindLoop_fuel _ (syncFuel t) _ _ t this (deliveriesLeft_lt_syncFuel t)]

end Sys2Proof.Machine
end

