-- ==== Sys2Proof/Laws/Detector.lean ====
section
/-! SUPPORT. What the detector reads, in terms of the values still to come on its stream (`State.upcoming`), and what a
filter step does to a window that holds the last inputs. -/

namespace Sys2Proof.Machine

/-! ## The filter's window -/

/-- A filter step on a window of `W` entries keeps its length, its sum, and that it holds the last `W` inputs after `W`
zeros (41_lowpass_filter.md R120, R124). -/
theorem Lpf.push_window {l : Lpf} {xs : List ℤ} (x : ℤ)
    (h : 1 ≤ l.W ∧ l.window.length = l.W ∧ l.sum = l.window.sum)
    (hw : l.window = lastN l.W (List.replicate l.W 0 ++ xs)) :
    (1 ≤ (l.push x).W ∧ (l.push x).window.length = (l.push x).W ∧ (l.push x).sum = (l.push x).window.sum) ∧
    (l.push x).window = lastN (l.push x).W (List.replicate (l.push x).W 0 ++ (xs ++ [x])) := by
  obtain ⟨h1, h2, h3⟩ := h
  obtain ⟨o, r, hr⟩ : ∃ o r, l.window = o :: r := by
    cases hw : l.window with
    | nil => simp [hw] at h2; omega
    | cons o r => exact ⟨o, r, rfl⟩
  have e2 : (l.push x).window = r ++ [x] := by simp [Lpf.push, hr]
  have e3 : (l.push x).sum = l.sum - o + x := by simp [Lpf.push, hr]
  change (1 ≤ l.W ∧ (l.push x).window.length = l.W ∧ (l.push x).sum = (l.push x).window.sum) ∧
    (l.push x).window = lastN l.W (List.replicate l.W 0 ++ (xs ++ [x]))
  rw [e2, e3]
  refine ⟨⟨h1, by simp [hr] at h2; simp; omega, by rw [h3, hr]; simp⟩, ?_⟩
  have ht : r = (lastN l.W (List.replicate l.W 0 ++ xs)).tail := by rw [← hw, hr]; rfl
  rw [ht]
  generalize l.W = W at h1
  simp only [lastN, List.length_append, List.length_replicate, List.tail_drop, List.length_cons, List.length_nil]
  have hle : W + xs.length - W + 1 ≤ (List.replicate W (0 : ℤ) ++ xs).length := by simp; omega
  rw [← List.append_assoc, ← List.drop_append_of_le_length hle]
  congr 1; omega

/-! ## The values to come -/

theorem State.upcoming_nil {s : State} (h : s.params.srcSamples[s.srcIndex]? = none) : s.upcoming = [] := by
  have := List.getElem?_eq_none_iff.1 h
  cases hs : s.zcd.sel <;> simp [State.upcoming, hs, List.drop_eq_nil_of_le this, Lpf.outputs]

theorem State.upcoming_cons {s : State} {x : ℤ} (h : s.params.srcSamples[s.srcIndex]? = some x) :
    s.upcoming = s.streamValue x :: (s.taken 1).upcoming := by
  obtain ⟨hlt, hx⟩ := List.getElem?_eq_some_iff.1 h
  have hd : s.params.srcSamples.drop s.srcIndex = x :: s.params.srcSamples.drop (s.srcIndex + 1) := by
    rw [List.drop_eq_getElem_cons hlt, hx]
  have hl := State.taken_one_lpf h
  cases hs : s.zcd.sel with
  | raw => simp [State.upcoming, hs, State.streamValue, hd]
  | lpf =>
    simp only [hs] at hl
    simp [State.upcoming, hs, State.streamValue, hd, Lpf.outputs, hl]

/-- What is to come depends on the detector's state through its stream selection alone. -/
theorem State.upcoming_setZcd {s : State} {z : Zcd} (h : z.sel = s.zcd.sel) : (s.setZcd z).upcoming = s.upcoming := by
  simp [State.upcoming, h]

theorem State.taken_setZcd {s : State} {z : Zcd} (h : z.sel = s.zcd.sel) (n : ℕ) :
    (s.setZcd z).taken n = (s.taken n).setZcd z :=
  State.ext_fields rfl rfl rfl (by cases hs : s.zcd.sel <;> simp [State.taken, h, hs, State.setZcd]) rfl rfl rfl rfl

/-- A value to come is the value of an input sample to come. -/
theorem State.upcoming_length (s : State) : s.upcoming.length = s.params.srcSamples.length - s.srcIndex := by
  generalize hn : s.unread = n
  induction n generalizing s with
  | zero =>
    have hlen : s.params.srcSamples.length ≤ s.srcIndex := by simp [State.unread] at hn; omega
    rw [State.upcoming_nil (List.getElem?_eq_none_iff.2 hlen)]; simp; omega
  | succ n ih =>
    have hlt : s.srcIndex < s.params.srcSamples.length := by simp [State.unread] at hn; omega
    have hx := List.getElem?_eq_getElem hlt
    rw [State.upcoming_cons hx, List.length_cons, ih]
    · simp; omega
    · have := unread_pos hx; omega

/-! ## Run extraction -/

/-- The detector after `n` more samples of the current run. -/
def Zcd.growBy (z : Zcd) (n : ℕ) : Zcd := { z with consumed := z.consumed + n, runLen := z.runLen + n }

theorem Zcd.growBy_zero (z : Zcd) : z.growBy 0 = z := rfl

theorem Zcd.grow_growBy (z : Zcd) (n : ℕ) : z.grow.growBy n = z.growBy (n + 1) := by
  simp [Zcd.grow, Zcd.growBy, Nat.add_assoc, Nat.add_comm 1 n]

/-- `ZcdProduce` over values that all continue the run in progress (42_zero_crossing.md R145). -/
theorem zcdProduce_growBy {s : State} (run : List ℚ) (rest : List ℚ) (hu : s.upcoming = run ++ rest)
    (hr : ∀ x ∈ (s.params.srcSamples.drop s.srcIndex).take run.length, sampleInRange s.params x = true)
    (hp : ∀ v ∈ run, polarity s.params v s.zcd.positive = s.zcd.positive) :
    zcdProduce s = zcdProduce ((s.taken run.length).setZcd (s.zcd.growBy run.length)) ∧
      ((s.taken run.length).setZcd (s.zcd.growBy run.length)).upcoming = rest := by
  induction run generalizing s with
  | nil => simpa [Zcd.growBy_zero, State.setZcd_self] using hu
  | cons v run ih =>
    cases hx : s.params.srcSamples[s.srcIndex]? with
    | none => rw [State.upcoming_nil hx] at hu; cases hu
    | some x =>
      obtain ⟨hlt, hx'⟩ := List.getElem?_eq_some_iff.1 hx
      rw [State.upcoming_cons hx] at hu
      simp only [List.cons_append, List.cons.injEq] at hu
      rw [List.drop_eq_getElem_cons hlt, hx', List.length_cons, List.take_succ_cons] at hr
      have hxr : sampleInRange s.params x = true := hr x (by simp)
      have hv : polarity s.params (s.streamValue x) s.zcd.positive = s.zcd.positive := hp _ (by simp [hu.1])
      have hsel : s.zcd.grow.sel = (s.taken 1).zcd.sel := rfl
      have := ih (s := (s.taken 1).setZcd s.zcd.grow) ((State.upcoming_setZcd hsel).trans hu.2)
        (fun y hy => hr y (List.mem_cons_of_mem _ hy)) (fun w hw => hp w (List.mem_cons_of_mem _ hw))
      rw [zcdProduce_grow hx hxr hv]
      rw [State.taken_setZcd hsel, State.taken_add, State.setZcd_setZcd, State.setZcd_zcd, Zcd.grow_growBy,
        Nat.add_comm 1] at this
      exact this

/-- A value to come comes from the next input sample. -/
theorem State.of_upcoming_cons {s : State} {v : ℚ} {rest : List ℚ} (hu : s.upcoming = v :: rest) :
    ∃ x, s.params.srcSamples[s.srcIndex]? = some x ∧ v = s.streamValue x ∧ (s.taken 1).upcoming = rest := by
  cases hx : s.params.srcSamples[s.srcIndex]? with
  | none => rw [State.upcoming_nil hx] at hu; cases hu
  | some x =>
    rw [State.upcoming_cons hx, List.cons.injEq] at hu
    exact ⟨x, rfl, hu.1.symm, hu.2⟩

/-- `ZcdProduce` up to the value that ends the run (42_zero_crossing.md R145). -/
theorem zcdProduce_run {s : State} (run : List ℚ) (y : ℚ) (after : List ℚ) (hu : s.upcoming = run ++ y :: after)
    (hr : ∀ x ∈ (s.params.srcSamples.drop s.srcIndex).take (run.length + 1), sampleInRange s.params x = true)
    (hp : ∀ v ∈ run, polarity s.params v s.zcd.positive = s.zcd.positive)
    (hy : polarity s.params y s.zcd.positive ≠ s.zcd.positive) :
    zcdProduce s = .ok (some (halfPeriodOf s.params (s.zcd.runLen + run.length)))
      ((s.taken (run.length + 1)).setZcd ((s.zcd.growBy run.length).flip (!s.zcd.positive))) := by
  obtain ⟨h1, h2⟩ := zcdProduce_growBy run (y :: after) hu
    (fun x hx => hr x (List.take_subset_take_left _ (Nat.le_succ _) hx)) hp
  obtain ⟨x, hx, rfl, -⟩ := State.of_upcoming_cons h2
  have hx' : (s.params.srcSamples.drop s.srcIndex)[run.length]? = some x := by
    rw [List.getElem?_drop]; simpa using hx
  have hxr : sampleInRange s.params x = true := hr x (by
    rw [List.take_add_one, hx']; simp)
  have hsel : (s.zcd.growBy run.length).sel = (s.taken run.length).zcd.sel := rfl
  have hb : ∀ a b : Bool, a ≠ b → a = !b := by decide
  have hf := zcdProduce_flip hx hxr hy
  rw [State.taken_setZcd hsel, State.taken_add, State.setZcd_setZcd] at hf
  have hn := hb _ _ hy
  rw [h1, hf]
  change Res.ok _ (State.setZcd _ ((s.zcd.growBy run.length).flip (polarity s.params _ s.zcd.positive))) = _
  rw [hn]; rfl

/-- `ZcdProduce` over the last run of a stream (42_zero_crossing.md R145). -/
theorem zcdProduce_flush {s : State} (hl : s.zcd.runLen ≠ 0)
    (hr : ∀ x ∈ s.params.srcSamples.drop s.srcIndex, sampleInRange s.params x = true)
    (hp : ∀ v ∈ s.upcoming, polarity s.params v s.zcd.positive = s.zcd.positive) :
    zcdProduce s = .ok (some (halfPeriodOf s.params (s.zcd.runLen + s.upcoming.length)))
      ((s.taken s.upcoming.length).setZcd { s.zcd.growBy s.upcoming.length with runLen := 0 }) := by
  obtain ⟨h1, h2⟩ := zcdProduce_growBy s.upcoming [] (by simp)
    (fun x hx => hr x (List.mem_of_mem_take hx)) hp
  have hx : ((s.taken s.upcoming.length).setZcd (s.zcd.growBy s.upcoming.length)).params.srcSamples[
      ((s.taken s.upcoming.length).setZcd (s.zcd.growBy s.upcoming.length)).srcIndex]? = none := by
    rw [List.getElem?_eq_none_iff]; simp [State.upcoming_length]; omega
  rw [h1, zcdProduce_end hx, flushRun, if_neg (by simp [Zcd.growBy]; omega)]
  rfl

/-- `ZcdProduce` up to a sample out of range (20_memory.md R62). -/
theorem zcdProduce_bad {s : State} (good : List ℤ) (bad : ℤ) (after : List ℤ)
    (hd : s.params.srcSamples.drop s.srcIndex = good ++ bad :: after)
    (hg : ∀ x ∈ good, sampleInRange s.params x = true) (hb : sampleInRange s.params bad = false)
    (hp : ∀ v ∈ s.upcoming.take good.length, polarity s.params v s.zcd.positive = s.zcd.positive) :
    zcdProduce s = .raise .sampleOutOfRange := by
  have hlen : (s.upcoming.take good.length).length = good.length := by
    have := congrArg List.length hd
    simp at this; simp [State.upcoming_length]; omega
  obtain ⟨h1, -⟩ := zcdProduce_growBy (s.upcoming.take good.length) (s.upcoming.drop good.length)
    (List.take_append_drop _ _).symm (fun x hx => hg x (by rw [hlen, hd] at hx; simpa using hx)) hp
  rw [h1, hlen]
  refine zcdProduce_outOfRange (x := bad) ?_ hb
  have : (s.params.srcSamples.drop s.srcIndex)[good.length]? = some bad := by rw [hd]; simp
  simpa [List.getElem?_drop] using this

end Sys2Proof.Machine
end

