-- ==== Sys2Proof/Laws/Exec.lean ====
section
/-! SUPPORT. Every command but `CTL.STATUS` is its body under the shared shell, said once, and what every body leaves
alone: the parameters, the fault register and the ports. -/

namespace Sys2Proof.Machine

/-- The body of a command (that of `CTL.STATUS` answers in every state, so it stands for the non-faulted ones here). -/
def body : Instr → State → Res Response
  | .oscBegin => runOscBegin
  | .oscEnd => runOscEnd
  | .oscSilence n => runOscSilence n
  | .oscHalf f => runOscHalf f
  | .oscOscs f count => runOscOscs f count
  | .oscSecs f seconds => runOscSecs f seconds
  | .lpfInit cutoff => runLpfInit cutoff
  | .lpfNext => runLpfNext
  | .zcdInit sel => runZcdInit sel
  | .zcdNext => runZcdNext
  | .zcdRewind => runZcdRewind
  | .zcdPos => runZcdPos
  | .syncFind lo hi n => runSyncFind lo hi n
  | .syncDfind n d => runSyncDfind n d
  | .fclsIs value lo hi => runFclsIs value lo hi
  | .fclsOscis h1 h2 lo hi => runFclsOscis h1 h2 lo hi
  | .fclsBit value zeroLo zeroHi oneLo oneHi => runFclsBit value zeroLo zeroHi oneLo oneHi
  | .ctlStatus => fun s => .ok (.status s.fault.number) s

theorem exec_eq_command (i : Instr) (h : i ≠ .ctlStatus) (s : State) : exec i s = command s (body i) := by
  cases i <;> first | rfl | exact absurd rfl h

theorem exec_of_none (i : Instr) {s : State} (h : s.fault = .none) : exec i s = .next (s.conclude (body i s)) := by
  cases i <;> first | rfl | exact command_of_none h _

theorem exec_of_ne {i : Instr} (hi : i ≠ .ctlStatus) {s : State} (h : s.fault ≠ .none) :
    exec i s = .next s.refuse := by
  rw [exec_eq_command i hi, command_of_ne h]

/-- The ways a command ends, from a state with no fault. -/
theorem exec_cases {i : Instr} {s t : State} (h : exec i s = .next t) (hs : s.fault = .none) :
    (∃ r u, body i s = .ok r u ∧ t = u.respond r) ∨ (∃ c, body i s = .raise c ∧ t = s.enterFault c) := by
  rw [exec_of_none i hs] at h
  cases hb : body i s with
  | ok r u => rw [hb] at h; exact .inl ⟨r, u, rfl, by simpa using h.symm⟩
  | raise c => rw [hb] at h; exact .inr ⟨c, rfl, by simpa using h.symm⟩

/-- The ports, the parameters and the fault register of two states agree. -/
def SameShell (s t : State) : Prop :=
  t.params = s.params ∧ t.pending = s.pending ∧ t.responses = s.responses ∧ t.fault = s.fault

theorem SameShell.refl (s : State) : SameShell s s := ⟨rfl, rfl, rfl, rfl⟩

theorem SameShell.trans {s t u : State} (h : SameShell s t) (h' : SameShell t u) : SameShell s u :=
  ⟨h'.1.trans h.1, h'.2.1.trans h.2.1, h'.2.2.1.trans h.2.2.1, h'.2.2.2.trans h.2.2.2⟩

theorem cycles_frame (n count : ℕ) (s : State) :
    SameShell s (State.cycles n count s) ∧ (State.cycles n count s).srcIndex = s.srcIndex ∧
    (State.cycles n count s).lpf = s.lpf ∧ (State.cycles n count s).zcd = s.zcd := by
  rw [State.cycles_eq]; exact ⟨⟨rfl, rfl, rfl, rfl⟩, rfl, rfl, rfl⟩

theorem readLpf_shell {s t : State} {r : Option ℚ} (h : readLpf s = .ok r t) : SameShell s t := by
  unfold readLpf at h
  cases hx : s.params.srcSamples[s.srcIndex]? with
  | none => rw [readRaw_end hx] at h; simp at h; exact h.2 ▸ .refl s
  | some x =>
    cases hr : sampleInRange s.params x with
    | false => rw [readRaw_outOfRange hx hr] at h; cases h
    | true => rw [readRaw_sample hx hr] at h; simp at h; rw [← h.2]; exact ⟨rfl, rfl, rfl, rfl⟩

theorem readZ_shell {s t : State} {r : Option ℚ} (h : readZ s = .ok r t) : SameShell s t := by
  obtain ⟨-, h'⟩ | ⟨x, -, -, h'⟩ | ⟨x, -, -, h'⟩ := readZ_cases s <;> rw [h'] at h <;> simp at h <;> rw [← h.2]
  · exact .refl s
  · exact ⟨rfl, rfl, rfl, rfl⟩

theorem zcdNext_shell {s t : State} {r : Option ℚ} (h : zcdNext s = .ok r t) : SameShell s t :=
  have f := zcdNext_frame h
  ⟨f.1, f.2.2.2.1, f.2.2.2.2.1, f.2.2.1⟩

theorem zcdRewind_shell {s t : State} {u : Unit} (h : zcdRewind s = .ok u t) : SameShell s t := by
  obtain ⟨-, -, -, rfl⟩ := zcdRewind_cases h; exact ⟨rfl, rfl, rfl, rfl⟩

theorem findLoop_shell {lo hi : ℚ} {n : ℕ} (fuel count : ℕ) {s t : State} {b : Bool}
    (h : findLoop lo hi n fuel count s = .ok b t) : SameShell s t := by
  induction fuel generalizing count s with
  | zero => simp [findLoop] at h; exact h.2 ▸ .refl s
  | succ fuel ih =>
    unfold findLoop at h
    split at h
    · cases h
    · next hn => simp at h; exact h.2 ▸ zcdNext_shell hn
    · next hn =>
      refine (zcdNext_shell hn).trans ?_
      split at h
      · exact ih _ h
      · split at h
        · obtain ⟨_, hr, -⟩ := Res.map_eq_ok.1 h; exact zcdRewind_shell hr
        · exact ih _ h

theorem dfindLoop_shell {n : ℕ} {d : ℚ} (fuel : ℕ) (win : List ℚ) (run : ℕ) {s t : State} {r : Response}
    (h : dfindLoop n d fuel win run s = .ok r t) : SameShell s t := by
  induction fuel generalizing win run s with
  | zero => simp [dfindLoop] at h; exact h.2 ▸ .refl s
  | succ fuel ih =>
    unfold dfindLoop at h
    split at h
    · cases h
    · next hn => simp at h; exact h.2 ▸ zcdNext_shell hn
    · next hn =>
      refine (zcdNext_shell hn).trans ?_
      split at h
      · exact ih _ _ h
      · split at h
        · split at h
          · obtain ⟨_, hr, -⟩ := Res.map_eq_ok.1 h; exact zcdRewind_shell hr
          · exact ih _ _ h
        · exact ih _ _ h

/-- No body writes the parameters, the fault register or a port. -/
theorem body_shell {i : Instr} {s t : State} {r : Response} (h : body i s = .ok r t) : SameShell s t := by
  cases i with
  | oscBegin => cases h; exact ⟨rfl, rfl, rfl, rfl⟩
  | oscEnd => cases h; exact ⟨rfl, rfl, rfl, rfl⟩
  | oscSilence n => cases h; exact ⟨rfl, rfl, rfl, rfl⟩
  | oscHalf f =>
    simp only [body, runOscHalf] at h; split at h <;> cases h; exact ⟨rfl, rfl, rfl, rfl⟩
  | oscOscs f count =>
    simp only [body, runOscOscs] at h; split at h <;> cases h; exact (cycles_frame _ _ _).1
  | oscSecs f seconds =>
    simp only [body, runOscSecs] at h; split at h <;> cases h; exact (cycles_frame _ _ _).1
  | lpfInit cutoff =>
    simp only [body, runLpfInit] at h; repeat' split at h
    all_goals cases h
    exact ⟨rfl, rfl, rfl, rfl⟩
  | lpfNext =>
    simp only [body, runLpfNext] at h; repeat' split at h
    all_goals try exact absurd h (by simp)
    obtain ⟨_, hr, -⟩ := Res.map_eq_ok.1 h; exact readLpf_shell hr
  | zcdInit sel =>
    simp only [body, runZcdInit] at h; repeat' split at h
    all_goals cases h
    next hz => exact ⟨(readZ_shell hz).1, (readZ_shell hz).2.1, (readZ_shell hz).2.2.1, (readZ_shell hz).2.2.2⟩
  | zcdNext =>
    simp only [body, runZcdNext] at h; split at h
    · cases h
    · obtain ⟨_, hr, -⟩ := Res.map_eq_ok.1 h; exact zcdNext_shell hr
  | zcdRewind =>
    simp only [body, runZcdRewind] at h; split at h
    · cases h
    · obtain ⟨_, hr, -⟩ := Res.map_eq_ok.1 h; exact zcdRewind_shell hr
  | zcdPos =>
    simp only [body, runZcdPos] at h; repeat' split at h
    all_goals cases h
    all_goals exact .refl s
  | syncFind lo hi n =>
    simp only [body, runSyncFind] at h; repeat' split at h
    all_goals try exact absurd h (by simp)
    obtain ⟨_, hr, -⟩ := Res.map_eq_ok.1 h; exact findLoop_shell _ _ hr
  | syncDfind n d =>
    simp only [body, runSyncDfind] at h; repeat' split at h
    all_goals try exact absurd h (by simp)
    exact dfindLoop_shell _ _ _ h
  | fclsIs value lo hi =>
    simp only [body, runFclsIs] at h; split at h <;> cases h; exact .refl s
  | fclsOscis h1 h2 lo hi =>
    simp only [body, runFclsOscis] at h; split at h <;> cases h; exact .refl s
  | fclsBit value zeroLo zeroHi oneLo oneHi =>
    simp only [body, runFclsBit] at h; repeat' split at h
    all_goals cases h
    exact .refl s
  | ctlStatus => cases h; exact .refl s

theorem findLoop_raise {lo hi : ℚ} {n : ℕ} (fuel count : ℕ) {s : State} {c : FaultCode}
    (h : findLoop lo hi n fuel count s = .raise c) : c ≠ .none := by
  induction fuel generalizing count s with
  | zero => cases h
  | succ fuel ih =>
    unfold findLoop at h
    split at h
    · next hn => cases h; rw [zcdNext_raise hn]; decide
    · cases h
    · next t _ =>
      split at h
      · exact ih _ h
      · split at h
        · cases hr : zcdRewind t with
          | ok _ _ => rw [hr] at h; cases h
          | raise c' =>
            rw [hr] at h; cases h
            obtain rfl | rfl | rfl := zcdRewind_raise hr <;> decide
        · exact ih _ h

theorem dfindLoop_raise {n : ℕ} {d : ℚ} (fuel : ℕ) (win : List ℚ) (run : ℕ) {s : State} {c : FaultCode}
    (h : dfindLoop n d fuel win run s = .raise c) : c ≠ .none := by
  induction fuel generalizing win run s with
  | zero => cases h
  | succ fuel ih =>
    unfold dfindLoop at h
    split at h
    · next hn => cases h; rw [zcdNext_raise hn]; decide
    · cases h
    · next t _ =>
      split at h
      · exact ih _ _ h
      · split at h
        · split at h
          · cases hr : zcdRewind t with
            | ok _ _ => rw [hr] at h; cases h
            | raise c' =>
              rw [hr] at h; cases h
              obtain rfl | rfl | rfl := zcdRewind_raise hr <;> decide
          · exact ih _ _ h
        · exact ih _ _ h

/-- A command that raises, raises a fault: never the code `None`. -/
theorem body_raise {i : Instr} {s : State} {c : FaultCode} (h : body i s = .raise c) : c ≠ .none := by
  have map {α β : Type} {f : α → β} {r : Res α} (h : r.map f = .raise c) : r = .raise c := by
    cases r with
    | ok _ _ => cases h
    | raise c' => cases h; rfl
  have raw {s : State} (h : readRaw s = .raise c) : c ≠ .none := by
    unfold readRaw at h; repeat' split at h
    all_goals cases h
    decide
  cases i with
  | oscBegin | oscEnd | oscSilence _ | ctlStatus => cases h
  | oscHalf _ => simp only [body, runOscHalf] at h; split at h <;> cases h; decide
  | oscOscs _ _ => simp only [body, runOscOscs] at h; split at h <;> cases h; decide
  | oscSecs _ _ => simp only [body, runOscSecs] at h; split at h <;> cases h; decide
  | lpfInit _ =>
    simp only [body, runLpfInit] at h; repeat' split at h
    all_goals cases h
    all_goals decide
  | lpfNext =>
    simp only [body, runLpfNext] at h; split at h
    · cases h; decide
    · split at h
      · cases h; decide
      · have h := map h
        unfold readLpf at h; split at h
        · next hr => cases h; exact raw hr
        · cases h
        · cases h
  | zcdInit sel =>
    simp only [body, runZcdInit] at h
    split at h
    · cases h; decide
    split at h
    · cases h; decide
    split at h
    · cases h; decide
    split at h
    · cases h; decide
    split at h
    · cases h; decide
    split at h
    · next hz =>
      cases h
      obtain ⟨-, h'⟩ | ⟨x, -, -, h'⟩ | ⟨x, -, -, h'⟩ :=
        readZ_cases (s.setZcd { s.zcd with sel := selOf sel, init := true }) <;> rw [h'] at hz <;> cases hz
      decide
    · cases h
  | zcdNext =>
    simp only [body, runZcdNext] at h; split at h
    · cases h; decide
    · rw [zcdNext_raise (map h)]; decide
  | zcdRewind =>
    simp only [body, runZcdRewind] at h; split at h
    · cases h; decide
    · obtain rfl | rfl | rfl := zcdRewind_raise (map h) <;> decide
  | zcdPos =>
    simp only [body, runZcdPos] at h; repeat' split at h
    all_goals cases h
    decide
  | syncFind _ _ _ =>
    simp only [body, runSyncFind] at h; split at h
    · cases h; decide
    split at h
    · cases h; decide
    split at h
    · cases h; decide
    exact findLoop_raise _ _ (map h)
  | syncDfind _ _ =>
    simp only [body, runSyncDfind] at h; split at h
    · cases h; decide
    split at h
    · cases h; decide
    exact dfindLoop_raise _ _ _ h
  | fclsIs _ _ _ => simp only [body, runFclsIs] at h; split at h <;> cases h; decide
  | fclsOscis _ _ _ _ => simp only [body, runFclsOscis] at h; split at h <;> cases h; decide
  | fclsBit _ _ _ _ _ =>
    simp only [body, runFclsBit] at h; repeat' split at h
    all_goals cases h
    all_goals decide

end Sys2Proof.Machine
end

