-- ==== Sys2Proof/Laws/PerInstr.lean ====
section
/-! SUPPORT. Statements about every instruction as syntax, one lemma per constructor: its command is well-formed. -/

namespace Sys2Proof.Laws.EncodeWellFormed

/-- The command of an instruction has a legal word and operands of its signature (30_encoding.md R82, R84). -/
def Statement (i : Instr) : Prop := (encode i).wf = true

theorem oscBegin : Statement .oscBegin := rfl
theorem oscEnd : Statement .oscEnd := rfl
theorem oscSilence (n : ℕ) : Statement (.oscSilence n) := rfl
theorem oscHalf (f : ℚ) : Statement (.oscHalf f) := rfl
theorem oscOscs (f : ℚ) (count : ℕ) : Statement (.oscOscs f count) := rfl
theorem oscSecs (f seconds : ℚ) : Statement (.oscSecs f seconds) := rfl
theorem lpfInit (cutoff : ℚ) : Statement (.lpfInit cutoff) := rfl
theorem lpfNext : Statement .lpfNext := rfl
theorem zcdInit (sel : ℕ) : Statement (.zcdInit sel) := rfl
theorem zcdNext : Statement .zcdNext := rfl
theorem zcdRewind : Statement .zcdRewind := rfl
theorem zcdPos : Statement .zcdPos := rfl
theorem syncFind (lo hi : ℚ) (minHalfPeriods : ℕ) : Statement (.syncFind lo hi minHalfPeriods) := rfl
theorem syncDfind (minHalfPeriods : ℕ) (maxRelativeDeviation : ℚ) :
    Statement (.syncDfind minHalfPeriods maxRelativeDeviation) := rfl
theorem fclsIs (value lo hi : ℚ) : Statement (.fclsIs value lo hi) := rfl
theorem fclsOscis (h1 h2 lo hi : ℚ) : Statement (.fclsOscis h1 h2 lo hi) := rfl
theorem fclsBit (value zeroLo zeroHi oneLo oneHi : ℚ) :
    Statement (.fclsBit value zeroLo zeroHi oneLo oneHi) := rfl
theorem ctlStatus : Statement .ctlStatus := rfl

end Sys2Proof.Laws.EncodeWellFormed
end

