-- ==== Sys2Proof/Tests/Slice0.lean ====
section
/-! SUPPORT. The model's own tests: the well-formedness smoke, the words of the map written out from 30_encoding.md R80 to
R82, single steps with the results of the spec's own examples (40 to 45 and 95_test_vectors.md), and for each obligation
with hypotheses a witness that meets them, clause by clause. -/

namespace Sys2Proof.Tests

open Sys2Proof.Machine

/-! ## Small states -/

/-- The parameters of 95_test_vectors.md ("Conventions"), with lead-in 3 and lead-out 1, on the input `xs`. -/
def params (xs : List ℤ) : Params where
  oscSampleRate := 8000
  oscInitialPhase := .high
  oscLeadInSamples := 3
  oscLeadOutSamples := 1
  srcSampleRate := 8000
  srcBitsPerSample := 8
  srcSamples := xs
  zcEqualRule := .asNegative

/-- After reset, on the input `xs`. -/
def fresh (xs : List ℤ) : State := State.resetOf (params xs)

/-- With a source format no unit accepts. -/
def badFormat : State := State.resetOf { params [] with srcSampleRate := 0 }

/-- A filter with the window `window` before the first sample of `xs`. -/
def filtering (window : List ℤ) (xs : List ℤ) : State :=
  { fresh xs with lpf := ⟨true, window.length, window, window.sum⟩ }

/-- A detector on the raw input `xs`, constructed by its first sample. -/
def detector (xs : List ℤ) (positive : Bool) : State :=
  { fresh xs with
    srcIndex := 1
    zcd := { Zcd.reset with init := true, positive := positive, runLen := 1, consumed := 1,
                            initPos := ⟨1, 1 / 8000⟩, prevPos := ⟨1, 1 / 8000⟩ } }

/-- The detector of R147's example after its first two deliveries: runs of 2 and 3 samples, the fourth run in progress. -/
def delivered : State :=
  { fresh [200, 200, 50, 50, 50, 200, 200, 200, 200] with
    srcIndex := 6
    zcd := { Zcd.reset with init := true, positive := true, runLen := 1, consumed := 6, initPos := ⟨1, 1 / 8000⟩,
                            last := some (4000 / 3, ⟨6, 6 / 8000⟩), prevPos := ⟨3, 3 / 8000⟩ } }

/-- The same with a rewind pending. -/
def rewound : State := { delivered with zcd := { delivered.zcd with replay := true } }

/-- The same at the end of the stream. -/
def ended : State :=
  { delivered with
    srcIndex := 9
    zcd := { delivered.zcd with consumed := 9, runLen := 0, last := some (1000, ⟨9, 9 / 8000⟩),
                                prevPos := ⟨6, 6 / 8000⟩, lastWasEnd := true } }

/-- A detector on the filter's output, the filter having a window of one sample. -/
def onFilter : State :=
  { detector [200, 200, 50] true with
    lpf := ⟨true, 1, [200], 200⟩
    zcd := { (detector [200, 200, 50] true).zcd with sel := .lpf } }

/-- The state with the fault `c`. -/
def faulted (c : FaultCode) : State := { fresh [] with fault := c }

/-- The next state of an outcome. -/
def nextOf : Host.Outcome State Fault Refusal → Option State
  | .next t => some t
  | .fault _ => none
  | .refused _ => none

/-- The response a command gives. -/
def responseOf (i : Instr) (s : State) : Option Response :=
  (nextOf (exec i s)).bind fun t => t.responses.getLast?

/-- What of the next state a test looks at. -/
def after {α : Type} (f : State → α) (i : Instr) (s : State) : Option α := (nextOf (exec i s)).map f

/-! ## Well-formedness: each check refuses an ill-formed command (30_encoding.md R84, R86) -/

/-- Unit 101 is reserved. -/
theorem test_wf_refuses_word : (Command.mk 0b10100000#8 []).wordLegal = false := by decide
/-- Op 00110 of OSC is unused. -/
theorem test_wf_refuses_unused_op : (Command.mk 0b00000110#8 []).wordLegal = false := by decide
theorem test_wf_refuses_count : (Command.mk 0x03#8 []).operandsMatch = false := by decide
theorem test_wf_refuses_type : (Command.mk 0x03#8 [.nat 1200]).operandsMatch = false := by decide
theorem test_wf_accepts : (Command.mk 0x03#8 [.rat 1200]).wf = true := by decide

/-! ## Decoding: one word per command, bits [7:5] and [4:0] from 30_encoding.md R81, R82 -/

theorem test_decode_oscBegin : decode ⟨0b00000000#8, []⟩ = .ok .oscBegin := by decide
theorem test_decode_oscEnd : decode ⟨0b00000001#8, []⟩ = .ok .oscEnd := by decide
theorem test_decode_oscSilence : decode ⟨0b00000010#8, [.nat 2]⟩ = .ok (.oscSilence 2) := by decide
theorem test_decode_oscHalf : decode ⟨0b00000011#8, [.rat 1200]⟩ = .ok (.oscHalf 1200) := by decide
theorem test_decode_oscOscs : decode ⟨0b00000100#8, [.rat 2400, .nat 8]⟩ = .ok (.oscOscs 2400 8) := by decide
theorem test_decode_oscSecs : decode ⟨0b00000101#8, [.rat 1200, .rat 3]⟩ = .ok (.oscSecs 1200 3) := by decide
theorem test_decode_lpfInit : decode ⟨0b00100000#8, [.rat 2000]⟩ = .ok (.lpfInit 2000) := by decide
theorem test_decode_lpfNext : decode ⟨0b00100001#8, []⟩ = .ok .lpfNext := by decide
theorem test_decode_zcdInit : decode ⟨0b01000000#8, [.nat 1]⟩ = .ok (.zcdInit 1) := by decide
theorem test_decode_zcdNext : decode ⟨0b01000001#8, []⟩ = .ok .zcdNext := by decide
theorem test_decode_zcdRewind : decode ⟨0b01000010#8, []⟩ = .ok .zcdRewind := by decide
theorem test_decode_zcdPos : decode ⟨0b01000011#8, []⟩ = .ok .zcdPos := by decide
theorem test_decode_syncFind :
    decode ⟨0b01100000#8, [.rat 1800, .rat 2200, .nat 40]⟩ = .ok (.syncFind 1800 2200 40) := by decide
theorem test_decode_syncDfind : decode ⟨0b01100001#8, [.nat 3, .rat 1]⟩ = .ok (.syncDfind 3 1) := by decide
theorem test_decode_fclsIs : decode ⟨0b10000000#8, [.rat 9, .rat 8, .rat 7]⟩ = .ok (.fclsIs 9 8 7) := by decide
theorem test_decode_fclsOscis :
    decode ⟨0b10000001#8, [.rat 4, .rat 3, .rat 2, .rat 1]⟩ = .ok (.fclsOscis 4 3 2 1) := by decide
theorem test_decode_fclsBit :
    decode ⟨0b10000010#8, [.rat 5, .rat 4, .rat 3, .rat 2, .rat 1]⟩ = .ok (.fclsBit 5 4 3 2 1) := by decide
theorem test_decode_ctlStatus : decode ⟨0b11100000#8, []⟩ = .ok .ctlStatus := by decide

/-- A reserved unit, an unused op and a mismatched tuple are rejected by name (R86). -/
theorem test_decode_rejects :
    decode ⟨0b11000000#8, []⟩ = .error .illegalWord ∧ decode ⟨0b01100010#8, []⟩ = .error .illegalWord ∧
    decode ⟨0b11100000#8, [.nat 0]⟩ = .error .operandMismatch := by decide

theorem test_table_word : decodeTableWord 8 0x60 = some (.syncFind 0 0 0) := by decide

/-- The table word runs as the first command after reset, on the placed port. -/
theorem test_fetch_word :
    (nextOf (step ((fresh []).withFetchWord 8 0xE0))).map (·.responses) = some [.status 0] := by decide +kernel

/-! ## The Oscillator (95_test_vectors.md O1 to O15, 40_oscillator.md examples) -/

theorem test_begin : after (·.osc) .oscBegin (fresh []) = some ⟨.high, [.zero, .zero, .zero]⟩ := by decide +kernel
theorem test_end : after (·.osc) .oscEnd (fresh []) = some ⟨.high, [.zero]⟩ := by decide +kernel
theorem test_silence : after (·.osc) (.oscSilence 2) (fresh []) = some ⟨.high, [.zero, .zero]⟩ := by decide +kernel
/-- O1. -/
theorem test_half : after (·.osc) (.oscHalf 1000) (fresh []) = some ⟨.low, [.high, .high, .high, .high]⟩ := by
  decide +kernel
/-- R103: `floor(0.8)` symbols, and the phase inverts all the same. -/
theorem test_half_none : after (·.osc) (.oscHalf 5000) (fresh []) = some ⟨.low, []⟩ := by decide +kernel
/-- R104's example, with one cycle. -/
theorem test_oscs : after (·.osc) (.oscOscs 2000 1) (fresh []) = some ⟨.high, [.high, .high, .low, .low]⟩ := by
  decide +kernel
/-- O9: the check comes first. -/
theorem test_oscs_zero : responseOf (.oscOscs 0 0) (fresh []) = some (.fault .invalidOperand) := by decide +kernel
/-- `1000 × 1/1000 = 1` cycle of 4 + 4 symbols. -/
theorem test_secs : after (·.osc.out.length) (.oscSecs 1000 (1 / 1000)) (fresh []) = some 8 := by decide +kernel
/-- O13. -/
theorem test_secs_negative : responseOf (.oscSecs 1000 (-1)) (fresh []) = some (.fault .invalidOperand) := by
  decide +kernel

/-! ## The Low-Pass Filter (95_test_vectors.md, LPF tables) -/

/-- The tie 2.5 rounds up to 3. -/
theorem test_lpfInit_tie : after (·.lpf) (.lpfInit 3200) (fresh []) = some ⟨true, 3, [0, 0, 0], 0⟩ := by
  decide +kernel
theorem test_lpfInit_window : responseOf (.lpfInit 16001) (fresh []) = some (.fault .badWindow) := by decide +kernel
/-- F3's first output. -/
theorem test_lpfNext : responseOf .lpfNext (filtering [0, 0, 0] [1, 2]) = some (.sample (1 / 3)) := by decide +kernel
theorem test_lpfNext_window :
    after (·.lpf) .lpfNext (filtering [7, 8, 9] [100]) = some ⟨true, 3, [8, 9, 100], 117⟩ := by decide +kernel

/-! ## The Zero-Crossing Detector (42_zero_crossing.md examples) -/

theorem test_zcdInit : after (fun s => (s.zcd.positive, s.zcd.runLen, s.zcd.consumed, s.zcd.initPos))
    (.zcdInit 0) (fresh [200, 200, 50]) = some (true, 1, 1, ⟨1, 1 / 8000⟩) := by decide +kernel
/-- F9's mirror: the filter owns the input. -/
theorem test_zcdInit_owner : responseOf (.zcdInit 0) (filtering [0] []) = some (.fault .ownershipViolation) := by
  decide +kernel
/-- R147's example: a run of 2 samples, the flipping sample counted in the Position. -/
theorem test_zcdNext : after (fun s => (s.zcd.last, s.zcd.positive, s.zcd.runLen)) .zcdNext
    (detector [200, 200, 50, 50] true) = some (some (2000, ⟨3, 3 / 8000⟩), false, 1) := by decide +kernel
/-- R147's example: the flushed run of 4 samples. -/
theorem test_zcdNext_flush : responseOf .zcdNext delivered = some (.halfPeriod 1000) := by decide +kernel
theorem test_zcdRewind : after (fun s => s.zcd.replay) .zcdRewind delivered = some true := by decide +kernel
theorem test_zcdRewind_double : responseOf .zcdRewind rewound = some (.fault .doubleRewind) := by decide +kernel
/-- R148's example: the Position before the rewound value. -/
theorem test_zcdPos_rewound : responseOf .zcdPos rewound = some (.pos ⟨3, 3 / 8000⟩) := by decide +kernel
theorem test_zcdPos : responseOf .zcdPos delivered = some (.pos ⟨6, 6 / 8000⟩) := by decide +kernel

/-! ## The Synchronization Detector (43_sync_detector.md R172, R176) -/

/-- Runs of 2, 2 and 1 samples: two values of 2000 Hz, then the flushed 4000 Hz, which is rewound. -/
theorem test_syncFind : after (fun s => (s.responses, s.zcd.replay, s.zcd.last)) (.syncFind 2000 2000 2)
    (detector [200, 200, 50, 50, 200] true) =
      some ([.bool true], true, some (4000, ⟨5, 5 / 8000⟩)) := by decide +kernel
/-- The stream ends inside a run too short. -/
theorem test_syncFind_short : after (fun s => (s.responses, s.zcd.lastWasEnd)) (.syncFind 2000 4000 4)
    (detector [200, 200, 50, 50, 200] true) = some ([.bool false], true) := by decide +kernel
theorem test_syncDfind : after (fun s => (s.responses, s.zcd.replay)) (.syncDfind 2 0)
    (detector [200, 200, 50, 50, 200] true) = some ([.freq 2000], true) := by decide +kernel
/-- A deviation exactly at the bound (4000 from 2000) continues the run; the window average is that of the last 2. -/
theorem test_syncDfind_bound : after (fun s => (s.responses, s.zcd.replay)) (.syncDfind 2 1)
    (detector [200, 200, 50, 50, 200] true) = some ([.freq 3000], false) := by decide +kernel

/-! ## The classifier and the status (44_classifier.md examples, 45_control.md) -/

theorem test_is : responseOf (.fclsIs 9 9 9) (fresh []) = some (.bool true) := by decide +kernel
theorem test_is_malformed : responseOf (.fclsIs 5 6 4) (fresh []) = some (.fault .malformedBand) := by decide +kernel
theorem test_oscis : responseOf (.fclsOscis 900 1500 1100 1300) (fresh []) = some (.bool true) := by decide +kernel
theorem test_oscis_out : responseOf (.fclsOscis 2000 2000 1100 1300) (fresh []) = some (.bool false) := by
  decide +kernel
theorem test_bit : responseOf (.fclsBit 2400 1100 1300 2200 2600) (fresh []) = some (.tri .true) := by decide +kernel
theorem test_bit_shared : responseOf (.fclsBit 2000 1000 2000 2000 3000) (fresh []) =
    some (.fault .malformedBand) := by decide +kernel
theorem test_status : responseOf .ctlStatus (faulted .rewindWithoutValue) = some (.status 10) := by decide +kernel
theorem test_refused : responseOf .oscBegin (faulted .rewindWithoutValue) =
    some (.refused .rewindWithoutValue) := by decide +kernel

/-! ## The boundary (95_test_vectors.md X1, X2) -/

theorem test_byte8 : [Symbol.zero, .high, .low].map Symbol.byte8 = [0x80, 0xFE, 0x02] := by decide
theorem test_normalize16 : [-32768, 0, 32767].map normalize16 = [0, 32768, 65535] := by decide

/-! ## Witnesses: for each obligation with hypotheses, a state and operands that meet them, clause by clause -/

theorem witness_ResetSignalRestoresEveryElement :
    ((faulted .badWindow).setPending [.reset, .command ⟨0xE0#8, []⟩]).pending =
      .reset :: [.command ⟨0xE0#8, []⟩] := rfl

theorem witness_IdlePortHoldsTheState : delivered.pending = [] := rfl

theorem witness_StepRunsTheDecodedCommand :
    (delivered.setPending [.command ⟨0x41#8, []⟩, .reset]).pending = .command ⟨0x41#8, []⟩ :: [.reset] ∧
    decode ⟨0x41#8, []⟩ = .ok .zcdNext := ⟨rfl, rfl⟩

theorem witness_NoStepChangesAParameter :
    step ((fresh []).setPending [.reset]) = .next (fresh []) := rfl

theorem witness_EveryCommandGivesExactlyOneResponse :
    ((faulted .badWindow).setPending [.command ⟨0xFF#8, []⟩]).pending = .command ⟨0xFF#8, []⟩ :: [] := rfl

/-- The invariant holds of a detector in the middle of its stream. -/
theorem delivered_inv : delivered.Inv where
  cursor := by decide
  readInRange := by decide
  unreadAtFirst := by decide
  format := by decide
  filter := by decide
  window := by decide
  replay := by decide
  ended := by decide
  last := by
    rintro h p e
    cases e
    exact ⟨by norm_num, by decide, by norm_num [Position.Agrees, delivered, fresh, State.resetOf, params]⟩
  positions := by norm_num [Position.Agrees, delivered, fresh, State.resetOf, params, Zcd.reset]
  oneOwner := by decide
  filterBelow := by decide
  detectorFresh := by intro h; cases h
  filterFresh := fun _ => rfl

/-- It holds of a filter before its first sample. -/
theorem filtering_inv (xs : List ℤ) : (filtering [0, 0] xs).Inv where
  cursor := Nat.zero_le _
  readInRange := by intro x hx; cases hx
  unreadAtFirst := fun _ _ => rfl
  format := fun _ => rfl
  filter := fun _ => ⟨Nat.le_of_ble_eq_true rfl, rfl, rfl⟩
  window := fun _ => rfl
  replay := by intro h; cases h
  ended := by intro h; cases h
  last := by intro h p e; cases e
  positions := by norm_num [Position.Agrees, filtering, fresh, State.resetOf, params, Zcd.reset]
  oneOwner := by rintro ⟨-, h⟩; cases h
  filterBelow := fun _ => rfl
  detectorFresh := fun _ => rfl
  filterFresh := by intro h; cases h

/-- It holds after reset, on a stream of two runs. -/
theorem fresh_inv : (fresh [200, 200, 50]).Inv where
  cursor := by decide
  readInRange := by decide
  unreadAtFirst := by decide
  format := by decide
  filter := by decide
  window := by decide
  replay := by decide
  ended := by decide
  last := by intro h p e; cases e
  positions := by norm_num [Position.Agrees, fresh, State.resetOf, params, Zcd.reset]
  oneOwner := by decide
  filterBelow := by decide
  detectorFresh := fun _ => rfl
  filterFresh := fun _ => rfl

/-- It holds of a detector on the filter's output. -/
theorem onFilter_inv : onFilter.Inv where
  cursor := by decide
  readInRange := by decide
  unreadAtFirst := by decide
  format := by decide
  filter := by decide
  window := by decide
  replay := by decide
  ended := by decide
  last := by intro h p e; cases e
  positions := by norm_num [Position.Agrees, onFilter, detector, fresh, State.resetOf, params, Zcd.reset]
  oneOwner := by decide
  filterBelow := by decide
  detectorFresh := by intro h; cases h
  filterFresh := by intro h; cases h

/-- It holds of a detector in the middle of its first run. -/
theorem detector_inv : (detector [200, 200, 50, 50, 200] true).Inv where
  cursor := by decide
  readInRange := by decide
  unreadAtFirst := by decide
  format := by decide
  filter := by decide
  window := by decide
  replay := by decide
  ended := by decide
  last := by intro h p e; cases e
  positions := by norm_num [Position.Agrees, detector, fresh, State.resetOf, params, Zcd.reset]
  oneOwner := by decide
  filterBelow := by decide
  detectorFresh := by intro h; cases h
  filterFresh := fun _ => rfl

/-- The invariant does not read the fault register. -/
theorem faulted_inv : { fresh [200, 200, 50] with fault := .badWindow }.Inv := by
  have h := fresh_inv
  exact ⟨h.1, h.2, h.3, h.4, h.5, h.6, h.7, h.8, h.9, h.10, h.11, h.12, h.13, h.14⟩

theorem witness_ResponsesHaveTheirListedTypes :
    (delivered.Inv ∧ (∃ t, exec .zcdNext delivered = .next t) ∧ delivered.fault = .none) ∧
    ({ fresh [200, 200, 50] with fault := .badWindow }.Inv ∧
      (∃ t, exec .oscEnd { fresh [200, 200, 50] with fault := .badWindow } = .next t) ∧
      { fresh [200, 200, 50] with fault := .badWindow }.fault ≠ .none ∧ Instr.oscEnd ≠ .ctlStatus) :=
  ⟨⟨delivered_inv, ⟨_, rfl⟩, rfl⟩, faulted_inv, ⟨_, rfl⟩, by decide, by decide⟩

theorem witness_DecodeInvertsEncode : decode ⟨0x60#8, [.rat 1, .rat 2, .nat 3]⟩ = .ok (.syncFind 1 2 3) := by decide

theorem witness_ExactlyTheMapDecodes :
    (Command.mk 0xE0#8 []).wf = true ∧ ∃ i, decode ⟨0xE0#8, []⟩ = .ok i := ⟨by decide, _, rfl⟩

/-- An illegal word, and a legal word with an operand too many. -/
theorem witness_IllegalCommandsFault :
    ((fresh []).fault = .none ∧ ((fresh []).setPending [.command ⟨0xFF#8, []⟩]).pending = [.command ⟨0xFF#8, []⟩] ∧
      (Command.mk 0xFF#8 []).wf = false) ∧
    (((fresh []).setPending [.command ⟨0xE0#8, [.nat 0]⟩]).pending = [.command ⟨0xE0#8, [.nat 0]⟩] ∧
      (Command.mk 0xE0#8 [.nat 0]).wf = false) := ⟨⟨rfl, rfl, by decide⟩, rfl, by decide⟩

/-- A legal word, an illegal word, `CTL.STATUS` with an operand, and `CTL.STATUS`. -/
theorem witness_FaultedStateRefusesCommands :
    (faulted .badWindow).fault ≠ .none ∧
    (∀ c ∈ [Command.mk 0x00#8 [], ⟨0xFF#8, []⟩, ⟨0xE0#8, [.nat 0]⟩], c ≠ ⟨0xE0#8, []⟩ ∧
      ((faulted .badWindow).setPending [.command c]).pending = [.command c]) ∧
    ((faulted .badWindow).setPending [.command ⟨0xE0#8, []⟩]).pending = [.command ⟨0xE0#8, []⟩] := by decide

/-- A legal command that faults, and an illegal one. -/
theorem witness_FaultsArePrecise :
    (∃ t, ((fresh []).setPending [.command ⟨0x21#8, []⟩]).fault = .none ∧
      step ((fresh []).setPending [.command ⟨0x21#8, []⟩]) = .next t ∧ t.fault ≠ .none) ∧
    ∃ t, step ((fresh []).setPending [.command ⟨0xFF#8, []⟩]) = .next t ∧ t.fault ≠ .none :=
  ⟨⟨_, rfl, rfl, by decide⟩, _, rfl, by decide⟩

theorem witness_OnlyResetLeavesTheFaultedState :
    (∃ t, step ((faulted .badWindow).setPending [.command ⟨0x00#8, []⟩]) = .next t ∧ t.fault = .badWindow) ∧
    (∃ t, step ((faulted .badWindow).setPending [.reset]) = .next t ∧ t.fault = .none) :=
  ⟨⟨_, rfl, rfl⟩, _, rfl, rfl⟩

theorem witness_EveryStepKeepsTheInvariant : delivered.Inv ∧ ∃ t, step delivered = .next t :=
  ⟨delivered_inv, _, rfl⟩

theorem witness_StreamsOnlyMoveForward :
    (∃ t, step (delivered.setPending [.command ⟨0x41#8, []⟩]) = .next t) ∧
    ∀ rest, (delivered.setPending [.command ⟨0x41#8, []⟩]).pending ≠ .reset :: rest := ⟨⟨_, rfl⟩, by simp⟩

theorem witness_UnitsAreWrittenOnlyByTheirCommands :
    (∃ t, exec .zcdNext delivered = .next t ∧ isOsc .zcdNext = false) ∧
    (∃ t, exec (.oscHalf 1000) delivered = .next t ∧ isOsc (.oscHalf 1000) = true) ∧
    (∃ t, exec .lpfNext (filtering [0, 0] [100, 200]) = .next t) ∧ (∃ t, exec (.lpfInit 2000) (fresh []) = .next t) ∧
    (0 ≠ 1 ∧ ∃ t, exec (.zcdInit 0) (fresh [200]) = .next t) ∧ (∃ t, exec .zcdRewind delivered = .next t) ∧
    (delivered.zcd.init = true ∧ delivered.zcd.sel = .raw ∧ Instr.zcdNext ≠ .lpfNext ∧
      ∀ cutoff, Instr.zcdNext ≠ .lpfInit cutoff) :=
  ⟨⟨_, rfl, rfl⟩, ⟨_, rfl, rfl⟩, ⟨_, rfl⟩, ⟨_, rfl⟩, ⟨by decide, _, rfl⟩, ⟨_, rfl⟩, rfl, rfl, by decide, by simp⟩

theorem witness_ConstructedUnitsStayConstructed :
    (∃ t, step (onFilter.setPending [.command ⟨0x41#8, []⟩]) = .next t) ∧
    (∀ rest, (onFilter.setPending [.command ⟨0x41#8, []⟩]).pending ≠ .reset :: rest) ∧
    onFilter.lpf.init = true ∧ onFilter.zcd.init = true := ⟨⟨_, rfl⟩, by simp, rfl, rfl⟩

theorem witness_EncodeAndDecodeSidesAreIndependent :
    (isOsc .oscEnd = true ∧ ∃ t, exec .oscEnd delivered = .next t) ∧
    (isOsc .zcdNext = false ∧ ∃ t, exec .zcdNext delivered = .next t) := ⟨⟨rfl, _, rfl⟩, rfl, _, rfl⟩

theorem witness_no_fault : (fresh []).fault = .none ∧ delivered.fault = .none := ⟨rfl, rfl⟩

/-- Both phases, at `n = 0` (just above half the rate), at `n = 1` exactly, and `f = 0`. -/
theorem witness_HalfEmitsThePhaseAndInvertsIt :
    (fresh []).fault = .none ∧ (fresh []).osc.phase = .high ∧ { fresh [] with osc := ⟨.low, []⟩ }.osc.phase = .low ∧
    (0 < (4001 : ℚ) ∧ ((0 : ℕ) : ℚ) ≤ (fresh []).params.oscSampleRate / (2 * 4001) ∧
      ((fresh []).params.oscSampleRate : ℚ) / (2 * 4001) < (0 : ℕ) + 1) ∧
    (0 < (4000 : ℚ) ∧ ((1 : ℕ) : ℚ) ≤ (fresh []).params.oscSampleRate / (2 * 4000) ∧
      ((fresh []).params.oscSampleRate : ℚ) / (2 * 4000) < (1 : ℕ) + 1) ∧ (0 : ℚ) ≤ 0 := by
  refine ⟨rfl, rfl, rfl, ?_, ?_, le_refl _⟩ <;> norm_num [fresh, State.resetOf, params]

/-- The bounds as for `OSC.HALF`, and `f = 0`. -/
theorem witness_OscsEmitsWholeCycles :
    (fresh []).fault = .none ∧ 0 < (2000 : ℚ) ∧ ((2 : ℕ) : ℚ) ≤ (fresh []).params.oscSampleRate / (2 * 2000) ∧
    ((fresh []).params.oscSampleRate : ℚ) / (2 * 2000) < (2 : ℕ) + 1 ∧ (0 : ℚ) ≤ 0 := by
  refine ⟨rfl, ?_⟩; norm_num [fresh, State.resetOf, params]

/-- `seconds = 0`, a natural product, `f = 0`, and negative seconds. -/
theorem witness_SecsEmitsCyclesForTheTime :
    (fresh []).fault = .none ∧ (0 < (1000 : ℚ) ∧ (0 : ℚ) ≤ 0 ∧
      ((4 : ℕ) : ℚ) ≤ (fresh []).params.oscSampleRate / (2 * 1000) ∧
      ((fresh []).params.oscSampleRate : ℚ) / (2 * 1000) < (4 : ℕ) + 1) ∧
    (1000 : ℚ) * 0 = (0 : ℕ) ∧ (1000 : ℚ) * (1 / 500) = (2 : ℕ) ∧
    ((0 : ℚ) ≤ 0 ∨ (1 : ℚ) < 0) ∧ ((1000 : ℚ) ≤ 0 ∨ (-1 : ℚ) < 0) := by
  refine ⟨rfl, ?_⟩; norm_num [fresh, State.resetOf, params]

theorem witness_OscillatorEquivalences :
    (fresh []).fault = .none ∧ 0 < (2000 : ℚ) ∧ (0 : ℚ) ≤ 0 := ⟨rfl, by norm_num, le_refl _⟩

theorem witness_OutputGrowsByTheListedCounts :
    (fresh []).fault = .none ∧ (execMany [.oscBegin, .oscHalf 1000, .oscOscs 2000 0] (fresh [])).fault = .none := by
  decide +kernel

/-- Both parities occur, and a fault ends the count: the third command faults and the fourth is refused. -/
theorem witness_PhaseFollowsTheParityOfHalfOscillations :
    executedHalfOscillations [.oscHalf 1000, .oscOscs 2000 1, .oscHalf 0, .oscHalf 1000] (fresh []) = 3 ∧
    executedHalfOscillations [.oscHalf 1000, .oscSilence 1, .oscHalf 5000] (fresh []) = 2 := by
  decide +kernel

theorem witness_SilenceKeepsThePhaseContinuous :
    (fresh []).fault = .none ∧ 0 < (2000 : ℚ) ∧ ((2 : ℕ) : ℚ) ≤ (fresh []).params.oscSampleRate / (2 * 2000) ∧
    ((fresh []).params.oscSampleRate : ℚ) / (2 * 2000) < (2 : ℕ) + 1 := by
  refine ⟨rfl, ?_⟩; norm_num [fresh, State.resetOf, params]

theorem fresh_validFormat (xs : List ℤ) : ValidFormat (fresh xs).params := ⟨by simp [fresh, State.resetOf, params], .inl rfl⟩

/-- The tie 2.5 at its lower bound, a constructed filter, a bad format, an owned input, `cutoff = 0`, and a window of 0. -/
theorem witness_LpfInitConstructsAZeroWindow :
    ((fresh []).fault = .none ∧ (fresh []).lpf.init = false ∧ ValidFormat (fresh []).params ∧
      ¬ ((fresh []).zcd.init = true ∧ (fresh []).zcd.sel = .raw) ∧ 0 < (3200 : ℚ) ∧ 1 ≤ 3 ∧
      ((3 : ℕ) : ℚ) - 1 / 2 ≤ (fresh []).params.srcSampleRate / 3200 ∧
      ((fresh []).params.srcSampleRate : ℚ) / 3200 < (3 : ℕ) + 1 / 2) ∧
    (filtering [0] []).lpf.init = true ∧
    (badFormat.lpf.init = false ∧ ¬ ValidFormat badFormat.params) ∧
    (delivered.lpf.init = false ∧ ValidFormat delivered.params ∧ delivered.zcd.init = true ∧
      delivered.zcd.sel = .raw) ∧
    (0 : ℚ) ≤ 0 ∧ ((fresh []).params.srcSampleRate : ℚ) / 16001 < 1 / 2 := by
  refine ⟨⟨rfl, rfl, fresh_validFormat _, by decide, ?_⟩, rfl, ⟨rfl, fun h => h.1 rfl⟩,
    ⟨rfl, fresh_validFormat _, rfl, rfl⟩, le_refl _, ?_⟩ <;> norm_num [fresh, State.resetOf, params]

/-- No filter, a filter the detector owns, the end of the input, a sample one past the range, a sample at its top. -/
theorem witness_LpfNextSlidesTheWindow :
    (fresh []).lpf.init = false ∧
    (onFilter.lpf.init = true ∧ onFilter.zcd.init = true ∧ onFilter.zcd.sel = .lpf) ∧
    ((filtering [0] []).fault = .none ∧ (filtering [0] []).lpf.init = true ∧
      ¬ ((filtering [0] []).zcd.init = true ∧ (filtering [0] []).zcd.sel = .lpf) ∧
      (filtering [0] []).params.srcSamples.length ≤ (filtering [0] []).srcIndex) ∧
    ((filtering [0] [256]).params.srcSamples[(filtering [0] [256]).srcIndex]? = some 256 ∧
      ((256 : ℤ) < 0 ∨ (2 : ℤ) ^ (filtering [0] [256]).params.srcBitsPerSample - 1 < 256)) ∧
    ((filtering [0, 7] [255]).params.srcSamples[(filtering [0, 7] [255]).srcIndex]? = some 255 ∧ (0 : ℤ) ≤ 255 ∧
      (255 : ℤ) ≤ 2 ^ (filtering [0, 7] [255]).params.srcBitsPerSample - 1 ∧
      (filtering [0, 7] [255]).lpf.window = 0 :: [7] ∧ (filtering [0, 7] [255]).lpf.W ≠ 0) := by decide

theorem filtering_unreadInRange : (filtering [0, 0] [100, 200]).UnreadInRange := by
  unfold State.UnreadInRange; decide

/-- The sample read is the top of the range, and a later sample is out of range. -/
theorem witness_FilterOutputIsTheMovingAverage :
    (filtering [0, 0] [255, 256]).Inv ∧ (filtering [0, 0] [255, 256]).fault = .none ∧
    (filtering [0, 0] [255, 256]).lpf.init = true ∧
    ¬ ((filtering [0, 0] [255, 256]).zcd.init = true ∧ (filtering [0, 0] [255, 256]).zcd.sel = .lpf) ∧
    (filtering [0, 0] [255, 256]).params.srcSamples[(filtering [0, 0] [255, 256]).srcIndex]? = some 255 ∧
    (0 : ℤ) ≤ 255 ∧ (255 : ℤ) ≤ 2 ^ (filtering [0, 0] [255, 256]).params.srcBitsPerSample - 1 :=
  ⟨filtering_inv _, rfl, rfl, by decide, rfl, by decide, by decide⟩

theorem witness_FilterOutputStaysInSampleRange :
    (filtering [0, 0] [100, 200]).Inv ∧ (filtering [0, 0] [100, 200]).fault = .none ∧
    ∃ t, exec .lpfNext (filtering [0, 0] [100, 200]) = .next t ∧
      t.responses = (filtering [0, 0] [100, 200]).responses ++ [.sample 50] :=
  ⟨filtering_inv _, rfl, _, rfl, by decide +kernel⟩

/-- The three bit depths, and a sample above, below and at the threshold. -/
theorem witness_PolarityIsAboveOrBelowTheThreshold :
    (params []).srcBitsPerSample = 8 ∧ { params [] with srcBitsPerSample := 16 }.srcBitsPerSample = 16 ∧
    { params [] with srcBitsPerSample := 32 }.srcBitsPerSample = 32 ∧ threshold (params []) < 129 ∧
    127 < threshold (params []) ∧ 128 = threshold (params []) := by
  norm_num [threshold, params]

/-- Constructed, `sel = 2`, a bad format, no filter below, the filter owning the input, an empty stream, a sample out of
range, and a first sample at the top of the range on either stream. -/
theorem witness_ZcdInitConsumesTheFirstSample :
    (fresh []).fault = .none ∧ delivered.zcd.init = true ∧
    ((fresh []).zcd.init = false ∧ 2 ≠ 0 ∧ 2 ≠ 1) ∧
    (badFormat.zcd.init = false ∧ (0 = 0 ∨ 0 = 1) ∧ ¬ ValidFormat badFormat.params) ∧
    (ValidFormat (fresh []).params ∧ (fresh []).lpf.init = false) ∧
    (ValidFormat (filtering [0] []).params ∧ (filtering [0] []).lpf.init = true) ∧
    (fresh []).params.srcSamples.length ≤ (fresh []).srcIndex ∧
    ((fresh [-1]).params.srcSamples[(fresh [-1]).srcIndex]? = some (-1) ∧ (-1 : ℤ) < 0) ∧
    ((fresh [255]).params.srcSamples[(fresh [255]).srcIndex]? = some 255 ∧ (0 : ℤ) ≤ 255 ∧
      (255 : ℤ) ≤ 2 ^ (fresh [255]).params.srcBitsPerSample - 1) ∧
    ((filtering [0, 7] [255]).lpf.window = 0 :: [7] ∧ (filtering [0, 7] [255]).lpf.W ≠ 0) :=
  ⟨rfl, rfl, by decide, ⟨rfl, by decide, fun h => h.1 rfl⟩, ⟨fresh_validFormat _, rfl⟩, ⟨fresh_validFormat _, rfl⟩,
    by decide, by decide, by decide, by decide⟩

/-- Not constructed; a replay; a run ended by the very next sample; the last run with no sample left; the end; a first
sample out of range. -/
theorem witness_ZcdNextDeliversTheRunInProgress :
    (fresh []).zcd.init = false ∧
    (rewound.fault = .none ∧ rewound.zcd.init = true ∧ rewound.zcd.replay = true ∧
      rewound.zcd.last = some (4000 / 3, ⟨6, 6 / 8000⟩)) ∧
    ((detector [200, 50] true).fault = .none ∧ (detector [200, 50] true).zcd.init = true ∧
      (detector [200, 50] true).zcd.replay = false ∧ (detector [200, 50] true).params.srcSampleRate ≠ 0 ∧
      (detector [200, 50] true).zcd.runLen ≠ 0 ∧ (detector [200, 50] true).upcoming = [] ++ 50 :: [] ∧
      (∀ x ∈ ((detector [200, 50] true).params.srcSamples.drop 1).take 1,
        sampleInRange (detector [200, 50] true).params x = true) ∧
      polarity (detector [200, 50] true).params 50 true ≠ true) ∧
    ((detector [200] true).zcd.runLen ≠ 0 ∧ (detector [200] true).upcoming = [] ∧
      (detector [200] true).UnreadInRange ∧
      (detector [200] true).srcIndex ≤ (detector [200] true).params.srcSamples.length) ∧
    (ended.zcd.init = true ∧ ended.zcd.replay = false ∧ ended.zcd.runLen = 0 ∧
      ended.params.srcSamples.length ≤ ended.srcIndex) ∧
    ((detector [200, 256] true).params.srcSamples.drop 1 = [] ++ 256 :: [] ∧
      sampleInRange (detector [200, 256] true).params 256 = false) := by
  refine ⟨rfl, ⟨rfl, rfl, rfl, rfl⟩, ⟨rfl, rfl, rfl, by decide, by decide, by decide +kernel, by decide,
    by decide +kernel⟩, ⟨by decide, rfl, by unfold State.UnreadInRange; decide, by decide⟩,
    ⟨rfl, rfl, rfl, by decide⟩, rfl, by decide⟩

/-- The five clauses exclude each other. -/
theorem witness_ZcdRewindArmsTheReplay :
    (fresh []).zcd.init = false ∧ (rewound.zcd.init = true ∧ rewound.zcd.replay = true) ∧
    (ended.zcd.replay = false ∧ ended.zcd.lastWasEnd = true) ∧
    ((detector [200] true).zcd.init = true ∧ (detector [200] true).zcd.replay = false ∧
      (detector [200] true).zcd.lastWasEnd = false ∧ (detector [200] true).zcd.last = none) ∧
    (delivered.fault = .none ∧ delivered.zcd.init = true ∧ delivered.zcd.replay = false ∧
      delivered.zcd.lastWasEnd = false ∧ delivered.zcd.last ≠ none) := by decide +kernel

theorem witness_ZcdPosAnswersTheLastPosition :
    (fresh []).zcd.init = false ∧ (rewound.zcd.init = true ∧ rewound.params.srcSampleRate ≠ 0 ∧
      rewound.zcd.replay = true) ∧
    (delivered.fault = .none ∧ delivered.zcd.replay = false ∧
      delivered.zcd.last = some (4000 / 3, ⟨6, 6 / 8000⟩)) ∧
    ((detector [200] true).zcd.replay = false ∧ (detector [200] true).zcd.last = none) := by decide +kernel

theorem witness_RewindThenNextRedeliversTheValue :
    delivered.fault = .none ∧ delivered.zcd.init = true ∧ delivered.zcd.replay = false ∧
    delivered.zcd.lastWasEnd = false ∧ delivered.zcd.last = some (4000 / 3, ⟨6, 6 / 8000⟩) :=
  ⟨rfl, rfl, rfl, rfl, rfl⟩

/-- On the raw input, and on the filter's output. -/
theorem witness_DetectorDeliversTheRunsOfItsStream :
    ((fresh [200, 200, 50]).Inv ∧ (fresh [200, 200, 50]).fault = .none ∧ (fresh [200, 200, 50]).zcd.init = false ∧
      ValidFormat (fresh [200, 200, 50]).params ∧ (fresh [200, 200, 50]).lpf.init = false ∧
      (fresh [200, 200, 50]).UnreadInRange ∧ (fresh [200, 200, 50]).upcoming = 200 :: [200, 50]) ∧
    ((filtering [0, 0] [100, 200]).Inv ∧ (filtering [0, 0] [100, 200]).zcd.init = false ∧
      (filtering [0, 0] [100, 200]).lpf.init = true ∧ (filtering [0, 0] [100, 200]).UnreadInRange ∧
      { filtering [0, 0] [100, 200] with zcd := { (filtering [0, 0] [100, 200]).zcd with sel := .lpf } }.upcoming =
        50 :: [150]) :=
  ⟨⟨fresh_inv, rfl, rfl, fresh_validFormat _, rfl, by unfold State.UnreadInRange; decide,
    by decide +kernel⟩, filtering_inv _, rfl, rfl,
    filtering_unreadInRange, by decide +kernel⟩

/-- Two cycles of two samples a half, one step on each side of the threshold. -/
theorem witness_SquareWaveGivesTwoHalfPeriodsACycle :
    ValidFormat (params [129, 129, 127, 127, 129, 129, 127, 127]) ∧
    sampleInRange (params [129, 129, 127, 127, 129, 129, 127, 127]) 129 = true ∧
    sampleInRange (params [129, 129, 127, 127, 129, 129, 127, 127]) 127 = true ∧ 1 ≤ 2 ∧
    (((129 : ℤ) : ℚ) > threshold (params [129, 129, 127, 127, 129, 129, 127, 127]) ∧
      ((127 : ℤ) : ℚ) < threshold (params [129, 129, 127, 127, 129, 129, 127, 127])) ∧
    (params [129, 129, 127, 127, 129, 129, 127, 127]).srcSamples =
      (List.replicate 2 (List.replicate 2 129 ++ List.replicate 2 127)).flatten :=
  ⟨fresh_validFormat _, by decide, by decide, by decide, by norm_num [threshold, params], rfl⟩

/-- One cycle that starts below the threshold, one sample a half. -/
theorem witness_SquareWave_from_below :
    ValidFormat (params [127, 129]) ∧ sampleInRange (params [127, 129]) 127 = true ∧
    sampleInRange (params [127, 129]) 129 = true ∧ 1 ≤ 1 ∧
    (((127 : ℤ) : ℚ) < threshold (params [127, 129]) ∧ ((129 : ℤ) : ℚ) > threshold (params [127, 129])) ∧
    (params [127, 129]).srcSamples = (List.replicate 1 (List.replicate 1 127 ++ List.replicate 1 129)).flatten :=
  ⟨fresh_validFormat _, by decide, by decide, by decide, by norm_num [threshold, params], rfl⟩

/-- One cycle at half the rate: one sample a half. -/
theorem witness_OscillatorOutputReadsBackAsItsFrequency :
    0 < (4000 : ℚ) ∧ 1 ≤ 1 ∧ (params [0xFE, 0x02]).srcSampleRate = (params []).oscSampleRate ∧
    (params [0xFE, 0x02]).srcBitsPerSample = 8 ∧ ((1 : ℕ) : ℚ) ≤ (params []).oscSampleRate / (2 * 4000) ∧
    ((params []).oscSampleRate : ℚ) / (2 * 4000) < (1 : ℕ) + 1 ∧
    (params [0xFE, 0x02]).srcSamples =
      (execMany [.oscOscs 4000 1] (State.resetOf (params []))).osc.out.map Symbol.byte8 :=
  ⟨by norm_num, by decide, rfl, rfl, by norm_num [params], by norm_num [params], by decide +kernel⟩

/-- Bounds at their edges: a band of one point, a run of one, a deviation of 0. -/
theorem witness_DetectorReadsComplete :
    delivered.Inv ∧ delivered.fault = .none ∧ delivered.zcd.init = true ∧ delivered.UnreadInRange ∧
    ((9 : ℚ) ≤ 9 ∧ 1 ≠ 0) ∧ (0 : ℚ) ≤ 0 :=
  ⟨delivered_inv, rfl, rfl, by unfold State.UnreadInRange; decide, ⟨le_refl _, by decide⟩, le_refl _⟩

/-- Whether the finders' hypotheses on reads hold: the values `vs` are delivered from `s`, and `last` is the read after
them. -/
def reads : List ℚ → Res (Option ℚ) → State → Bool
  | [], last, s => zcdNext s == last
  | v :: vs, last, s =>
    match zcdNext s with
    | .ok (some w) u => v == w && reads vs last u
    | .ok none _ => false
    | .raise _ => false

theorem delivers_of_reads {vs : List ℚ} {last : Res (Option ℚ)} {s : State} (h : reads vs last s = true) :
    ∃ u, Delivers vs s u ∧ zcdNext u = last := by
  induction vs generalizing s with
  | nil => exact ⟨s, rfl, by simpa [reads] using h⟩
  | cons v vs ih =>
    simp only [reads] at h
    split at h
    · next w u hn =>
      simp only [Bool.and_eq_true, beq_iff_eq] at h
      obtain ⟨rfl, h⟩ := h
      obtain ⟨t, ht, hl⟩ := ih h
      exact ⟨t, ⟨u, hn, ht⟩, hl⟩
    · cases h
    · cases h

/-- The stream of 2000, 2000 and 4000 Hz: a run of exactly `n = 2` in the band of one point, ended by 4000. -/
theorem witness_SyncFindStopsAfterTheFirstLongRun :
    (detector [200, 200, 50, 50, 200] true).fault = .none ∧
    (∃ u w, Delivers ([] ++ [2000, 2000]) (detector [200, 200, 50, 50, 200] true) u ∧
      zcdNext u = .ok (some 4000) w) ∧
    NoRun 2000 2000 2 [] ∧ (∀ v ∈ [(2000 : ℚ), 2000], inBand v 2000 2000 = true) ∧ inBand 4000 2000 2000 = false ∧
    2 ≤ [(2000 : ℚ), 2000].length := by
  refine ⟨rfl, ?_, ?_, by decide +kernel, by decide +kernel, by decide⟩
  · obtain ⟨u, h, e⟩ := delivers_of_reads (vs := [2000, 2000]) (s := detector [200, 200, 50, 50, 200] true)
      (last := .ok (some 4000) { detector [200, 200, 50, 50, 200] true with
        srcIndex := 5
        zcd := { (detector [200, 200, 50, 50, 200] true).zcd with
          positive := true, runLen := 0, consumed := 5, last := some (4000, ⟨5, 5 / 8000⟩),
          prevPos := ⟨5, 5 / 8000⟩ } }) (by decide +kernel)
    exact ⟨u, _, h, e⟩
  · intro w hw hl
    rw [List.infix_nil] at hw
    subst hw
    cases hl

/-- The same stream ending inside a run of `n = 3` in `[2000, 4000]`. -/
theorem witness_SyncFind_at_the_end :
    (∃ u w, Delivers ([] ++ [2000, 2000, 4000]) (detector [200, 200, 50, 50, 200] true) u ∧ zcdNext u = .ok none w) ∧
    (∀ v ∈ [(2000 : ℚ), 2000, 4000], inBand v 2000 4000 = true) ∧
    NoRun 5000 6000 1 [2000, 2000, 4000] := by
  refine ⟨?_, by decide +kernel, ?_⟩
  · obtain ⟨u, h, e⟩ := delivers_of_reads (vs := [2000, 2000, 4000]) (s := detector [200, 200, 50, 50, 200] true)
      (last := .ok none { detector [200, 200, 50, 50, 200] true with
        srcIndex := 5
        zcd := { (detector [200, 200, 50, 50, 200] true).zcd with
          positive := true, runLen := 0, consumed := 5, last := some (4000, ⟨5, 5 / 8000⟩),
          prevPos := ⟨5, 5 / 8000⟩, lastWasEnd := true } }) (by decide +kernel)
    exact ⟨u, _, h, e⟩
  · intro w hw hl
    obtain ⟨v, rfl⟩ := List.length_eq_one_iff.1 hl
    have hv : v ∈ [(2000 : ℚ), 2000, 4000] := hw.subset (by simp)
    have hd : ∀ v ∈ [(2000 : ℚ), 2000, 4000], inBand v 5000 6000 = false := by decide +kernel
    exact ⟨v, by simp, hd v hv⟩

/-- A sample out of range after one value. -/
theorem witness_SyncFind_fault :
    (∃ u, Delivers [2000] (detector [200, 200, 50, 256] true) u ∧ zcdNext u = .raise .sampleOutOfRange) ∧
    ∀ before run y after, [(2000 : ℚ)] = before ++ run ++ y :: after → run.length = 1 →
      (∀ v ∈ run, inBand v 2000 2000 = true) → inBand y 2000 2000 = true := by
  refine ⟨delivers_of_reads (by decide +kernel), ?_⟩
  intro before run y after h hl
  have := congrArg List.length h
  simp at this; omega

/-- The faults by operand: not constructed, `n = 0`, `hi < lo`, `d < 0`. -/
theorem witness_finder_faults :
    (fresh []).zcd.init = false ∧ delivered.zcd.init = true ∧ 0 = 0 ∧ (1 : ℚ) < 2 ∧ (-1 : ℚ) < 0 := by
  refine ⟨rfl, rfl, rfl, ?_, ?_⟩ <;> norm_num

/-- A run of exactly `n = 2` equal values ended by 4000 with `d = 0`, nothing skipped. -/
theorem witness_SyncDfindStopsAfterTheFirstSteadyRun :
    (detector [200, 200, 50, 50, 200] true).Inv ∧
    (∃ u w, Delivers ([] ++ 2000 :: [2000]) (detector [200, 200, 50, 50, 200] true) u ∧
      zcdNext u = .ok (some 4000) w) ∧
    Restarts 2 0 [] 2000 ∧ Steady 2 0 [2000, 2000] ∧ 2 ≤ [(2000 : ℚ), 2000].length ∧
    Deviates 2 0 [2000, 2000] 4000 := by
  refine ⟨detector_inv, ?_, .nil _, ⟨by simp, ?_⟩, by decide, ?_⟩
  · obtain ⟨-, ⟨u, w, h, e⟩, -⟩ := witness_SyncFindStopsAfterTheFirstLongRun
    exact ⟨u, w, h, e⟩
  · intro before v after h hb
    match before, hb with
    | [b], _ =>
      simp only [List.cons_append, List.nil_append, List.cons.injEq] at h
      obtain ⟨rfl, rfl, -⟩ := h
      norm_num [Deviates, runAverage, lastN]
    | _ :: _ :: bs, _ =>
      have := congrArg List.length h
      simp at this
  · norm_num [Deviates, runAverage, lastN]

/-- A restart: with `n = 3` and `d = 0` the run 2000, 2000 is too short, and 4000, which ends it, begins the next. -/
theorem witness_SyncDfind_restart :
    (∃ u w, Delivers ([2000, 2000] ++ 4000 :: []) (detector [200, 200, 50, 50, 200] true) u ∧
      zcdNext u = .ok none w) ∧
    Restarts 3 0 [2000, 2000] 4000 ∧ Steady 3 0 [4000] := by
  refine ⟨?_, ?_, by simp, ?_⟩
  · obtain ⟨⟨u, w, h, e⟩, -⟩ := witness_SyncFind_at_the_end
    exact ⟨u, w, h, e⟩
  · refine .cons 2000 [2000] [] 4000 ⟨by simp, ?_⟩ (by decide) ?_ (.nil _)
    · intro before v after h hb
      match before, hb with
      | [b], _ =>
        simp only [List.cons_append, List.nil_append, List.cons.injEq] at h
        obtain ⟨rfl, rfl, -⟩ := h
        norm_num [Deviates, runAverage, lastN]
      | _ :: _ :: bs, _ =>
        have := congrArg List.length h
        simp at this
    · norm_num [Deviates, runAverage, lastN]
  · intro before v after h hb
    match before, hb with
    | b :: bs, _ =>
      have := congrArg List.length h
      simp at this

/-- `Freq` at the end of the stream: with `n = 2` and `d = 1` the run 2000, 2000, 4000 is long enough when the stream ends,
4000 lying exactly at the bound. -/
theorem witness_SyncDfind_freq_at_the_end :
    (detector [200, 200, 50, 50, 200] true).Inv ∧
    (∃ u w, Delivers ([] ++ 2000 :: [2000, 4000]) (detector [200, 200, 50, 50, 200] true) u ∧
      zcdNext u = .ok none w) ∧
    Restarts 2 1 [] 2000 ∧ Steady 2 1 [2000, 2000, 4000] ∧ 2 ≤ [(2000 : ℚ), 2000, 4000].length := by
  refine ⟨detector_inv, witness_SyncFind_at_the_end.1, .nil _, ⟨by simp, ?_⟩, by decide⟩
  intro before v after h hb
  match before, hb with
  | [b], _ =>
    simp only [List.cons_append, List.nil_append, List.cons.injEq] at h
    obtain ⟨rfl, rfl, -⟩ := h
    norm_num [Deviates, runAverage, lastN]
  | [b, c], _ =>
    simp only [List.cons_append, List.nil_append, List.cons.injEq] at h
    obtain ⟨rfl, rfl, rfl, -⟩ := h
    norm_num [Deviates, runAverage, lastN]
  | _ :: _ :: _ :: bs, _ =>
    have := congrArg List.length h
    simp at this

/-- The stream has ended before the command, a sample out of range is read first, and one after a value. -/
theorem witness_SyncDfind_end_and_fault :
    (∃ w, zcdNext ended = .ok none w) ∧ zcdNext (detector [200, 256] true) = .raise .sampleOutOfRange ∧
    (∃ u, Delivers ([] ++ 2000 :: []) (detector [200, 200, 50, 256] true) u ∧
      zcdNext u = .raise .sampleOutOfRange) :=
  ⟨⟨_, rfl⟩, rfl, witness_SyncFind_fault.1⟩

theorem witness_FindersNeverRaiseARewindFault :
    rewound.fault = .none ∧ (∃ t, exec (.syncFind 1 2 1) rewound = .next t) ∧
    (∃ t, exec (.syncDfind 1 0) rewound = .next t) := ⟨rfl, ⟨_, rfl⟩, _, rfl⟩

/-- A find that leaves a replay, and one that leaves the detector at its end. -/
theorem witness_FindersLeaveAReplayOrTheEnd :
    (detector [200, 200, 50, 50, 200] true).Inv ∧ (detector [200, 200, 50, 50, 200] true).fault = .none ∧
    (∃ t, exec (.syncFind 2000 2000 2) (detector [200, 200, 50, 50, 200] true) = .next t ∧ t.fault = .none ∧
      t.zcd.replay = true) ∧
    (∃ t, exec (.syncDfind 4 0) (detector [200, 200, 50, 50, 200] true) = .next t ∧ t.fault = .none ∧
      t.zcd.replay = false ∧ t.responses = [.undefined]) := by
  refine ⟨detector_inv, rfl, ⟨_, rfl, ?_⟩, _, rfl, ?_⟩ <;> decide +kernel

/-- The three clauses: a band run ended by 4000, a stream that ends inside a run, and a steady run ended by 4000. -/
theorem witness_PositionAfterAFindIsTheRunsLast :
    ((detector [200, 200, 50, 50, 200] true).Inv ∧ (detector [200, 200, 50, 50, 200] true).fault = .none ∧
      (detector [200, 200, 50, 50, 200] true).zcd.init = true) ∧
    ((∃ u w, Delivers ([] ++ [2000, 2000]) (detector [200, 200, 50, 50, 200] true) u ∧
      zcdNext u = .ok (some 4000) w) ∧ NoRun 2000 2000 2 []) ∧
    ((∃ u w, Delivers [2000, 2000, 4000] (detector [200, 200, 50, 50, 200] true) u ∧ zcdNext u = .ok none w) ∧
      ∀ before run y after, [(2000 : ℚ), 2000, 4000] = before ++ run ++ y :: after → run.length = 3 →
        (∀ v ∈ run, inBand v 2000 4000 = true) → inBand y 2000 4000 = true) ∧
    (Restarts 2 0 [] 2000 ∧ Steady 2 0 [2000, 2000] ∧ Deviates 2 0 [2000, 2000] 4000) := by
  refine ⟨⟨detector_inv, rfl, rfl⟩, ⟨witness_SyncFindStopsAfterTheFirstLongRun.2.1,
    witness_SyncFindStopsAfterTheFirstLongRun.2.2.1⟩, ⟨witness_SyncFind_at_the_end.1, ?_⟩,
    witness_SyncDfindStopsAfterTheFirstSteadyRun.2.2.1, witness_SyncDfindStopsAfterTheFirstSteadyRun.2.2.2.1,
    witness_SyncDfindStopsAfterTheFirstSteadyRun.2.2.2.2.2⟩
  intro before run y after h hl
  have := congrArg List.length h
  simp at this; omega

/-- A band of one point, and one whose ends are swapped. -/
theorem witness_IsTestsTheClosedBand_and_OscisTestsTheMean :
    (fresh []).fault = .none ∧ (9 : ℚ) ≤ 9 ∧ (4 : ℚ) < 6 := ⟨rfl, le_refl _, by norm_num⟩

/-- Disjoint bands, a value in each, one between them; a malformed band on either side, and bands that share an end. -/
theorem witness_BitAnswersTheBandOfTheValue :
    (fresh []).fault = .none ∧ (1100 : ℚ) ≤ 1300 ∧ (2200 : ℚ) ≤ 2600 ∧
    (¬ ∃ x : ℚ, (1100 ≤ x ∧ x ≤ 1300) ∧ (2200 ≤ x ∧ x ≤ 2600)) ∧
    ((2200 : ℚ) ≤ 2200 ∧ (2200 : ℚ) ≤ 2600) ∧ ((1100 : ℚ) ≤ 1300 ∧ (1300 : ℚ) ≤ 1300) ∧
    (¬ ((2200 : ℚ) ≤ 1700 ∧ (1700 : ℚ) ≤ 2600) ∧ ¬ ((1100 : ℚ) ≤ 1700 ∧ (1700 : ℚ) ≤ 1300)) ∧
    (1 : ℚ) < 2 ∧ ∃ x : ℚ, (1000 ≤ x ∧ x ≤ 2000) ∧ (2000 ≤ x ∧ x ≤ 3000) := by
  refine ⟨rfl, by norm_num, by norm_num, ?_, by norm_num, by norm_num, by norm_num, by norm_num, 2000, by norm_num⟩
  rintro ⟨x, ⟨-, h1⟩, h2, -⟩
  linarith

theorem witness_ClassifierIsPure :
    isFcls (.fclsIs 9 9 9) = true ∧ (fresh []).fault = .none ∧ delivered.fault = .none ∧
    (∃ t, exec (.fclsIs 9 9 9) (fresh []) = .next t) ∧ ∃ t, exec (.fclsIs 9 9 9) delivered = .next t :=
  ⟨rfl, rfl, rfl, ⟨_, rfl⟩, _, rfl⟩

end Sys2Proof.Tests
end

section
/-! PROOFS of 00_scope.md. What one step does by the head of the command port, what a command does to the parameters and
the ports, and from these the statements of the scope. -/

namespace Sys2Proof.Machine

/-! ## One step, by the head of the command port -/

theorem step_of_idle {s : State} (h : s.pending = []) : step s = .next s := by
  simp [step, takeEvent, h]

theorem step_of_reset {s : State} {rest : List HostEvent} (h : s.pending = .reset :: rest) :
    step s = .next (s.setPending rest).applyReset := by
  simp [step, takeEvent, h]

theorem step_of_command {s : State} {c : Command} {rest : List HostEvent} (h : s.pending = .command c :: rest) :
    step s = issue c (s.setPending rest) := by
  simp [step, takeEvent, h]

theorem issue_of_decode_ok {c : Command} {i : Instr} (h : decode c = .ok i) (s : State) : issue c s = exec i s := by
  simp [issue, h]

theorem issue_of_decode_error {c : Command} {e : DecodeError} (h : decode c = .error e) (s : State) :
    issue c s = .next s.illegal := by
  simp [issue, h]

theorem exec_ctlStatus (s : State) : exec .ctlStatus s = .next (s.respond (.status s.fault.number)) := rfl

theorem State.illegal_of_none {s : State} (h : s.fault = .none) : s.illegal = s.enterFault .illegalCommand := if_pos h

theorem State.illegal_of_ne {s : State} (h : s.fault ≠ .none) : s.illegal = s.refuse := if_neg h

/-! ## One command, one response -/

/-- From `s` to `t` the response port took exactly one response, and the parameters and the command port stayed. Every
command does this, however it ends (00_scope.md R6, R10). -/
structure AnswersOnce (s t : State) : Prop where
  params : t.params = s.params
  pending : t.pending = s.pending
  responses : ∃ r, t.responses = s.responses ++ [r]

theorem State.respond_answersOnce (s : State) (r : Response) : AnswersOnce s (s.respond r) := ⟨rfl, rfl, r, rfl⟩

theorem State.enterFault_answersOnce (s : State) (c : FaultCode) : AnswersOnce s (s.enterFault c) :=
  ⟨rfl, rfl, .fault c, rfl⟩

theorem State.refuse_answersOnce (s : State) : AnswersOnce s s.refuse := s.respond_answersOnce (.refused s.fault)

theorem SameShell.respond_answersOnce {s t : State} (h : SameShell s t) (r : Response) :
    AnswersOnce s (t.respond r) := by
  obtain ⟨hparams, hpending, hresponses, -⟩ := h
  exact ⟨hparams, hpending, r, by simp [hresponses]⟩

theorem conclude_body_answersOnce (i : Instr) (s : State) : AnswersOnce s (s.conclude (body i s)) := by
  cases hb : body i s with
  | ok r t => exact (body_shell hb).respond_answersOnce r
  | raise c => exact s.enterFault_answersOnce c

theorem exec_answersOnce (i : Instr) (s : State) : ∃ t, exec i s = .next t ∧ AnswersOnce s t := by
  by_cases hs : s.fault = .none
  · exact ⟨_, exec_of_none i hs, conclude_body_answersOnce i s⟩
  by_cases hi : i = .ctlStatus
  · subst hi
    exact ⟨_, exec_ctlStatus s, s.respond_answersOnce _⟩
  · exact ⟨_, exec_of_ne hi hs, s.refuse_answersOnce⟩

theorem State.illegal_answersOnce (s : State) : AnswersOnce s s.illegal := by
  by_cases hs : s.fault = .none
  · rw [State.illegal_of_none hs]; exact s.enterFault_answersOnce .illegalCommand
  · rw [State.illegal_of_ne hs]; exact s.refuse_answersOnce

theorem issue_answersOnce (c : Command) (s : State) : ∃ t, issue c s = .next t ∧ AnswersOnce s t := by
  cases hd : decode c with
  | ok i => rw [issue_of_decode_ok hd]; exact exec_answersOnce i s
  | error e => exact ⟨_, issue_of_decode_error hd s, s.illegal_answersOnce⟩

/-- A step that takes a command off the port answers it once, on the rest of the port. -/
theorem step_command_answersOnce {s : State} {c : Command} {rest : List HostEvent}
    (h : s.pending = .command c :: rest) : ∃ t, step s = .next t ∧ AnswersOnce (s.setPending rest) t := by
  rw [step_of_command h]; exact issue_answersOnce c _

/-! ## The statements of 00_scope.md -/

/-- Settles O4: the step issues the command, and issuing one that decodes is running its instruction. -/
theorem stepRunsTheDecodedCommand : Obligations.StepRunsTheDecodedCommand := by
  intro s c rest i hport hdecode
  calc step s = issue c (s.setPending rest) := step_of_command hport
    _ = exec i { s with pending := rest } := issue_of_decode_ok hdecode _

/-- Settles O6, by the head of the command port: the idle port holds the state, a reset keeps the parameters, and so does
every command. -/
theorem noStepChangesAParameter : Obligations.NoStepChangesAParameter := by
  intro s t h
  match hport : s.pending with
  | [] => cases (step_of_idle hport).symm.trans h; rfl
  | .reset :: rest => cases (step_of_reset hport).symm.trans h; rfl
  | .command c :: rest =>
    obtain ⟨u, hu, honce⟩ := step_command_answersOnce hport
    cases hu.symm.trans h
    exact honce.params

/-- Settles O7: issuing a command, legal or not, answers once and leaves the rest of the port. -/
theorem everyCommandGivesExactlyOneResponse : Obligations.EveryCommandGivesExactlyOneResponse := by
  intro s c rest hport
  obtain ⟨t, ht, honce⟩ := step_command_answersOnce hport
  obtain ⟨r, hr⟩ := honce.responses
  exact ⟨t, r, ht, hr, honce.pending⟩

end Sys2Proof.Machine
end

section
/-! PROOFS of 10_state.md. What a command that succeeds does to the state elements, said once for each command
(`Effect`); from it the frames of the commands, what every step but reset keeps, the Oscillator's phase, and the
invariant of the reachable states. -/

namespace Sys2Proof.Machine

/-! ## What each body does -/

/-- One read or one rewind of the detector, as the finders' loops make them (43_sync_detector.md R172, R176). -/
def DetectorStep (s t : State) : Prop := (∃ r, zcdNext s = .ok r t) ∨ zcdRewind s = .ok () t

/-- Any number of reads and rewinds of the detector. -/
abbrev DetectorSteps : State → State → Prop := Relation.ReflTransGen DetectorStep

theorem DetectorStep.next {s t : State} {r : Option ℚ} (h : zcdNext s = .ok r t) : DetectorStep s t := .inl ⟨r, h⟩

theorem DetectorStep.rewind {s t : State} {u : Unit} (h : zcdRewind s = .ok u t) : DetectorStep s t := .inr h

theorem findLoop_detectorSteps {lo hi : ℚ} {n : ℕ} (fuel count : ℕ) {s t : State} {b : Bool}
    (h : findLoop lo hi n fuel count s = .ok b t) : DetectorSteps s t := by
  induction fuel generalizing count s with
  | zero => simp only [findLoop, Res.ok.injEq] at h; exact h.2 ▸ .refl
  | succ fuel ih =>
    unfold findLoop at h
    split at h
    · cases h
    · next hread => cases h; exact .single (.next hread)
    · next hread =>
      refine .head (.next hread) ?_
      split at h
      · exact ih _ h
      split at h
      · obtain ⟨_, hrewind, -⟩ := Res.map_eq_ok.1 h
        exact .single (.rewind hrewind)
      · exact ih _ h

theorem dfindLoop_detectorSteps {n : ℕ} {d : ℚ} (fuel : ℕ) (win : List ℚ) (run : ℕ) {s t : State} {r : Response}
    (h : dfindLoop n d fuel win run s = .ok r t) : DetectorSteps s t := by
  induction fuel generalizing win run s with
  | zero => simp only [dfindLoop, Res.ok.injEq] at h; exact h.2 ▸ .refl
  | succ fuel ih =>
    unfold dfindLoop at h
    split at h
    · cases h
    · next hread => cases h; exact .single (.next hread)
    · next hread =>
      refine .head (.next hread) ?_
      split at h
      · exact ih _ _ h
      split at h
      · split at h
        · obtain ⟨_, hrewind, -⟩ := Res.map_eq_ok.1 h
          exact .single (.rewind hrewind)
        · exact ih _ _ h
      · exact ih _ _ h

/-- The commands that read the detector. -/
def readsDetector : Instr → Bool
  | .zcdNext | .syncFind _ _ _ | .syncDfind _ _ => true
  | _ => false

/-- The commands that change no state element. -/
def IsPure (i : Instr) : Prop := isFcls i = true ∨ i = .zcdPos ∨ i = .ctlStatus

/-- The state from which `ZCD.INIT sel` reads its construction sample (42_zero_crossing.md R146). -/
def State.selecting (s : State) (sel : ℕ) : State := s.setZcd { s.zcd with sel := selOf sel, init := true }

/-- `Effect s i t`: the instruction `i`, run from `s` without a fault, writes `s` to `t`. One constructor per kind of
write in the column "set by" of 10_state.md R22, with the checks the command made before it. -/
inductive Effect (s : State) : Instr → State → Prop where
  /-- An `OSC` command appends to the output and inverts the phase once per half-oscillation. -/
  | osc {i : Instr} {o : Osc} (command : isOsc i = true) (output : s.osc.out <+: o.out)
      (phase : o.phase = s.osc.phase ↔ Even (halfOscillations i)) : Effect s i (s.setOsc o)
  | pure {i : Instr} (command : IsPure i) : Effect s i s
  | lpfInit {cutoff : ℚ} {W : ℕ} (fresh : s.lpf.init = false) (format : sourceFormatOk s.params = true)
      (unowned : s.zcdOwnsInput = false) (window : W ≠ 0) : Effect s (.lpfInit cutoff) (s.setLpf (Lpf.construct W))
  | lpfEnd : Effect s .lpfNext s
  | lpfNext {x : ℤ} (constructed : s.lpf.init = true) (unowned : s.zcdOwnsFilter = false)
      (sample : s.params.srcSamples[s.srcIndex]? = some x) (inRange : sampleInRange s.params x = true) :
      Effect s .lpfNext ((s.setSrcIndex (s.srcIndex + 1)).setLpf (s.lpf.push x))
  | zcdInitEnd {sel : ℕ} (fresh : s.zcd.init = false) (format : sourceFormatOk s.params = true)
      (stream : sel = 0 ∧ s.lpf.init = false ∨ sel = 1 ∧ s.lpf.init = true)
      (atEnd : s.params.srcSamples[s.srcIndex]? = none) :
      Effect s (.zcdInit sel) (s.setZcd (Zcd.construct s.params (selOf sel) none))
  | zcdInit {sel : ℕ} {x : ℤ} (fresh : s.zcd.init = false) (format : sourceFormatOk s.params = true)
      (stream : sel = 0 ∧ s.lpf.init = false ∨ sel = 1 ∧ s.lpf.init = true)
      (sample : s.params.srcSamples[s.srcIndex]? = some x) (inRange : sampleInRange s.params x = true) :
      Effect s (.zcdInit sel) (((s.selecting sel).taken 1).setZcd
        (Zcd.construct s.params (selOf sel) (some ((s.selecting sel).streamValue x))))
  | rewind {t : State} (constructed : s.zcd.init = true) (rewinds : zcdRewind s = .ok () t) : Effect s .zcdRewind t
  | reads {i : Instr} {t : State} (command : readsDetector i = true) (constructed : s.zcd.init = true)
      (steps : DetectorSteps s t) : Effect s i t

theorem selOf_eq_lpf_iff {s : State} {sel : ℕ}
    (stream : sel = 0 ∧ s.lpf.init = false ∨ sel = 1 ∧ s.lpf.init = true) :
    selOf sel = .lpf ↔ s.lpf.init = true := by
  obtain ⟨rfl, h⟩ | ⟨rfl, h⟩ := stream <;> simp [selOf, h]

theorem emit_effect {i : Instr} (command : isOsc i = true) (even : Even (halfOscillations i)) (s : State)
    (sym : Symbol) (n : ℕ) : Effect s i (s.emit sym n) :=
  .osc command (List.prefix_append _ _) (iff_of_true rfl even)

theorem halfOscillation_effect (s : State) (f : ℚ) (n : ℕ) : Effect s (.oscHalf f) (s.halfOscillation n) :=
  .osc rfl (List.prefix_append _ _) (iff_of_false (invert_ne _) (by simp [halfOscillations]))

theorem cycles_effect {i : Instr} (command : isOsc i = true) (even : Even (halfOscillations i)) (s : State)
    (n count : ℕ) : Effect s i (State.cycles n count s) := by
  rw [State.cycles_eq]
  exact .osc command (List.prefix_append _ _) (iff_of_true rfl even)

theorem runLpfInit_effect {cutoff : ℚ} {s t : State} {r : Response} (h : runLpfInit cutoff s = .ok r t) :
    Effect s (.lpfInit cutoff) t := by
  unfold runLpfInit at h
  split at h
  · cases h
  next fresh =>
  split at h
  · cases h
  next format =>
  split at h
  · cases h
  next unowned =>
  split at h
  · cases h
  split at h
  · cases h
  next window =>
  cases h
  exact .lpfInit (by simpa using fresh) (by simpa using format) (by simpa using unowned) window

theorem runLpfNext_effect {s t : State} {r : Response} (h : runLpfNext s = .ok r t) : Effect s .lpfNext t := by
  unfold runLpfNext at h
  split at h
  · cases h
  next constructed =>
  split at h
  · cases h
  next unowned =>
  obtain ⟨v, hread, -⟩ := Res.map_eq_ok.1 h
  cases hx : s.params.srcSamples[s.srcIndex]? with
  | none =>
    simp only [readLpf, readRaw_end hx, Res.ok.injEq] at hread
    exact hread.2 ▸ .lpfEnd
  | some x =>
    cases hr : sampleInRange s.params x with
    | false => simp [readLpf, readRaw_outOfRange hx hr] at hread
    | true =>
      simp only [readLpf, readRaw_sample hx hr, Res.ok.injEq] at hread
      exact hread.2 ▸ .lpfNext (by simpa using constructed) (by simpa using unowned) hx hr

theorem runZcdInit_effect {sel : ℕ} {s t : State} {r : Response} (h : runZcdInit sel s = .ok r t) :
    Effect s (.zcdInit sel) t := by
  unfold runZcdInit at h
  split at h
  · cases h
  next fresh =>
  split at h
  · cases h
  next legal =>
  split at h
  · cases h
  next format =>
  split at h
  · cases h
  next below =>
  split at h
  · cases h
  next unowned =>
  have fresh : s.zcd.init = false := by simpa using fresh
  have format : sourceFormatOk s.params = true := by simpa using format
  have stream : sel = 0 ∧ s.lpf.init = false ∨ sel = 1 ∧ s.lpf.init = true := by
    obtain rfl | rfl : sel = 0 ∨ sel = 1 := by omega
    · exact .inl ⟨rfl, by simpa using unowned⟩
    · exact .inr ⟨rfl, by simpa using below⟩
  split at h
  · cases h
  next first u hread =>
  cases h
  obtain ⟨hx, hcase⟩ | ⟨x, hx, hr, hcase⟩ | ⟨x, -, -, hcase⟩ := readZ_cases (s.selecting sel)
  · cases hcase.symm.trans hread; exact .zcdInitEnd fresh format stream hx
  · cases hcase.symm.trans hread; exact .zcdInit fresh format stream hx hr
  · cases hcase.symm.trans hread

/-- What a body that succeeds does. -/
theorem body_effect {i : Instr} {s t : State} {r : Response} (h : body i s = .ok r t) : Effect s i t := by
  cases i with
  | oscBegin | oscEnd | oscSilence _ => cases h; exact emit_effect rfl Even.zero s _ _
  | oscHalf f =>
    simp only [body, runOscHalf] at h
    split at h
    · cases h
    · cases h; exact halfOscillation_effect s f _
  | oscOscs f count =>
    simp only [body, runOscOscs] at h
    split at h
    · cases h
    · cases h; exact cycles_effect rfl (even_two_mul _) s _ _
  | oscSecs f seconds =>
    simp only [body, runOscSecs] at h
    split at h
    · cases h
    · cases h; exact cycles_effect rfl (even_two_mul _) s _ _
  | lpfInit cutoff => exact runLpfInit_effect h
  | lpfNext => exact runLpfNext_effect h
  | zcdInit sel => exact runZcdInit_effect h
  | zcdNext =>
    simp only [body, runZcdNext] at h
    split at h
    · cases h
    next constructed =>
    obtain ⟨_, hread, -⟩ := Res.map_eq_ok.1 h
    exact .reads rfl (by simpa using constructed) (.single (.next hread))
  | zcdRewind =>
    simp only [body, runZcdRewind] at h
    split at h
    · cases h
    next constructed =>
    obtain ⟨_, hrewind, -⟩ := Res.map_eq_ok.1 h
    exact .rewind (by simpa using constructed) hrewind
  | zcdPos =>
    simp only [body, runZcdPos] at h
    repeat' split at h
    all_goals cases h
    all_goals exact .pure (.inr (.inl rfl))
  | syncFind lo hi n =>
    simp only [body, runSyncFind] at h
    split at h
    · cases h
    next constructed =>
    split at h
    · cases h
    split at h
    · cases h
    obtain ⟨_, hloop, -⟩ := Res.map_eq_ok.1 h
    exact .reads rfl (by simpa using constructed) (findLoop_detectorSteps _ _ hloop)
  | syncDfind n d =>
    simp only [body, runSyncDfind] at h
    split at h
    · cases h
    next constructed =>
    split at h
    · cases h
    exact .reads rfl (by simpa using constructed) (dfindLoop_detectorSteps _ _ _ h)
  | fclsIs value lo hi =>
    simp only [body, runFclsIs] at h
    split at h <;> cases h
    exact .pure (.inl rfl)
  | fclsOscis h1 h2 lo hi =>
    simp only [body, runFclsOscis] at h
    split at h <;> cases h
    exact .pure (.inl rfl)
  | fclsBit value zeroLo zeroHi oneLo oneHi =>
    simp only [body, runFclsBit] at h
    repeat' split at h
    all_goals cases h
    exact .pure (.inl rfl)
  | ctlStatus => cases h; exact .pure (.inr (.inr rfl))

/-! ## What a command and a step do -/

/-- The parameters and every state element of 10_state.md R22 but the fault register agree. -/
structure SameUnits (s t : State) : Prop where
  params : t.params = s.params
  srcIndex : t.srcIndex = s.srcIndex
  osc : t.osc = s.osc
  lpf : t.lpf = s.lpf
  zcd : t.zcd = s.zcd

theorem State.respond_sameUnits (s : State) (r : Response) : SameUnits s (s.respond r) := ⟨rfl, rfl, rfl, rfl, rfl⟩

theorem State.enterFault_sameUnits (s : State) (c : FaultCode) : SameUnits s (s.enterFault c) :=
  ⟨rfl, rfl, rfl, rfl, rfl⟩

theorem State.refuse_sameUnits (s : State) : SameUnits s s.refuse := ⟨rfl, rfl, rfl, rfl, rfl⟩

/-- The command port is no unit. -/
theorem State.setPending_sameUnits (s : State) (es : List HostEvent) : SameUnits s (s.setPending es) :=
  ⟨rfl, rfl, rfl, rfl, rfl⟩

theorem SameUnits.refl (s : State) : SameUnits s s := ⟨rfl, rfl, rfl, rfl, rfl⟩

theorem SameUnits.trans {s t u : State} (h : SameUnits s t) (h' : SameUnits t u) : SameUnits s u :=
  ⟨h'.params.trans h.params, h'.srcIndex.trans h.srcIndex, h'.osc.trans h.osc, h'.lpf.trans h.lpf,
    h'.zcd.trans h.zcd⟩

theorem State.illegal_sameUnits (s : State) : SameUnits s s.illegal := by
  unfold State.illegal
  split
  · exact s.enterFault_sameUnits _
  · exact s.refuse_sameUnits

/-- A command takes effect and answers, or it faults or is refused and writes no unit (60_exceptions.md R213, R214). Only
`CTL.STATUS` takes effect in the faulted state. -/
theorem exec_effect {i : Instr} {s t : State} (h : exec i s = .next t) :
    (∃ r u, Effect s i u ∧ t = u.respond r ∧ (t.fault = .none ∨ i = .ctlStatus)) ∨
    (t.fault ≠ .none ∧ SameUnits s t) := by
  by_cases hs : s.fault = .none
  · obtain ⟨r, u, hb, rfl⟩ | ⟨c, hb, rfl⟩ := exec_cases h hs
    · obtain ⟨-, -, -, hfault⟩ := body_shell hb
      exact .inl ⟨r, u, body_effect hb, rfl, .inl (hfault.trans hs)⟩
    · exact .inr ⟨by simpa [hs] using body_raise hb, s.enterFault_sameUnits c⟩
  by_cases hi : i = .ctlStatus
  · subst hi
    cases (exec_ctlStatus s).symm.trans h
    exact .inl ⟨_, s, .pure (.inr (.inr rfl)), rfl, .inr rfl⟩
  · cases (exec_of_ne hi hs).symm.trans h
    exact .inr ⟨hs, s.refuse_sameUnits⟩

/-- The units after a command are those of the state it found or those its effect gives. -/
theorem exec_units {i : Instr} {s t : State} (h : exec i s = .next t) :
    ∃ u, (u = s ∨ Effect s i u) ∧ SameUnits u t := by
  obtain ⟨r, u, he, rfl, -⟩ | ⟨-, hsame⟩ := exec_effect h
  · exact ⟨u, .inr he, u.respond_sameUnits r⟩
  · exact ⟨s, .inl rfl, hsame⟩

/-- A step applies a reset, or it leaves the units alone, or they are those of the effect of one command. -/
theorem step_units {s t : State} (h : step s = .next t) :
    (∃ rest, s.pending = .reset :: rest ∧ t = (s.setPending rest).applyReset) ∨
    ∃ u, (u = s ∨ ∃ rest i, Effect (s.setPending rest) i u) ∧ SameUnits u t := by
  match hport : s.pending with
  | [] => cases (step_of_idle hport).symm.trans h; exact .inr ⟨s, .inl rfl, .refl s⟩
  | .reset :: rest => cases (step_of_reset hport).symm.trans h; exact .inl ⟨rest, rfl, rfl⟩
  | .command c :: rest =>
    rw [step_of_command hport] at h
    cases hd : decode c with
    | error e =>
      cases (issue_of_decode_error hd _).symm.trans h
      exact .inr ⟨s, .inl rfl, (s.setPending_sameUnits rest).trans (s.setPending rest).illegal_sameUnits⟩
    | ok i =>
      rw [issue_of_decode_ok hd] at h
      obtain ⟨u, rfl | he, hsame⟩ := exec_units h
      · exact .inr ⟨s, .inl rfl, (s.setPending_sameUnits rest).trans hsame⟩
      · exact .inr ⟨u, .inr ⟨rest, i, he⟩, hsame⟩

/-! ## What reads and rewinds of the detector leave alone -/

/-- A read of the stream keeps a constructed filter and its window length. -/
theorem State.taken_one_lpf_keeps {s : State} {x : ℤ} (sample : s.params.srcSamples[s.srcIndex]? = some x) :
    (s.taken 1).lpf.init = s.lpf.init ∧ (s.taken 1).lpf.W = s.lpf.W := by
  rw [State.taken_one_lpf sample]
  cases s.zcd.sel <;> exact ⟨rfl, rfl⟩

/-- From `s` to `t` a constructed detector only read and rewound its stream. -/
structure ReadFrame (s t : State) : Prop where
  osc : t.osc = s.osc
  cursor : s.srcIndex ≤ t.srcIndex
  raw : s.zcd.sel = .raw → t.lpf = s.lpf
  lpfInit : t.lpf.init = s.lpf.init
  W : t.lpf.W = s.lpf.W
  init : t.zcd.init = s.zcd.init
  sel : t.zcd.sel = s.zcd.sel
  initPos : t.zcd.initPos = s.zcd.initPos

theorem ReadFrame.refl (s : State) : ReadFrame s s := ⟨rfl, le_rfl, fun _ => rfl, rfl, rfl, rfl, rfl, rfl⟩

theorem ReadFrame.trans {s t u : State} (h : ReadFrame s t) (h' : ReadFrame t u) : ReadFrame s u where
  osc := h'.osc.trans h.osc
  cursor := h.cursor.trans h'.cursor
  raw hraw := (h'.raw (h.sel.trans hraw)).trans (h.raw hraw)
  lpfInit := h'.lpfInit.trans h.lpfInit
  W := h'.W.trans h.W
  init := h'.init.trans h.init
  sel := h'.sel.trans h.sel
  initPos := h'.initPos.trans h.initPos

theorem DetectorStep.frame {s t : State} (h : DetectorStep s t) : ReadFrame s t := by
  obtain ⟨r, hread⟩ | hrewind := h
  · obtain ⟨-, hosc, -, -, -, hcursor, hraw, hlpfInit, hW, hinit, hsel, hinitPos, -⟩ := zcdNext_frame hread
    exact ⟨hosc, hcursor, hraw, hlpfInit, hW, hinit, hsel, hinitPos⟩
  · obtain ⟨-, -, -, rfl⟩ := zcdRewind_cases hrewind
    exact ⟨rfl, le_rfl, fun _ => rfl, rfl, rfl, rfl, rfl, rfl⟩

theorem DetectorSteps.frame {s t : State} (h : DetectorSteps s t) : ReadFrame s t := by
  induction h with
  | refl => exact .refl s
  | tail _ hstep ih => exact ih.trans (DetectorStep.frame hstep)

/-! ## The frame of each command -/

section Frames

variable {s t : State} {i : Instr}

theorem IsPure.not_osc (h : IsPure i) : isOsc i = false := by
  obtain h | rfl | rfl := h
  · cases i <;> simp_all [isFcls, isOsc]
  · rfl
  · rfl

theorem not_osc_of_readsDetector (h : readsDetector i = true) : isOsc i = false := by
  cases i <;> simp_all [readsDetector, isOsc]

theorem halfOscillations_of_not_osc (h : isOsc i = false) : halfOscillations i = 0 := by
  cases i <;> simp_all [isOsc, halfOscillations]

/-- Only `OSC` commands write the Oscillator. -/
theorem Effect.osc_eq (he : Effect s i t) (hi : isOsc i = false) : t.osc = s.osc := by
  cases he with
  | osc command => simp [hi] at command
  | rewind _ rewinds => exact (DetectorStep.rewind rewinds).frame.osc
  | reads _ _ steps => exact (DetectorSteps.frame steps).osc
  | pure | lpfInit | lpfEnd | lpfNext | zcdInitEnd | zcdInit => rfl

/-- `OSC` commands and the pure ones leave the decode side alone. -/
theorem Effect.decodeSide_eq (he : Effect s i t) (hi : isOsc i = true ∨ IsPure i) :
    t.srcIndex = s.srcIndex ∧ t.lpf = s.lpf ∧ t.zcd = s.zcd := by
  cases he with
  | osc | pure => exact ⟨rfl, rfl, rfl⟩
  | reads command => cases i <;> simp_all [readsDetector, isOsc, IsPure, isFcls]
  | lpfInit | lpfEnd | lpfNext | zcdInitEnd | zcdInit | rewind => simp [isOsc, IsPure, isFcls] at hi

/-- `LPF.NEXT` does not write the detector. -/
theorem Effect.zcd_eq_of_lpfNext (he : Effect s .lpfNext t) : t.zcd = s.zcd := by
  cases he with
  | osc | lpfEnd | pure | lpfNext => rfl
  | reads command => simp [readsDetector] at command

/-- `LPF.INIT` writes the filter alone. -/
theorem Effect.frame_of_lpfInit {cutoff : ℚ} (he : Effect s (.lpfInit cutoff) t) :
    t.srcIndex = s.srcIndex ∧ t.zcd = s.zcd := by
  cases he with
  | osc | pure | lpfInit => exact ⟨rfl, rfl⟩
  | reads command => simp [readsDetector] at command

/-- `ZCD.INIT` on the raw input does not step the filter. -/
theorem Effect.lpf_eq_of_zcdInit {sel : ℕ} (he : Effect s (.zcdInit sel) t) (hsel : sel ≠ 1) : t.lpf = s.lpf := by
  cases he with
  | osc | pure | zcdInitEnd => rfl
  | zcdInit _ _ stream =>
    obtain ⟨rfl, -⟩ | ⟨rfl, -⟩ := stream
    · exact State.taken_lpf_of_raw (s := s.selecting 0) rfl 1
    · exact absurd rfl hsel
  | reads command => simp [readsDetector] at command

/-- `ZCD.REWIND` writes the replay flag alone. -/
theorem Effect.frame_of_zcdRewind (he : Effect s .zcdRewind t) :
    t.srcIndex = s.srcIndex ∧ t.lpf = s.lpf ∧ { t.zcd with replay := s.zcd.replay } = s.zcd := by
  cases he with
  | osc | pure => exact ⟨rfl, rfl, rfl⟩
  | rewind _ rewinds =>
    obtain ⟨-, -, -, rfl⟩ := zcdRewind_cases rewinds
    exact ⟨rfl, rfl, rfl⟩
  | reads command => simp [readsDetector] at command

/-- With a detector on the raw input only `LPF` commands write the filter. -/
theorem Effect.lpf_eq_of_raw (he : Effect s i t) (hinit : s.zcd.init = true) (hraw : s.zcd.sel = .raw)
    (hnext : i ≠ .lpfNext) (hinitCmd : ∀ cutoff, i ≠ .lpfInit cutoff) : t.lpf = s.lpf := by
  cases he with
  | osc | pure | lpfEnd => rfl
  | lpfInit => exact absurd rfl (hinitCmd _)
  | lpfNext => exact absurd rfl hnext
  | zcdInitEnd fresh | zcdInit fresh => simp [hinit] at fresh
  | rewind _ rewinds => exact (DetectorStep.rewind rewinds).frame.raw hraw
  | reads _ _ steps => exact (DetectorSteps.frame steps).raw hraw

end Frames

/-- Settles O21, by the effect of the command: a command that faults or is refused writes no unit. -/
theorem unitsAreWrittenOnlyByTheirCommands : Obligations.UnitsAreWrittenOnlyByTheirCommands := by
  intro i s t h
  obtain ⟨u, hu, hsame⟩ := exec_units h
  rw [hsame.srcIndex, hsame.osc, hsame.lpf, hsame.zcd]
  obtain rfl | he := hu
  · simp
  refine ⟨he.osc_eq, he.decodeSide_eq, ?_, ?_, ?_, ?_, he.lpf_eq_of_raw⟩
  · rintro (rfl | ⟨cutoff, rfl⟩)
    · exact he.zcd_eq_of_lpfNext
    · exact he.frame_of_lpfInit.2
  · rintro ⟨cutoff, rfl⟩
    exact he.frame_of_lpfInit.1
  · rintro ⟨sel, hsel, rfl⟩
    exact he.lpf_eq_of_zcdInit hsel
  · rintro rfl
    exact he.frame_of_zcdRewind

/-! ## What every step but reset keeps -/

/-- From `s` to `t` the streams only moved forward, and what was constructed stayed so (10_state.md R23, R25, R26, R27,
R30, R31, R35). -/
structure Progress (s t : State) : Prop where
  cursor : s.srcIndex ≤ t.srcIndex
  output : s.osc.out <+: t.osc.out
  filter : s.lpf.init = true → t.lpf.init = true ∧ t.lpf.W = s.lpf.W
  detector : s.zcd.init = true → t.zcd.init = true ∧ t.zcd.sel = s.zcd.sel ∧ t.zcd.initPos = s.zcd.initPos

theorem SameUnits.progress {s t : State} (h : SameUnits s t) : Progress s t := by
  constructor <;> simp [h.srcIndex, h.osc, h.lpf, h.zcd]

theorem Progress.trans {s t u : State} (h : Progress s t) (h' : Progress t u) : Progress s u where
  cursor := h.cursor.trans h'.cursor
  output := h.output.trans h'.output
  filter hs :=
    have ⟨ht, hW⟩ := h.filter hs
    have ⟨hu, hW'⟩ := h'.filter ht
    ⟨hu, hW'.trans hW⟩
  detector hs :=
    have ⟨ht, hsel, hpos⟩ := h.detector hs
    have ⟨hu, hsel', hpos'⟩ := h'.detector ht
    ⟨hu, hsel'.trans hsel, hpos'.trans hpos⟩

theorem ReadFrame.progress {s t : State} (h : ReadFrame s t) : Progress s t where
  cursor := h.cursor
  output := h.osc ▸ List.prefix_rfl
  filter hinit := ⟨h.lpfInit.trans hinit, h.W⟩
  detector hinit := ⟨h.init.trans hinit, h.sel, h.initPos⟩

theorem Effect.progress {s t : State} {i : Instr} (he : Effect s i t) : Progress s t := by
  have output : s.osc.out <+: s.osc.out := List.prefix_rfl
  cases he with
  | osc _ output => exact ⟨le_rfl, output, fun h => ⟨h, rfl⟩, fun h => ⟨h, rfl, rfl⟩⟩
  | pure | lpfEnd => exact (ReadFrame.refl s).progress
  | lpfInit fresh => exact ⟨le_rfl, output, fun h => by simp [fresh] at h, fun h => ⟨h, rfl, rfl⟩⟩
  | lpfNext => exact ⟨Nat.le_succ _, output, fun h => ⟨h, rfl⟩, fun h => ⟨h, rfl, rfl⟩⟩
  | zcdInitEnd fresh => exact ⟨le_rfl, output, fun h => ⟨h, rfl⟩, fun h => by simp [fresh] at h⟩
  | @zcdInit sel x fresh _ _ sample =>
    obtain ⟨hinit, hW⟩ := State.taken_one_lpf_keeps (s := s.selecting sel) sample
    exact ⟨Nat.le_succ _, output, fun h => ⟨hinit.trans h, hW⟩, fun h => by simp [fresh] at h⟩
  | rewind _ rewinds => exact (DetectorStep.rewind rewinds).frame.progress
  | reads _ _ steps => exact (DetectorSteps.frame steps).progress

theorem step_progress {s t : State} (h : step s = .next t) (hreset : ∀ rest, s.pending ≠ .reset :: rest) :
    Progress s t := by
  obtain ⟨rest, hport, -⟩ | ⟨u, hu, hsame⟩ := step_units h
  · exact absurd hport (hreset rest)
  obtain rfl | ⟨rest, i, he⟩ := hu
  · exact hsame.progress
  · exact ((s.setPending_sameUnits rest).progress.trans he.progress).trans hsame.progress

/-- Settles O20: no effect of a command moves the cursor back or drops a symbol. -/
theorem streamsOnlyMoveForward : Obligations.StreamsOnlyMoveForward := by
  intro s t h hreset
  have hprogress := step_progress h hreset
  exact ⟨hprogress.cursor, hprogress.output⟩

/-- Settles O22: the initializing commands fault on a constructed unit, and no other command writes these elements. -/
theorem constructedUnitsStayConstructed : Obligations.ConstructedUnitsStayConstructed := by
  intro s t h hreset
  have hprogress := step_progress h hreset
  exact ⟨hprogress.filter, hprogress.detector⟩

/-! ## The phase -/

theorem Effect.phase_iff {s t : State} {i : Instr} (he : Effect s i t) :
    t.osc.phase = s.osc.phase ↔ Even (halfOscillations i) := by
  cases hi : isOsc i with
  | false => simp [he.osc_eq hi, halfOscillations_of_not_osc hi]
  | true =>
    cases he with
    | osc _ _ phase => exact phase
    | pure command => simp [command.not_osc] at hi
    | reads command => simp [not_osc_of_readsDetector command] at hi
    | lpfInit | lpfEnd | lpfNext | zcdInitEnd | zcdInit | rewind => simp [isOsc] at hi

/-- One command: it executes its half-oscillations, or none where it faults or is refused (10_state.md R48). -/
theorem exec_phase_iff {i : Instr} {s t : State} (h : exec i s = .next t) :
    t.osc.phase = s.osc.phase ↔ Even (if t.fault = .none then halfOscillations i else 0) := by
  obtain ⟨r, u, he, rfl, hcounts⟩ | ⟨hfault, hsame⟩ := exec_effect h
  · have hcount : (if (u.respond r).fault = .none then halfOscillations i else 0) = halfOscillations i := by
      obtain hnone | rfl := hcounts
      · exact if_pos hnone
      · exact ite_self 0
    rw [hcount]
    exact he.phase_iff
  · simp [hfault, hsame.osc]

/-- There are two phases: two changes of the phase undo each other. -/
theorem phase_eq_iff (a b c : Phase) : c = a ↔ (b = a ↔ c = b) := by
  cases a <;> cases b <;> cases c <;> decide

theorem execMany_cons {i : Instr} {s t : State} (h : exec i s = .next t) (is : List Instr) :
    execMany (i :: is) s = execMany is t := by
  simp [execMany, h]

theorem executedHalfOscillations_cons {i : Instr} {s t : State} (h : exec i s = .next t) (is : List Instr) :
    executedHalfOscillations (i :: is) s =
      (if t.fault = .none then halfOscillations i else 0) + executedHalfOscillations is t := by
  simp [executedHalfOscillations, h]

theorem execMany_phase_iff (is : List Instr) (s : State) :
    (execMany is s).osc.phase = s.osc.phase ↔ Even (executedHalfOscillations is s) := by
  induction is generalizing s with
  | nil => simp [execMany, executedHalfOscillations]
  | cons i is ih =>
    obtain ⟨t, ht, -⟩ := exec_answersOnce i s
    rw [execMany_cons ht, executedHalfOscillations_cons ht, Nat.even_add, ← exec_phase_iff ht, ← ih t]
    exact phase_eq_iff _ _ _

/-- Settles O30, by induction over the commands. -/
theorem phaseFollowsTheParityOfHalfOscillations : Obligations.PhaseFollowsTheParityOfHalfOscillations :=
  ⟨execMany_phase_iff, fun is p => execMany_phase_iff is (State.resetOf p)⟩

/-! ## The invariant, in its parts -/

/-- The items of `State.Inv` that speak of the input port and the filter. -/
structure State.SourceInv (s : State) : Prop where
  cursor : s.srcIndex ≤ s.params.srcSamples.length
  readInRange : ∀ x ∈ s.params.srcSamples.take s.srcIndex, sampleInRange s.params x = true
  filter : s.lpf.init = true → 1 ≤ s.lpf.W ∧ s.lpf.window.length = s.lpf.W ∧ s.lpf.sum = s.lpf.window.sum
  window : s.lpf.init = true →
    s.lpf.window = lastN s.lpf.W (List.replicate s.lpf.W 0 ++ s.params.srcSamples.take s.srcIndex)
  fresh : s.lpf.init = false → s.lpf = Lpf.reset

/-- The items of `State.Inv` that speak of the detector's look-back slot and Positions. -/
structure Zcd.SlotInv (p : Params) (z : Zcd) : Prop where
  replay : z.replay = true → z.last ≠ none ∧ z.lastWasEnd = false
  last : ∀ h pos, z.last = some (h, pos) → 0 < h ∧ pos.samples ≤ z.consumed ∧ pos.Agrees p
  initPos : z.initPos.Agrees p
  prevPos : z.prevPos.Agrees p

/-- What `State.Inv` says of a state with a constructed detector. -/
structure State.DetectorInv (s : State) : Prop where
  source : s.SourceInv
  slot : s.zcd.SlotInv s.params
  constructed : s.zcd.init = true
  format : sourceFormatOk s.params = true
  stream : s.zcd.sel = .lpf ↔ s.lpf.init = true
  ended : s.zcd.runLen = 0 → s.srcIndex = s.params.srcSamples.length

theorem Position.agrees_zero (p : Params) : (⟨0, 0⟩ : Position).Agrees p := by simp [Position.Agrees]

theorem posOf_agrees {p : Params} (h : sourceFormatOk p = true) (n : ℕ) : (posOf p n).Agrees p :=
  posOf_seconds (sourceFormatOk_iff.1 h).1 n

section Parts

variable {s t : State}

theorem State.Inv.sourceInv (hi : s.Inv) : s.SourceInv :=
  ⟨hi.cursor, hi.readInRange, hi.filter, hi.window, hi.filterFresh⟩

theorem State.Inv.detectorInv (hi : s.Inv) (hz : s.zcd.init = true) : s.DetectorInv where
  source := hi.sourceInv
  slot := ⟨hi.replay, hi.last, hi.positions.1, hi.positions.2⟩
  constructed := hz
  format := hi.format (.inr hz)
  stream := by
    have howner := hi.oneOwner
    have hbelow := hi.filterBelow
    simp only [State.lpfOwnsInput, State.zcdOwnsInput, State.zcdOwnsFilter, hz] at howner hbelow
    cases hsel : s.zcd.sel <;> simp_all
  ended := hi.ended hz

theorem State.DetectorInv.inv (hd : s.DetectorInv) : s.Inv where
  cursor := hd.source.cursor
  readInRange := hd.source.readInRange
  unreadAtFirst _ hz := by simp [hd.constructed] at hz
  format _ := hd.format
  filter := hd.source.filter
  window := hd.source.window
  replay := hd.slot.replay
  ended _ := hd.ended
  last := hd.slot.last
  positions := ⟨hd.slot.initPos, hd.slot.prevPos⟩
  oneOwner := by simp +contextual [State.lpfOwnsInput, State.zcdOwnsInput, hd.constructed, ← hd.stream]
  filterBelow := by simp [State.zcdOwnsFilter, hd.constructed, hd.stream]
  detectorFresh hz := by simp [hd.constructed] at hz
  filterFresh := hd.source.fresh

/-- The invariant of a state with no detector. -/
theorem State.SourceInv.inv_of_zcd_reset (hs : s.SourceInv) (hz : s.zcd = Zcd.reset)
    (hunread : s.lpf.init = false → s.srcIndex = 0) (hformat : s.lpf.init = true → sourceFormatOk s.params = true) :
    s.Inv where
  cursor := hs.cursor
  readInRange := hs.readInRange
  unreadAtFirst h _ := hunread h
  format h := hformat (by simpa [hz, Zcd.reset] using h)
  filter := hs.filter
  window := hs.window
  replay h := by simp [hz, Zcd.reset] at h
  ended h := by simp [hz, Zcd.reset] at h
  last h p e := by simp [hz, Zcd.reset] at e
  positions := by rw [hz]; exact ⟨Position.agrees_zero _, Position.agrees_zero _⟩
  oneOwner := by simp [State.zcdOwnsInput, hz, Zcd.reset]
  filterBelow := by simp [State.zcdOwnsFilter, hz, Zcd.reset]
  detectorFresh _ := hz
  filterFresh := hs.fresh

/-- The invariant does not read the Oscillator, the fault register or the ports. -/
theorem State.Inv.congr (hi : s.Inv) (hp : t.params = s.params) (hc : t.srcIndex = s.srcIndex)
    (hl : t.lpf = s.lpf) (hz : t.zcd = s.zcd) : t.Inv := by
  cases s; cases t
  subst hp hc hl hz
  exact ⟨hi.cursor, hi.readInRange, hi.unreadAtFirst, hi.format, hi.filter, hi.window, hi.replay, hi.ended, hi.last,
    hi.positions, hi.oneOwner, hi.filterBelow, hi.detectorFresh, hi.filterFresh⟩

theorem SameUnits.inv (h : SameUnits s t) (hi : s.Inv) : t.Inv := hi.congr h.params h.srcIndex h.lpf h.zcd

/-- The invariant after reset (10_state.md R22, R47). -/
theorem State.resetOf_inv (p : Params) : (State.resetOf p).Inv :=
  State.SourceInv.inv_of_zcd_reset
    ⟨Nat.zero_le _, by simp [State.resetOf], by simp [State.resetOf, Lpf.reset], by simp [State.resetOf, Lpf.reset],
      fun _ => rfl⟩
    rfl (fun _ => rfl) (by simp [State.resetOf, Lpf.reset])

/-! ## The input port and the filter -/

/-- The next sample is read, through the filter where there is one (41_lowpass_filter.md R124). -/
theorem State.SourceInv.read {x : ℤ} (hs : s.SourceInv) (sample : s.params.srcSamples[s.srcIndex]? = some x)
    (inRange : sampleInRange s.params x = true) (hp : t.params = s.params) (hc : t.srcIndex = s.srcIndex + 1)
    (hl : t.lpf = if s.lpf.init then s.lpf.push x else s.lpf) : t.SourceInv := by
  obtain ⟨hlt, hx⟩ := List.getElem?_eq_some_iff.1 sample
  have hcursor : t.srcIndex ≤ t.params.srcSamples.length := by rw [hc, hp]; exact hlt
  have htake : t.params.srcSamples.take t.srcIndex = s.params.srcSamples.take s.srcIndex ++ [x] := by
    rw [hc, hp, List.take_add_one, sample]; rfl
  have hread : ∀ y ∈ t.params.srcSamples.take t.srcIndex, sampleInRange t.params y = true := by
    rw [htake, hp]
    intro y hy
    obtain hy | hy := List.mem_append.1 hy
    · exact hs.readInRange y hy
    · rw [List.mem_singleton.1 hy]; exact inRange
  cases hinit : s.lpf.init with
  | false =>
    have hl : t.lpf = s.lpf := by simpa [hinit] using hl
    exact ⟨hcursor, hread, by simp [hl, hinit], by simp [hl, hinit], fun _ => hl.trans (hs.fresh hinit)⟩
  | true =>
    have hl : t.lpf = s.lpf.push x := by simpa [hinit] using hl
    obtain ⟨hfilter, hwindow⟩ := Lpf.push_window x (hs.filter hinit) (hs.window hinit)
    refine ⟨hcursor, hread, fun _ => ?_, fun _ => ?_, fun h => ?_⟩
    · rw [hl]; exact hfilter
    · rw [hl, htake]; exact hwindow
    · simp [hl, Lpf.push, hinit] at h

/-- A detector's stream reads the filter where there is one, so one read keeps the source's invariant. -/
theorem State.SourceInv.taken_one {x : ℤ} (hs : s.SourceInv) (hstream : s.zcd.sel = .lpf ↔ s.lpf.init = true)
    (sample : s.params.srcSamples[s.srcIndex]? = some x) (inRange : sampleInRange s.params x = true) :
    (s.taken 1).SourceInv := by
  refine hs.read sample inRange rfl rfl ?_
  rw [State.taken_one_lpf sample]
  cases hsel : s.zcd.sel <;> simp_all

theorem State.SourceInv.setZcd (hs : s.SourceInv) (z : Zcd) : (s.setZcd z).SourceInv :=
  ⟨hs.cursor, hs.readInRange, hs.filter, hs.window, hs.fresh⟩

theorem State.SourceInv.srcIndex_eq_of_end (hs : s.SourceInv) (atEnd : s.params.srcSamples[s.srcIndex]? = none) :
    s.srcIndex = s.params.srcSamples.length :=
  le_antisymm hs.cursor (List.getElem?_eq_none_iff.1 atEnd)

/-- A window of zeros, before the first sample (41_lowpass_filter.md R122). -/
theorem State.SourceInv.setLpf_construct {W : ℕ} (hs : s.SourceInv) (hunread : s.srcIndex = 0) (hW : W ≠ 0) :
    (s.setLpf (Lpf.construct W)).SourceInv where
  cursor := hs.cursor
  readInRange := hs.readInRange
  filter _ := by simpa [Lpf.construct] using Nat.one_le_iff_ne_zero.2 hW
  window _ := by simp [Lpf.construct, hunread, lastN]
  fresh h := by cases h

end Parts

/-! ## The detector -/

section Detector

variable {s t : State} {p : Params} {z : Zcd}

theorem Zcd.SlotInv.curPos_agrees (hz : z.SlotInv p) : z.curPos.Agrees p := by
  cases hlast : z.last with
  | none => simpa [Zcd.curPos, hlast] using hz.initPos
  | some slot => simpa [Zcd.curPos, hlast] using (hz.last _ _ hlast).2.2

/-- The detector right after construction on the stream `sel`; it has no run only on an empty stream
(42_zero_crossing.md R146). -/
theorem State.SourceInv.construct {sel : StreamSel} (hs : s.SourceInv) (format : sourceFormatOk s.params = true)
    (hstream : sel = .lpf ↔ s.lpf.init = true) (first : Option ℚ)
    (hempty : first = none → s.srcIndex = s.params.srcSamples.length) :
    (s.setZcd (Zcd.construct s.params sel first)).DetectorInv where
  source := hs.setZcd _
  slot :=
    { replay := fun h => by cases h
      last := fun h pos e => by cases e
      initPos := posOf_agrees format _
      prevPos := posOf_agrees format _ }
  constructed := rfl
  format := format
  stream := hstream
  ended h := by
    cases first with
    | none => exact hempty rfl
    | some q => cases h

/-- A sample remains to be read only while a run is in progress (10_state.md R47 item 4). -/
theorem State.DetectorInv.runLen_ne_zero {x : ℤ} (hd : s.DetectorInv)
    (sample : s.params.srcSamples[s.srcIndex]? = some x) : s.zcd.runLen ≠ 0 := by
  intro hzero
  have hlt := (List.getElem?_eq_some_iff.1 sample).1
  exact absurd (hd.ended hzero) hlt.ne

theorem State.DetectorInv.halfPeriod_pos (hd : s.DetectorInv) (hrun : s.zcd.runLen ≠ 0) :
    0 < halfPeriodOf s.params s.zcd.runLen :=
  halfPeriodOf_pos (sourceFormatOk_iff.1 hd.format).1 hrun

/-- One turn of the loop of `ZcdProduce`, whatever the polarity of the sample (42_zero_crossing.md R145). -/
theorem State.DetectorInv.read {x : ℤ} (hd : s.DetectorInv) (sample : s.params.srcSamples[s.srcIndex]? = some x)
    (inRange : sampleInRange s.params x = true) (positive : Bool) (n : ℕ) :
    ((s.taken 1).setZcd
      { s.zcd with consumed := s.zcd.consumed + 1, positive := positive, runLen := n + 1 }).DetectorInv where
  source := (hd.source.taken_one hd.stream sample inRange).setZcd _
  slot :=
    { replay := hd.slot.replay
      last := fun h pos e =>
        have ⟨hpos, hsamples, hagrees⟩ := hd.slot.last h pos e
        ⟨hpos, Nat.le_succ_of_le hsamples, hagrees⟩
      initPos := hd.slot.initPos
      prevPos := hd.slot.prevPos }
  constructed := hd.constructed
  format := hd.format
  stream := by simpa [(State.taken_one_lpf_keeps sample).1] using hd.stream
  ended h := by cases h

theorem State.DetectorInv.flush (hd : s.DetectorInv) (atEnd : s.params.srcSamples[s.srcIndex]? = none) :
    (s.setZcd { s.zcd with runLen := 0 }).DetectorInv where
  source := hd.source.setZcd _
  slot := ⟨hd.slot.replay, hd.slot.last, hd.slot.initPos, hd.slot.prevPos⟩
  constructed := hd.constructed
  format := hd.format
  stream := hd.stream
  ended _ := hd.source.srcIndex_eq_of_end atEnd

/-- A write to the detector that leaves its construction and its run alone. -/
theorem State.DetectorInv.setZcd (hd : s.DetectorInv) (hz : z.SlotInv s.params) (hinit : z.init = s.zcd.init)
    (hsel : z.sel = s.zcd.sel) (hrun : z.runLen = s.zcd.runLen) : (s.setZcd z).DetectorInv where
  source := hd.source.setZcd z
  slot := hz
  constructed := hinit.trans hd.constructed
  format := hd.format
  stream := by simpa [hsel] using hd.stream
  ended h := hd.ended (hrun.symm.trans h)

/-- `ZcdProduce` keeps the invariant and produces only positive half-periods (10_state.md R47 items 4 and 5). -/
theorem zcdProduce_inv {r : Option ℚ} (hd : s.DetectorInv) (h : zcdProduce s = .ok r t) :
    t.DetectorInv ∧ ∀ v, r = some v → 0 < v := by
  induction s using produce_induction with
  | atEnd s atEnd =>
    rw [zcdProduce_end atEnd, flushRun] at h
    split at h
    · cases h; exact ⟨hd, by simp⟩
    next hrun =>
    cases h
    refine ⟨hd.flush atEnd, ?_⟩
    rintro _ ⟨⟩
    exact hd.halfPeriod_pos hrun
  | bad s x sample outOfRange => rw [zcdProduce_outOfRange sample outOfRange] at h; cases h
  | flip s x sample inRange hp =>
    rw [zcdProduce_flip sample inRange hp] at h
    cases h
    refine ⟨hd.read sample inRange _ 0, ?_⟩
    rintro _ ⟨⟩
    exact hd.halfPeriod_pos (hd.runLen_ne_zero sample)
  | grow s x sample inRange hp ih =>
    exact ih (hd.read sample inRange s.zcd.positive s.zcd.runLen) (zcdProduce_grow sample inRange hp ▸ h)

/-- A delivery puts a positive value and the Position of the samples read into the look-back slot. -/
theorem State.DetectorInv.deliver (hd : s.DetectorInv) {v : ℚ} (hv : 0 < v) : (s.deliver v).DetectorInv := by
  refine hd.setZcd ⟨fun _ => ⟨by simp, rfl⟩, ?_, hd.slot.initPos, hd.slot.curPos_agrees⟩ rfl rfl rfl
  rintro _ _ ⟨⟩
  exact ⟨hv, le_rfl, posOf_agrees hd.format _⟩

theorem zcdNext_inv {r : Option ℚ} (hd : s.DetectorInv) (h : zcdNext s = .ok r t) : t.DetectorInv := by
  obtain ⟨-, -, rfl⟩ | ⟨-, v, u, hproduce, -, rfl⟩ | ⟨hreplay, u, hproduce, -, rfl⟩ := zcdNext_cases h
  · exact hd.setZcd ⟨by simp, hd.slot.last, hd.slot.initPos, hd.slot.prevPos⟩ rfl rfl rfl
  · obtain ⟨hu, hpos⟩ := zcdProduce_inv hd hproduce
    exact hu.deliver (hpos v rfl)
  · obtain ⟨hu, -⟩ := zcdProduce_inv hd hproduce
    obtain ⟨-, -, -, -, -, -, -, -, -, -, -, -, -, -, hkeeps, -⟩ := zcdProduce_frame hproduce
    refine hu.setZcd ⟨fun hset => ?_, hu.slot.last, hu.slot.initPos, hu.slot.prevPos⟩ rfl rfl rfl
    exact absurd (hset.symm.trans (hkeeps.trans hreplay)) (by decide)

theorem zcdRewind_inv {u : Unit} (hd : s.DetectorInv) (h : zcdRewind s = .ok u t) : t.DetectorInv := by
  obtain ⟨-, hend, hlast, rfl⟩ := zcdRewind_cases h
  exact hd.setZcd ⟨fun _ => ⟨hlast, hend⟩, hd.slot.last, hd.slot.initPos, hd.slot.prevPos⟩ rfl rfl rfl

theorem DetectorSteps.inv (h : DetectorSteps s t) (hd : s.DetectorInv) : t.DetectorInv := by
  induction h with
  | refl => exact hd
  | tail _ hstep ih =>
    obtain ⟨r, hread⟩ | hrewind := hstep
    · exact zcdNext_inv ih hread
    · exact zcdRewind_inv ih hrewind

end Detector

/-! ## The invariant is kept -/

section Keeps

variable {s t : State}

/-- Where neither stream of a detector is in use there is no detector. -/
theorem State.Inv.zcd_eq_reset (hi : s.Inv)
    (unowned : s.lpf.init = false ∧ s.zcdOwnsInput = false ∨ s.lpf.init = true ∧ s.zcdOwnsFilter = false) :
    s.zcd.init = false ∧ s.zcd = Zcd.reset := by
  have hinit : s.zcd.init = false := by
    by_contra hz
    have hz : s.zcd.init = true := by simpa using hz
    have hstream := (hi.detectorInv hz).stream
    cases hsel : s.zcd.sel <;> simp_all [State.zcdOwnsInput, State.zcdOwnsFilter]
  exact ⟨hinit, hi.detectorFresh hinit⟩

/-- The effect of a command keeps the invariant. -/
theorem Effect.inv {i : Instr} (he : Effect s i t) (hi : s.Inv) : t.Inv := by
  cases he with
  | osc => exact hi.congr rfl rfl rfl rfl
  | pure | lpfEnd => exact hi
  | lpfInit fresh format unowned window =>
    obtain ⟨hinit, hreset⟩ := hi.zcd_eq_reset (.inl ⟨fresh, unowned⟩)
    exact (hi.sourceInv.setLpf_construct (hi.unreadAtFirst fresh hinit) window).inv_of_zcd_reset hreset
      (fun h => by cases h) (fun _ => format)
  | lpfNext constructed unowned sample inRange =>
    obtain ⟨-, hreset⟩ := hi.zcd_eq_reset (.inr ⟨constructed, unowned⟩)
    refine State.SourceInv.inv_of_zcd_reset ?_ hreset ?_ ?_
    · exact hi.sourceInv.read sample inRange rfl rfl (by simp [constructed])
    · exact fun h => absurd (constructed.symm.trans h) (by decide)
    · exact fun _ => hi.format (.inl constructed)
  | zcdInitEnd _ format stream atEnd =>
    exact (hi.sourceInv.construct format (selOf_eq_lpf_iff stream) none
      (fun _ => hi.sourceInv.srcIndex_eq_of_end atEnd)).inv
  | @zcdInit sel x _ format stream sample inRange =>
    have hstream := selOf_eq_lpf_iff stream
    have hsource : (s.selecting sel).SourceInv := hi.sourceInv.setZcd _
    have hlpf := (State.taken_one_lpf_keeps (s := s.selecting sel) sample).1
    exact ((hsource.taken_one hstream sample inRange).construct format (hlpf ▸ hstream)
      (some ((s.selecting sel).streamValue x)) (by simp)).inv
  | rewind constructed rewinds => exact (zcdRewind_inv (hi.detectorInv constructed) rewinds).inv
  | reads _ constructed steps => exact (DetectorSteps.inv steps (hi.detectorInv constructed)).inv

end Keeps

/-- Settles O19: a reset gives the state after reset, a command that faults or is refused writes no unit, and the effect
of any other keeps the invariant. -/
theorem everyStepKeepsTheInvariant : Obligations.EveryStepKeepsTheInvariant := by
  intro s t hi h
  obtain ⟨rest, -, rfl⟩ | ⟨u, hu, hsame⟩ := step_units h
  · exact (State.resetOf_inv s.params).congr rfl rfl rfl rfl
  obtain rfl | ⟨rest, i, he⟩ := hu
  · exact hsame.inv hi
  · exact hsame.inv (he.inv ((s.setPending_sameUnits rest).inv hi))

/-! ## The state after reset -/

/-- Settles O1: each element of the table of R22 holds its value by the definition of the reset state. -/
theorem resetGivesEveryElementItsListedValue : Obligations.ResetGivesEveryElementItsListedValue :=
  ⟨fun _ => ⟨⟨rfl, rfl, rfl, rfl, rfl, rfl, rfl, rfl, rfl, rfl, rfl, rfl, rfl, rfl, rfl, rfl, rfl, rfl⟩, rfl⟩, rfl⟩

/-- Settles O18: no unit is constructed and nothing has been read. -/
theorem resetStateMeetsTheInvariant : Obligations.ResetStateMeetsTheInvariant :=
  ⟨State.resetOf_inv, State.resetOf_inv Config.params⟩

end Sys2Proof.Machine
end

section
/-! PROOFS of 20_memory.md. The encode side and the decode side are independent: an update of one side
commutes with every command of the other. -/

namespace Sys2Proof.Machine

/-! ## Updates that commute with a command -/

/-- The same outcome with the state it leaves updated; a raise carries no state. -/
def Res.mapState {α : Type} (f : State → State) : Res α → Res α
  | .ok a s => .ok a (f s)
  | .raise c => .raise c

@[simp] theorem Res.mapState_ok {α : Type} (f : State → State) (a : α) (s : State) :
    (Res.ok a s).mapState f = .ok a (f s) := rfl

@[simp] theorem Res.mapState_raise {α : Type} (f : State → State) (c : FaultCode) :
    (Res.raise c : Res α).mapState f = .raise c := rfl

theorem Res.map_mapState {α β : Type} (g : α → β) (f : State → State) (r : Res α) :
    (r.mapState f).map g = (r.map g).mapState f := by
  cases r <;> rfl

theorem Res.mapState_ite {α : Type} (f : State → State) (p : Prop) [Decidable p] (a b : Res α) :
    (if p then a else b).mapState f = if p then a.mapState f else b.mapState f :=
  apply_ite _ p a b

/-- The update `f` goes through what every command does beside its body: it keeps the fault register, and it commutes
with the response and with fault entry. -/
structure ShellUpdate (f : State → State) : Prop where
  fault : ∀ s, (f s).fault = s.fault
  respond : ∀ s r, (f s).respond r = f (s.respond r)
  enterFault : ∀ s c, (f s).enterFault c = f (s.enterFault c)

section Shell

variable {f : State → State} {i : Instr}

theorem ShellUpdate.refuse (hf : ShellUpdate f) (s : State) : (f s).refuse = f s.refuse := by
  simp only [State.refuse, hf.fault, hf.respond]

theorem ShellUpdate.conclude (hf : ShellUpdate f) (s : State) (r : Res Response) :
    (f s).conclude (r.mapState f) = f (s.conclude r) := by
  cases r with
  | ok v u => exact hf.respond u v
  | raise c => exact hf.enterFault s c

/-- An update that commutes with a command's body commutes with the command, however it ends. -/
theorem ShellUpdate.exec (hf : ShellUpdate f) (hbody : ∀ s, body i (f s) = (body i s).mapState f) {s t : State}
    (h : exec i s = .next t) : exec i (f s) = .next (f t) := by
  have hfault := hf.fault s
  by_cases hs : s.fault = .none
  · cases (exec_of_none i hs).symm.trans h
    rw [exec_of_none i (hfault.trans hs), hbody, hf.conclude]
  by_cases hi : i = .ctlStatus
  · subst hi
    cases (exec_ctlStatus s).symm.trans h
    rw [exec_ctlStatus, hfault, hf.respond]
  · cases (exec_of_ne hi hs).symm.trans h
    rw [exec_of_ne hi (hfault ▸ hs), hf.refuse]

end Shell

/-! ## The Oscillator does not see the decode side -/

/-- What the decode side reads beside the fault register: the input port, the cursor, the filter, the detector and its
rule for samples at the threshold (20_memory.md R60, R75). -/
structure DecodeSide where
  srcIndex : ℕ
  lpf : Lpf
  zcd : Zcd
  srcSampleRate : ℕ
  srcBitsPerSample : ℕ
  srcSamples : List ℤ
  zcEqualRule : ZcEqualRule

def State.setDecodeSide (d : DecodeSide) (s : State) : State :=
  { s with
    srcIndex := d.srcIndex, lpf := d.lpf, zcd := d.zcd
    params := { s.params with
      srcSampleRate := d.srcSampleRate, srcBitsPerSample := d.srcBitsPerSample, srcSamples := d.srcSamples
      zcEqualRule := d.zcEqualRule } }

theorem setDecodeSide_shellUpdate (d : DecodeSide) : ShellUpdate (State.setDecodeSide d) :=
  ⟨fun _ => rfl, fun _ _ => rfl, fun _ _ => rfl⟩

/-- Whole cycles read and write the Oscillator alone. -/
theorem cycles_setDecodeSide (d : DecodeSide) (n count : ℕ) (s : State) :
    State.cycles n count (s.setDecodeSide d) = (State.cycles n count s).setDecodeSide d := by
  rw [State.cycles_eq, State.cycles_eq]; rfl

theorem body_setDecodeSide {i : Instr} (hi : isOsc i = true) (d : DecodeSide) (s : State) :
    body i (s.setDecodeSide d) = (body i s).mapState (State.setDecodeSide d) := by
  cases i with
  | oscBegin | oscEnd | oscSilence n => rfl
  | oscHalf f => simp only [body, runOscHalf, Res.mapState_ite]; rfl
  | oscOscs f count => simp only [body, runOscOscs, Res.mapState_ite, cycles_setDecodeSide]; rfl
  | oscSecs f seconds => simp only [body, runOscSecs, Res.mapState_ite, cycles_setDecodeSide]; rfl
  | _ => simp [isOsc] at hi

/-- The writes of an `OSC` command. -/
theorem exec_osc_frame {i : Instr} {s t : State} (hi : isOsc i = true) (h : exec i s = .next t) :
    t = { s with osc := t.osc, fault := t.fault, responses := t.responses } := by
  obtain ⟨t', ht', honce⟩ := exec_answersOnce i s
  cases ht'.symm.trans h
  have hdecode : t.srcIndex = s.srcIndex ∧ t.lpf = s.lpf ∧ t.zcd = s.zcd := by
    obtain ⟨u, rfl | he, hsame⟩ := exec_units h
    · exact ⟨hsame.srcIndex, hsame.lpf, hsame.zcd⟩
    · rw [hsame.srcIndex, hsame.lpf, hsame.zcd]
      exact he.decodeSide_eq (.inl hi)
  obtain ⟨hcursor, hlpf, hzcd⟩ := hdecode
  exact State.ext_fields honce.params hcursor rfl hlpf hzcd rfl honce.pending rfl

/-! ## The decode side does not see the Oscillator -/

section Decode

variable (o : Osc) (s : State)

theorem setOsc_shellUpdate : ShellUpdate (·.setOsc o) := ⟨fun _ => rfl, fun _ _ => rfl, fun _ _ => rfl⟩

theorem readRaw_setOsc : readRaw (s.setOsc o) = (readRaw s).mapState (·.setOsc o) := by
  unfold readRaw
  simp only [State.setOsc_params, State.setOsc_srcIndex]
  split
  · rfl
  · rw [Res.mapState_ite]; rfl

theorem readLpf_setOsc : readLpf (s.setOsc o) = (readLpf s).mapState (·.setOsc o) := by
  unfold readLpf
  rw [readRaw_setOsc]
  cases readRaw s with
  | raise c => rfl
  | ok x u => cases x <;> rfl

theorem readZ_setOsc : readZ (s.setOsc o) = (readZ s).mapState (·.setOsc o) := by
  unfold readZ
  rw [State.setOsc_zcd]
  cases s.zcd.sel with
  | raw => simp only [readRaw_setOsc, Res.map_mapState]
  | lpf => exact readLpf_setOsc o s

theorem zcdProduce_setOsc : zcdProduce (s.setOsc o) = (zcdProduce s).mapState (·.setOsc o) := by
  induction s using produce_induction with
  | atEnd s hs =>
    rw [zcdProduce_end hs, zcdProduce_end (s := s.setOsc o) hs, flushRun, flushRun, Res.mapState_ite]; rfl
  | bad s x hs hx => rw [zcdProduce_outOfRange hs hx, zcdProduce_outOfRange (s := s.setOsc o) hs hx]; rfl
  | flip s x hs hx hp => rw [zcdProduce_flip hs hx hp, zcdProduce_flip (s := s.setOsc o) hs hx hp]; rfl
  | grow s x hs hx hp ih =>
    rw [zcdProduce_grow hs hx hp, zcdProduce_grow (s := s.setOsc o) hs hx hp]; exact ih

theorem zcdNext_setOsc : zcdNext (s.setOsc o) = (zcdNext s).mapState (·.setOsc o) := by
  unfold zcdNext
  rw [zcdProduce_setOsc, Res.mapState_ite]
  congr 1
  cases zcdProduce s with
  | raise c => rfl
  | ok v u => cases v <;> rfl

theorem zcdRewind_setOsc : zcdRewind (s.setOsc o) = (zcdRewind s).mapState (·.setOsc o) := by
  simp only [zcdRewind, Res.mapState_ite]; rfl

theorem findLoop_setOsc (lo hi : ℚ) (n fuel count : ℕ) :
    findLoop lo hi n fuel count (s.setOsc o) = (findLoop lo hi n fuel count s).mapState (·.setOsc o) := by
  induction fuel generalizing count s with
  | zero => rfl
  | succ fuel ih =>
    unfold findLoop
    rw [zcdNext_setOsc]
    cases zcdNext s with
    | raise c => rfl
    | ok v u =>
      cases v with
      | none => rfl
      | some x => simp only [Res.mapState_ok, Res.mapState_ite, ih, zcdRewind_setOsc, Res.map_mapState]

theorem dfindLoop_setOsc (n : ℕ) (d : ℚ) (fuel : ℕ) (win : List ℚ) (run : ℕ) :
    dfindLoop n d fuel win run (s.setOsc o) = (dfindLoop n d fuel win run s).mapState (·.setOsc o) := by
  induction fuel generalizing win run s with
  | zero => rfl
  | succ fuel ih =>
    unfold dfindLoop
    rw [zcdNext_setOsc]
    cases zcdNext s with
    | raise c => rfl
    | ok v u =>
      cases v with
      | none => rfl
      | some x => simp only [Res.mapState_ok, Res.mapState_ite, ih, zcdRewind_setOsc, Res.map_mapState]

theorem runZcdInit_setOsc (sel : ℕ) : runZcdInit sel (s.setOsc o) = (runZcdInit sel s).mapState (·.setOsc o) := by
  have hread : readZ ((s.setOsc o).selecting sel) = (readZ (s.selecting sel)).mapState (·.setOsc o) :=
    readZ_setOsc o (s.selecting sel)
  unfold State.selecting at hread
  unfold runZcdInit
  rw [hread]
  simp only [Res.mapState_ite]
  cases readZ (s.setZcd { s.zcd with sel := selOf sel, init := true }) <;> rfl

theorem body_setOsc {i : Instr} (hi : isOsc i = false) :
    body i (s.setOsc o) = (body i s).mapState (·.setOsc o) := by
  cases i with
  | oscBegin | oscEnd | oscSilence n | oscHalf f | oscOscs f count | oscSecs f seconds => simp [isOsc] at hi
  | lpfInit cutoff => simp only [body, runLpfInit, Res.mapState_ite]; rfl
  | lpfNext => simp only [body, runLpfNext, Res.mapState_ite, readLpf_setOsc, Res.map_mapState]; rfl
  | zcdInit sel => exact runZcdInit_setOsc o s sel
  | zcdNext => simp only [body, runZcdNext, Res.mapState_ite, zcdNext_setOsc, Res.map_mapState]; rfl
  | zcdRewind => simp only [body, runZcdRewind, Res.mapState_ite, zcdRewind_setOsc, Res.map_mapState]; rfl
  | zcdPos => simp only [body, runZcdPos, Res.mapState_ite]; rfl
  | syncFind lo hi n => simp only [body, runSyncFind, Res.mapState_ite, findLoop_setOsc, Res.map_mapState]; rfl
  | syncDfind n d => simp only [body, runSyncDfind, Res.mapState_ite, dfindLoop_setOsc]; rfl
  | fclsIs | fclsOscis | fclsBit =>
    simp only [body, runFclsIs, runFclsOscis, runFclsBit, Res.mapState_ite, Res.mapState_ok, Res.mapState_raise]
  | ctlStatus => rfl

end Decode

/-- Settles O23: an update of the decode side commutes with the body of every `OSC` command, and an update of the
Oscillator with that of every other command. -/
theorem encodeAndDecodeSidesAreIndependent : Obligations.EncodeAndDecodeSidesAreIndependent := by
  refine ⟨fun i s t hi h => ?_, fun i s t o hi h => (setOsc_shellUpdate o).exec (fun s => body_setOsc o s hi) h⟩
  have hframe := exec_osc_frame hi h
  refine ⟨hframe, fun n l z rate bits xs rule => ?_⟩
  have hparams : t.params = s.params := by rw [hframe]
  have hexec := (setDecodeSide_shellUpdate ⟨n, l, z, rate, bits, xs, rule⟩).exec (body_setDecodeSide hi _) h
  simpa only [State.setDecodeSide, hparams] using hexec

end Sys2Proof.Machine
end

section
/-! PROOFS of 30_encoding.md. The decoder inverts the encoder, and the command map lists exactly the commands of the
instructions; what a command that succeeds answers; the equivalences of the Oscillator's commands. -/

namespace Sys2Proof

/-! ## Decode and encode -/

/-- The fields of an instruction's word are its unit and op numbers, which select its own row of the decoder. -/
theorem decode_encode (i : Instr) : decode (encode i) = .ok i := by
  cases i <;> simp [decode, encode, Instr.word, Instr.operands, unitField_wordOf, opField_wordOf]

/-- The two fields of a command's word leave no bit of it free, so they and the operands fix the command. -/
theorem encode_eq_of_fields {i : Instr} {c : Command} {u o : ℕ} (hunit : unitField c.word = u)
    (hop : opField c.word = o) (hword : i.word = wordOf (BitVec.ofNat 3 u) (BitVec.ofNat 5 o))
    (hoperands : c.operands = i.operands) : encode i = c := by
  obtain ⟨w, ops⟩ := c
  subst hunit hop hoperands
  rw [encode, hword, wordOf_fields]

/-- By the rows of the decoder: one that answers has matched both fields and the whole operand tuple. -/
theorem encode_eq_of_decode {c : Command} {i : Instr} (h : decode c = .ok i) : encode i = c := by
  unfold decode at h
  split at h
  case h_19 => cases h
  all_goals
    next hunit hop =>
    split at h
    · next hoperands => cases h; exact encode_eq_of_fields hunit hop rfl hoperands
    · cases h

/-- Settles O9: an instruction's own row reads it back, and a row that answers fixes the word and the operands. -/
theorem decodeInvertsEncode : Obligations.DecodeInvertsEncode :=
  ⟨decode_encode, fun _ _ => encode_eq_of_decode⟩

/-- Settles O11: each of the words written out is the word of its command. -/
theorem mapWordsDecodeToTheirCommands : Obligations.MapWordsDecodeToTheirCommands :=
  ⟨decode_encode .oscBegin, decode_encode (.oscHalf 1200), decode_encode (.lpfInit 2000), decode_encode .zcdRewind,
    decode_encode (.syncFind 1800 2200 40), decode_encode (.fclsBit 1200 1000 1400 2200 2600),
    decode_encode .ctlStatus⟩

/-! ## The map -/

theorem map_kind_eq_nat_cons {ops : List Operand} {ks : List OperandKind} :
    ops.map Operand.kind = .nat :: ks ↔ ∃ n rest, ops = .nat n :: rest ∧ rest.map Operand.kind = ks := by
  match ops with
  | [] => simp
  | .nat n :: rest => simp [Operand.kind]
  | .rat q :: rest => simp [Operand.kind]

theorem map_kind_eq_rat_cons {ops : List Operand} {ks : List OperandKind} :
    ops.map Operand.kind = .rat :: ks ↔ ∃ q rest, ops = .rat q :: rest ∧ rest.map Operand.kind = ks := by
  match ops with
  | [] => simp
  | .nat n :: rest => simp [Operand.kind]
  | .rat q :: rest => simp [Operand.kind]

/-- A row of the map, with any operands of its signature, is the command of an instruction. -/
theorem exists_encode_of_row {w : Word} {ops : List Operand} (h : (w, ops.map Operand.kind) ∈ commandMap) :
    ∃ i, encode i = ⟨w, ops⟩ := by
  simp only [commandMap, List.mem_cons, List.not_mem_nil, or_false, Prod.mk.injEq, map_kind_eq_nat_cons,
    map_kind_eq_rat_cons, List.map_eq_nil_iff] at h
  obtain h | h | h | h | h | h | h | h | h | h | h | h | h | h | h | h | h | h := h
  · obtain ⟨rfl, rfl⟩ := h; exact ⟨.oscBegin, rfl⟩
  · obtain ⟨rfl, rfl⟩ := h; exact ⟨.oscEnd, rfl⟩
  · obtain ⟨rfl, n, _, rfl, rfl⟩ := h; exact ⟨.oscSilence n, rfl⟩
  · obtain ⟨rfl, f, _, rfl, rfl⟩ := h; exact ⟨.oscHalf f, rfl⟩
  · obtain ⟨rfl, f, _, rfl, count, _, rfl, rfl⟩ := h; exact ⟨.oscOscs f count, rfl⟩
  · obtain ⟨rfl, f, _, rfl, seconds, _, rfl, rfl⟩ := h; exact ⟨.oscSecs f seconds, rfl⟩
  · obtain ⟨rfl, cutoff, _, rfl, rfl⟩ := h; exact ⟨.lpfInit cutoff, rfl⟩
  · obtain ⟨rfl, rfl⟩ := h; exact ⟨.lpfNext, rfl⟩
  · obtain ⟨rfl, sel, _, rfl, rfl⟩ := h; exact ⟨.zcdInit sel, rfl⟩
  · obtain ⟨rfl, rfl⟩ := h; exact ⟨.zcdNext, rfl⟩
  · obtain ⟨rfl, rfl⟩ := h; exact ⟨.zcdRewind, rfl⟩
  · obtain ⟨rfl, rfl⟩ := h; exact ⟨.zcdPos, rfl⟩
  · obtain ⟨rfl, lo, _, rfl, hi, _, rfl, n, _, rfl, rfl⟩ := h; exact ⟨.syncFind lo hi n, rfl⟩
  · obtain ⟨rfl, n, _, rfl, d, _, rfl, rfl⟩ := h; exact ⟨.syncDfind n d, rfl⟩
  · obtain ⟨rfl, v, _, rfl, lo, _, rfl, hi, _, rfl, rfl⟩ := h; exact ⟨.fclsIs v lo hi, rfl⟩
  · obtain ⟨rfl, h1, _, rfl, h2, _, rfl, lo, _, rfl, hi, _, rfl, rfl⟩ := h; exact ⟨.fclsOscis h1 h2 lo hi, rfl⟩
  · obtain ⟨rfl, v, _, rfl, zLo, _, rfl, zHi, _, rfl, oLo, _, rfl, oHi, _, rfl, rfl⟩ := h
    exact ⟨.fclsBit v zLo zHi oLo oHi, rfl⟩
  · obtain ⟨rfl, rfl⟩ := h; exact ⟨.ctlStatus, rfl⟩

open Laws in
theorem encode_wf : ∀ i : Instr, (encode i).wf = true
  | .oscBegin => EncodeWellFormed.oscBegin
  | .oscEnd => EncodeWellFormed.oscEnd
  | .oscSilence n => EncodeWellFormed.oscSilence n
  | .oscHalf f => EncodeWellFormed.oscHalf f
  | .oscOscs f count => EncodeWellFormed.oscOscs f count
  | .oscSecs f seconds => EncodeWellFormed.oscSecs f seconds
  | .lpfInit cutoff => EncodeWellFormed.lpfInit cutoff
  | .lpfNext => EncodeWellFormed.lpfNext
  | .zcdInit sel => EncodeWellFormed.zcdInit sel
  | .zcdNext => EncodeWellFormed.zcdNext
  | .zcdRewind => EncodeWellFormed.zcdRewind
  | .zcdPos => EncodeWellFormed.zcdPos
  | .syncFind lo hi n => EncodeWellFormed.syncFind lo hi n
  | .syncDfind n d => EncodeWellFormed.syncDfind n d
  | .fclsIs v lo hi => EncodeWellFormed.fclsIs v lo hi
  | .fclsOscis h1 h2 lo hi => EncodeWellFormed.fclsOscis h1 h2 lo hi
  | .fclsBit v zLo zHi oLo oHi => EncodeWellFormed.fclsBit v zLo zHi oLo oHi
  | .ctlStatus => EncodeWellFormed.ctlStatus

theorem wf_iff_exists_encode {c : Command} : c.wf = true ↔ ∃ i, encode i = c := by
  constructor
  · intro h
    obtain ⟨-, hsignature⟩ : c.wordLegal = true ∧ c.operandsMatch = true := by simpa [Command.wf] using h
    exact exists_encode_of_row (mem_commandMap_of_signature _ _ (beq_iff_eq.1 hsignature))
  · rintro ⟨i, rfl⟩
    exact encode_wf i

/-- Settles O10: the commands that decode and the legal ones are both those of the instructions. -/
theorem exactlyTheMapDecodes : Obligations.ExactlyTheMapDecodes := by
  intro c
  rw [wf_iff_exists_encode]
  constructor
  · rintro ⟨i, h⟩
    exact ⟨i, encode_eq_of_decode h⟩
  · rintro ⟨i, rfl⟩
    exact ⟨i, decode_encode i⟩

theorem exists_decode_error {c : Command} (h : c.wf = false) : ∃ e, decode c = .error e := by
  cases hd : decode c with
  | error e => exact ⟨e, rfl⟩
  | ok i =>
    have hwf := (exactlyTheMapDecodes c).1 ⟨i, hd⟩
    exact absurd (h.symm.trans hwf) (by decide)

end Sys2Proof

namespace Sys2Proof.Machine

theorem State.enterFault_of_none {s : State} (h : s.fault = .none) (c : FaultCode) :
    s.enterFault c = s.faultedWith c := by
  simp [State.enterFault, State.setFault, State.respond, State.faultedWith, h]

/-- Settles O12: such a command does not decode, and with no fault before it that is fault entry. -/
theorem illegalCommandsFault : Obligations.IllegalCommandsFault := by
  intro s c rest hfault hport hillegal
  obtain ⟨e, hdecode⟩ := exists_decode_error hillegal
  have hrest : (s.setPending rest).fault = .none := hfault
  calc step s = issue c (s.setPending rest) := step_of_command hport
    _ = .next (s.setPending rest).illegal := issue_of_decode_error hdecode _
    _ = .next ((s.setPending rest).enterFault .illegalCommand) := by rw [State.illegal_of_none hrest]
    _ = .next ((s.setPending rest).faultedWith .illegalCommand) := by rw [State.enterFault_of_none hrest]

/-! ## The types of the responses -/

section Answers

variable {s t : State}

/-- The detector delivers only positive half-periods (10_state.md R47 item 5). -/
theorem zcdNext_pos {v : ℚ} (hd : s.DetectorInv) (h : zcdNext s = .ok (some v) t) : 0 < v := by
  obtain ⟨hreplay, hv, -⟩ | ⟨-, w, u, hproduce, hv, -⟩ | ⟨-, u, -, hv, -⟩ := zcdNext_cases h
  · obtain ⟨hlast, -⟩ := hd.slot.replay hreplay
    obtain ⟨⟨w, pos⟩, hslot⟩ := Option.ne_none_iff_exists'.1 hlast
    obtain ⟨hpos, -⟩ := hd.slot.last w pos hslot
    cases hv
    simpa [Zcd.replayValue, hslot] using hpos
  · cases hv
    exact (zcdProduce_inv hd hproduce).2 v rfl
  · cases hv

/-- What the window of `SYNC.DFIND` holds once a run has begun (43_sync_detector.md R176). -/
def PositiveWindow (win : List ℚ) : Prop := win ≠ [] ∧ ∀ v ∈ win, 0 < v

theorem PositiveWindow.singleton {v : ℚ} (hv : 0 < v) : PositiveWindow [v] := by
  simpa [PositiveWindow] using hv

theorem PositiveWindow.slide {win : List ℚ} (hw : PositiveWindow win) {v : ℚ} (hv : 0 < v) (n : ℕ) :
    PositiveWindow (slide n win v) := by
  obtain ⟨-, hpos⟩ := hw
  refine ⟨by simp [Machine.slide], fun x hx => ?_⟩
  obtain hx | hx := List.mem_append.1 hx
  · split at hx
    · exact hpos x (List.mem_of_mem_tail hx)
    · exact hpos x hx
  · rw [List.mem_singleton.1 hx]; exact hv

theorem PositiveWindow.average_pos {win : List ℚ} (hw : PositiveWindow win) : 0 < average win := by
  obtain ⟨hne, hpos⟩ := hw
  exact quot_pos (List.sum_pos win hpos hne) (by exact_mod_cast List.length_pos_iff.2 hne)

theorem dfindEnd_answers {n run : ℕ} {win : List ℚ} {d : ℚ} (hw : n ≤ run → PositiveWindow win) :
    answers (.syncDfind n d) (dfindEnd n run win) := by
  unfold dfindEnd
  split
  next hrun => exact .inr ⟨_, (hw hrun).average_pos, rfl⟩
  · exact .inl rfl

theorem dfindLoop_answers {n : ℕ} {d : ℚ} (hn : n ≠ 0) (fuel : ℕ) (win : List ℚ) (run : ℕ) {r : Response}
    (hd : s.DetectorInv) (hw : run ≠ 0 → PositiveWindow win) (h : dfindLoop n d fuel win run s = .ok r t) :
    answers (.syncDfind n d) r := by
  have hlong : n ≤ run → PositiveWindow win := fun hrun => hw (by omega)
  induction fuel generalizing win run s with
  | zero => cases h; exact dfindEnd_answers hlong
  | succ fuel ih =>
    unfold dfindLoop at h
    split at h
    · cases h
    · cases h; exact dfindEnd_answers hlong
    next v u hread =>
    have hu := zcdNext_inv hd hread
    have hv := zcdNext_pos hd hread
    have hrestart (h : dfindLoop n d fuel [v] 1 u = .ok r t) : answers (.syncDfind n d) r :=
      ih [v] 1 hu (fun _ => .singleton hv) h (fun _ => .singleton hv)
    split at h
    · exact hrestart h
    next hrun =>
    split at h
    · split at h
      next hlength =>
        obtain ⟨_, -, rfl⟩ := Res.map_eq_ok.1 h
        exact .inr ⟨_, (hlong hlength).average_pos, rfl⟩
      · exact hrestart h
    · have hslide := (hw hrun).slide hv n
      exact ih _ _ hu (fun _ => hslide) h (fun _ => hslide)

/-- A command that succeeds answers with the type the map lists for it (30_encoding.md R82, R85). -/
theorem body_answers {i : Instr} {r : Response} (hi : s.Inv) (h : body i s = .ok r t) : answers i r := by
  cases i with
  | oscBegin | oscEnd | oscSilence _ => cases h; rfl
  | oscHalf _ => simp only [body, runOscHalf] at h; split at h <;> cases h; rfl
  | oscOscs _ _ => simp only [body, runOscOscs] at h; split at h <;> cases h; rfl
  | oscSecs _ _ => simp only [body, runOscSecs] at h; split at h <;> cases h; rfl
  | lpfInit _ =>
    simp only [body, runLpfInit] at h
    repeat' split at h
    all_goals cases h
    rfl
  | lpfNext =>
    simp only [body, runLpfNext] at h
    split at h
    · cases h
    split at h
    · cases h
    obtain ⟨v, -, rfl⟩ := Res.map_eq_ok.1 h
    cases v with
    | none => exact .inl rfl
    | some q => exact .inr ⟨q, rfl⟩
  | zcdInit _ =>
    simp only [body, runZcdInit] at h
    repeat' split at h
    all_goals cases h
    rfl
  | zcdNext =>
    simp only [body, runZcdNext] at h
    split at h
    · cases h
    next constructed =>
    have hd := hi.detectorInv (by simpa using constructed)
    obtain ⟨v, hread, rfl⟩ := Res.map_eq_ok.1 h
    cases v with
    | none => exact .inl rfl
    | some v => exact .inr ⟨v, zcdNext_pos hd hread, rfl⟩
  | zcdRewind =>
    simp only [body, runZcdRewind] at h
    split at h
    · cases h
    obtain ⟨_, -, rfl⟩ := Res.map_eq_ok.1 h
    rfl
  | zcdPos =>
    simp only [body, runZcdPos] at h
    repeat' split at h
    all_goals cases h
    all_goals exact ⟨_, rfl⟩
  | syncFind _ _ _ =>
    simp only [body, runSyncFind] at h
    split at h
    · cases h
    split at h
    · cases h
    split at h
    · cases h
    obtain ⟨found, -, rfl⟩ := Res.map_eq_ok.1 h
    exact ⟨found, rfl⟩
  | syncDfind n d =>
    simp only [body, runSyncDfind] at h
    split at h
    · cases h
    next constructed =>
    have hd := hi.detectorInv (by simpa using constructed)
    split at h
    · cases h
    next hoperands =>
    obtain ⟨hn, -⟩ := not_or.1 hoperands
    exact dfindLoop_answers hn _ _ _ hd (fun hrun => absurd rfl hrun) h
  | fclsIs _ _ _ => simp only [body, runFclsIs] at h; split at h <;> cases h; exact ⟨_, rfl⟩
  | fclsOscis _ _ _ _ => simp only [body, runFclsOscis] at h; split at h <;> cases h; exact ⟨_, rfl⟩
  | fclsBit _ _ _ _ _ =>
    simp only [body, runFclsBit] at h
    repeat' split at h
    all_goals cases h
    exact ⟨_, rfl⟩
  | ctlStatus => cases h; exact ⟨_, rfl⟩

end Answers

/-- Settles O8: with no fault a command answers by its body, whose responses have the listed types, or it enters the
fault it raises; in the faulted state it is refused. -/
theorem responsesHaveTheirListedTypes : Obligations.ResponsesHaveTheirListedTypes := by
  intro i s t hinv h
  constructor
  · intro hs
    obtain ⟨r, u, hbody, rfl⟩ | ⟨c, hbody, rfl⟩ := exec_cases h hs
    · obtain ⟨-, -, hresponses, hfault⟩ := body_shell hbody
      exact ⟨r, by simp [hresponses], .inl ⟨body_answers hinv hbody, hfault.trans hs⟩⟩
    · rw [State.enterFault_of_none hs]
      exact ⟨.fault c, rfl, .inr ⟨rfl, body_raise hbody⟩⟩
  · intro hs hi
    cases (exec_of_ne hi hs).symm.trans h
    rfl

/-! ## The equivalences of the Oscillator's commands -/

theorem exec_oscHalf_of_pos {s : State} {f : ℚ} (hs : s.fault = .none) (hf : 0 < f) :
    exec (.oscHalf f) s = .next ((s.halfOscillation (halfSamples s.params.oscSampleRate f)).respond .ack) := by
  rw [exec_of_none _ hs]
  simp [body, runOscHalf, hf.not_ge]

theorem exec_oscOscs_of_pos {s : State} {f : ℚ} (hs : s.fault = .none) (hf : 0 < f) (n : ℕ) :
    exec (.oscOscs f n) s = .next ((State.cycles (halfSamples s.params.oscSampleRate f) n s).respond .ack) := by
  rw [exec_of_none _ hs]
  simp [body, runOscOscs, hf.not_ge]

/-- The responses of several commands in turn, the units as they are. -/
def State.respondAll (s : State) (rs : List Response) : State := { s with responses := s.responses ++ rs }

theorem State.respond_eq_respondAll (s : State) (r : Response) : s.respond r = s.respondAll [r] := rfl

theorem State.respondAll_nil (s : State) : s.respondAll [] = s := by simp [State.respondAll]

theorem State.respondAll_respondAll (s : State) (rs rs' : List Response) :
    (s.respondAll rs).respondAll rs' = s.respondAll (rs ++ rs') := by
  simp [State.respondAll]

/-- A half-oscillation neither reads nor writes the responses. -/
theorem halfOscillation_respondAll (s : State) (rs : List Response) (n : ℕ) :
    (s.respondAll rs).halfOscillation n = (s.halfOscillation n).respondAll rs := rfl

theorem cycles_respondAll (s : State) (rs : List Response) (n count : ℕ) :
    State.cycles n count (s.respondAll rs) = (State.cycles n count s).respondAll rs := by
  rw [State.cycles_eq, State.cycles_eq]; rfl

/-- Two half-oscillations make a cycle (40_oscillator.md R104) and answer twice. -/
theorem execMany_two_oscHalf {s : State} {f : ℚ} (hs : s.fault = .none) (hf : 0 < f) (is : List Instr) :
    execMany (.oscHalf f :: .oscHalf f :: is) s =
      execMany is ((State.cycles (halfSamples s.params.oscSampleRate f) 1 s).respondAll [.ack, .ack]) := by
  have hfirst := exec_oscHalf_of_pos hs hf
  have hs' : ((s.halfOscillation (halfSamples s.params.oscSampleRate f)).respond .ack).fault = .none := hs
  rw [execMany_cons hfirst, execMany_cons (exec_oscHalf_of_pos hs' hf), State.respond_eq_respondAll,
    State.respond_eq_respondAll, halfOscillation_respondAll, State.respondAll_respondAll]
  rfl

/-- `2n` half-oscillations make `n` cycles and answer `2n` times. -/
theorem execMany_oscHalf {s : State} {f : ℚ} (hs : s.fault = .none) (hf : 0 < f) (n : ℕ) :
    execMany (List.replicate (2 * n) (.oscHalf f)) s =
      (State.cycles (halfSamples s.params.oscSampleRate f) n s).respondAll (List.replicate (2 * n) .ack) := by
  induction n generalizing s with
  | zero => exact (State.respondAll_nil s).symm
  | succ n ih =>
    have hcycle : ((State.cycles (halfSamples s.params.oscSampleRate f) 1 s).respondAll [.ack, .ack]).fault = .none :=
      hs
    rw [Nat.mul_succ, List.replicate_succ, List.replicate_succ, execMany_two_oscHalf hs hf, ih hcycle,
      cycles_respondAll, State.respondAll_respondAll]
    rfl

/-- Settles O28: the two commands of each pair have the same body, and `2n` half-oscillations are `n` cycles but for the
responses. -/
theorem oscillatorEquivalences : Obligations.OscillatorEquivalences := by
  intro s hs
  refine ⟨rfl, rfl, fun f n hf => ?_, fun f seconds hf hseconds => ?_⟩
  · rw [execMany_oscHalf hs hf, execMany_cons (exec_oscOscs_of_pos hs hf n)]
    rfl
  · rw [exec_oscOscs_of_pos hs hf, exec_of_none _ hs]
    simp [body, runOscSecs, hf.not_ge, hseconds.not_gt]

end Sys2Proof.Machine
end

section
/-! PROOFS of 40_oscillator.md. What each Oscillator command appends to the output and does to the phase, its fault, and
the growth of the output over a sequence of commands. -/

namespace Sys2Proof.Machine

/-! ## A command by the end of its body -/

theorem exec_of_body_ok {i : Instr} {s t : State} {r : Response} (hs : s.fault = .none) (h : body i s = .ok r t) :
    exec i s = .next (t.respond r) := by
  rw [exec_of_none i hs, h, conclude_ok]

theorem exec_of_body_raise {i : Instr} {s : State} {c : FaultCode} (hs : s.fault = .none) (h : body i s = .raise c) :
    exec i s = .next (s.faultedWith c) := by
  rw [exec_of_none i hs, h, conclude_raise, State.enterFault_of_none hs]

/-! ## The Oscillator's commands -/

theorem exec_oscBegin_of_none {s : State} (hs : s.fault = .none) :
    exec .oscBegin s = .next ((s.emit .zero s.params.oscLeadInSamples).respond .ack) := exec_of_body_ok hs rfl

theorem exec_oscEnd_of_none {s : State} (hs : s.fault = .none) :
    exec .oscEnd s = .next ((s.emit .zero s.params.oscLeadOutSamples).respond .ack) := exec_of_body_ok hs rfl

theorem exec_oscSilence_of_none {s : State} (hs : s.fault = .none) (n : ℕ) :
    exec (.oscSilence n) s = .next ((s.emit .zero n).respond .ack) := exec_of_body_ok hs rfl

/-- Settles O24: each command is one emission of `Zero` symbols and its response. -/
theorem silencesAppendZeroSymbols : Obligations.SilencesAppendZeroSymbols := fun _ hs =>
  ⟨exec_oscBegin_of_none hs, exec_oscEnd_of_none hs, exec_oscSilence_of_none hs⟩

section Frequency

variable {s : State} {f : ℚ} {n : ℕ}

theorem exec_oscHalf_of_halfSamples (hs : s.fault = .none) (hf : 0 < f)
    (hn : halfSamples s.params.oscSampleRate f = n) :
    exec (.oscHalf f) s = .next ((s.halfOscillation n).respond .ack) := hn ▸ exec_oscHalf_of_pos hs hf

theorem exec_oscOscs_eq (hs : s.fault = .none) (hf : 0 < f) (hn : halfSamples s.params.oscSampleRate f = n)
    (count : ℕ) :
    exec (.oscOscs f count) s = .next { s with
      osc := ⟨s.osc.phase, s.osc.out ++ cycleSymbols s.osc.phase n count⟩
      responses := s.responses ++ [.ack] } := by
  rw [exec_oscOscs_of_pos hs hf, State.cycles_eq, hn]; rfl

end Frequency

/-- Settles O25: the bounds give the half-samples, and the phase's symbol and inverse are read off for each phase. -/
theorem halfEmitsThePhaseAndInvertsIt : Obligations.HalfEmitsThePhaseAndInvertsIt := by
  intro s f hs
  refine ⟨fun n hf hle hlt => ?_, fun hf => exec_of_body_raise hs (if_pos hf)⟩
  rw [exec_oscHalf_of_halfSamples hs hf ((halfSamples_eq_iff hf n).2 ⟨hle, hlt⟩), State.halfOscillation_eq]
  constructor <;> (intro hphase; rw [hphase]; rfl)

/-- Settles O26: the bounds give the half-samples of each cycle. -/
theorem oscsEmitsWholeCycles : Obligations.OscsEmitsWholeCycles := by
  intro s f count hs
  exact ⟨fun n hf hle hlt => exec_oscOscs_eq hs hf ((halfSamples_eq_iff hf n).2 ⟨hle, hlt⟩) count,
    fun hf => exec_of_body_raise hs (if_pos hf)⟩

/-- Settles O27: `OSC.SECS` is `OSC.OSCS` of the rounded cycle count (30_encoding.md R90), and
rounding fixes the naturals. -/
theorem secsEmitsCyclesForTheTime : Obligations.SecsEmitsCyclesForTheTime := by
  intro s f seconds hs
  obtain ⟨-, -, -, hsecs⟩ := oscillatorEquivalences s hs
  refine ⟨fun n hf hseconds hle hlt => ⟨?_, fun c hc => ?_⟩, fun h => exec_of_body_raise hs (if_pos h)⟩
  · rw [hsecs f seconds hf hseconds]
    exact exec_oscOscs_eq hs hf ((halfSamples_eq_iff hf n).2 ⟨hle, hlt⟩) _
  · rw [hc, cycleCount_natCast]

/-- Settles O31: the silence emits without a look at the phase, so the second half-oscillation finds the phase that the
first one left and inverts it back. -/
theorem silenceKeepsThePhaseContinuous : Obligations.SilenceKeepsThePhaseContinuous := by
  intro s f k n hs hf hle hlt
  have hn := (halfSamples_eq_iff hf n).2 ⟨hle, hlt⟩
  have first := exec_oscHalf_of_halfSamples hs hf hn
  have silence := exec_oscSilence_of_none (s := (s.halfOscillation n).respond .ack) hs k
  have second := exec_oscHalf_of_halfSamples
    (s := (((s.halfOscillation n).respond .ack).emit .zero k).respond .ack) hs hf hn
  rw [execMany_cons first, execMany_cons silence, execMany_cons second]
  simp [execMany, State.halfOscillation_eq]

/-! ## The growth of the output -/

theorem halfSamples_eq_floor (rate : ℕ) (f : ℚ) : halfSamples rate f = ⌊(rate : ℚ) / (2 * f)⌋₊ := by
  rw [halfSamples, div_div, mul_comm]

theorem cycleSymbols_length (ph : Phase) (n count : ℕ) : (cycleSymbols ph n count).length = 2 * count * n := by
  simp only [cycleSymbols, List.length_flatten, List.map_replicate, List.length_append, List.length_replicate,
    List.sum_replicate, smul_eq_mul]
  ring

theorem cycles_out_length (n count : ℕ) (s : State) :
    (State.cycles n count s).osc.out.length = s.osc.out.length + 2 * count * n := by
  simp [State.cycles_eq, cycleSymbols_length]

theorem symbolsAdded_of_not_osc {i : Instr} (h : isOsc i = false) (p : Params) : symbolsAdded p i = 0 := by
  cases i <;> simp_all [isOsc, symbolsAdded]

/-- A command that succeeds adds the symbols the table of 40_oscillator.md R108 lists for it. -/
theorem body_out_length {i : Instr} {s t : State} {r : Response} (h : body i s = .ok r t) :
    t.osc.out.length = s.osc.out.length + symbolsAdded s.params i := by
  cases hi : isOsc i with
  | false => rw [(body_effect h).osc_eq hi, symbolsAdded_of_not_osc hi, Nat.add_zero]
  | true =>
    cases i with
    | oscBegin | oscEnd | oscSilence _ => cases h; simp [symbolsAdded]
    | oscHalf f =>
      simp only [body, runOscHalf] at h
      split at h <;> cases h
      simp [State.halfOscillation_eq, halfSamples_eq_floor, symbolsAdded]
    | oscOscs f count =>
      simp only [body, runOscOscs] at h
      split at h <;> cases h
      rw [cycles_out_length, halfSamples_eq_floor, symbolsAdded]
    | oscSecs f seconds =>
      simp only [body, runOscSecs] at h
      split at h <;> cases h
      rw [cycles_out_length, halfSamples_eq_floor, symbolsAdded]
    | _ => simp [isOsc] at hi

/-- A command in the faulted state leaves the register as it is (60_exceptions.md R216). -/
theorem exec_fault_of_ne {i : Instr} {s t : State} (h : exec i s = .next t) (hs : s.fault ≠ .none) :
    t.fault = s.fault := by
  by_cases hi : i = .ctlStatus
  · subst hi; cases (exec_ctlStatus s).symm.trans h; rfl
  · cases (exec_of_ne hi hs).symm.trans h; rfl

theorem execMany_fault_of_ne (is : List Instr) {s : State} (hs : s.fault ≠ .none) :
    (execMany is s).fault = s.fault := by
  induction is generalizing s with
  | nil => rfl
  | cons i is ih =>
    obtain ⟨t, ht, -⟩ := exec_answersOnce i s
    have hfault := exec_fault_of_ne ht hs
    rw [execMany_cons ht, ih (hfault ▸ hs), hfault]

/-- A command that starts and ends without a fault adds its listed symbols. -/
theorem exec_out_length {i : Instr} {s t : State} (h : exec i s = .next t) (hs : s.fault = .none)
    (ht : t.fault = .none) : t.osc.out.length = s.osc.out.length + symbolsAdded s.params i := by
  obtain ⟨r, u, hbody, rfl⟩ | ⟨c, hbody, rfl⟩ := exec_cases h hs
  · rw [State.respond_osc, body_out_length hbody]
  · rw [State.enterFault_of_none hs] at ht
    exact absurd ht (body_raise hbody)

/-- Settles O29, by induction over the commands: a fault on the way would stay to the end, so each command succeeds. -/
theorem outputGrowsByTheListedCounts : Obligations.OutputGrowsByTheListedCounts := by
  intro is
  induction is with
  | nil => intro s _ _; rfl
  | cons i is ih =>
    intro s hs hend
    obtain ⟨t, hexec, honce⟩ := exec_answersOnce i s
    rw [execMany_cons hexec] at hend ⊢
    have ht : t.fault = .none := by
      by_contra hfault
      exact hfault ((execMany_fault_of_ne is hfault).symm.trans hend)
    rw [ih t ht hend, exec_out_length hexec hs ht, honce.params, List.map_cons, List.sum_cons, Nat.add_assoc]

end Sys2Proof.Machine
end

section
/-! PROOFS of 41_lowpass_filter.md. What `LPF.INIT` and `LPF.NEXT` do by their checks, in the rule's order; and that the
window of the invariant makes every output the moving average of the inputs, in their range. -/

namespace Sys2Proof.Machine

section Ownership

variable {s : State}

theorem State.zcdOwnsInput_iff : s.zcdOwnsInput = true ↔ s.zcd.init = true ∧ s.zcd.sel = .raw := by
  simp [State.zcdOwnsInput]

theorem State.zcdOwnsFilter_iff : s.zcdOwnsFilter = true ↔ s.zcd.init = true ∧ s.zcd.sel = .lpf := by
  simp [State.zcdOwnsFilter]

end Ownership

theorem sourceFormatOk_iff_validFormat {p : Params} : sourceFormatOk p = true ↔ ValidFormat p := sourceFormatOk_iff

/-! ## Construction -/

section Construction

variable {s : State} {cutoff : ℚ}

theorem runLpfInit_of_constructed (constructed : s.lpf.init = true) :
    runLpfInit cutoff s = .raise .alreadyInitialized := if_pos constructed

theorem runLpfInit_of_badFormat (fresh : s.lpf.init = false) (format : ¬ ValidFormat s.params) :
    runLpfInit cutoff s = .raise .badSourceFormat := by
  have format : sourceFormatOk s.params = false := by simpa using mt sourceFormatOk_iff_validFormat.1 format
  simp [runLpfInit, fresh, format]

theorem runLpfInit_of_owned (fresh : s.lpf.init = false) (format : ValidFormat s.params)
    (owned : s.zcd.init = true ∧ s.zcd.sel = .raw) : runLpfInit cutoff s = .raise .ownershipViolation := by
  simp [runLpfInit, fresh, sourceFormatOk_iff_validFormat.2 format, State.zcdOwnsInput_iff.2 owned]

/-- The part of `LPF.INIT` that looks at its operand, on a port where a filter can be constructed. -/
theorem runLpfInit_of_free (fresh : s.lpf.init = false) (format : ValidFormat s.params)
    (unowned : ¬ (s.zcd.init = true ∧ s.zcd.sel = .raw)) :
    runLpfInit cutoff s =
      if cutoff ≤ 0 then .raise .invalidOperand
      else if windowLength s.params.srcSampleRate cutoff = 0 then .raise .badWindow
      else .ok .ack (s.setLpf (Lpf.construct (windowLength s.params.srcSampleRate cutoff))) := by
  have unowned : s.zcdOwnsInput = false := by simpa using mt State.zcdOwnsInput_iff.1 unowned
  simp [runLpfInit, fresh, sourceFormatOk_iff_validFormat.2 format, unowned]

/-- A cutoff above twice the sample rate leaves no window (41_lowpass_filter.md R122). -/
theorem windowLength_eq_zero {rate : ℕ} (positive : 0 < cutoff) (high : (rate : ℚ) / cutoff < 1 / 2) :
    windowLength rate cutoff = 0 := by
  have hratio : (0 : ℚ) ≤ rate / cutoff := by positivity
  refine (windowLength_eq_iff positive 0).2 ⟨?_, ?_⟩ <;> push_cast <;> linarith

end Construction

/-- Settles O32: one case per check of the command, and the bounds of rounding half up fix the window length. -/
theorem lpfInitConstructsAZeroWindow : Obligations.LpfInitConstructsAZeroWindow := by
  intro s cutoff hs
  refine ⟨fun W fresh format unowned positive hW hlow hhigh => ?_,
    fun constructed => exec_of_body_raise hs (runLpfInit_of_constructed constructed),
    fun fresh format => exec_of_body_raise hs (runLpfInit_of_badFormat fresh format),
    fun fresh format hinit hsel => exec_of_body_raise hs (runLpfInit_of_owned fresh format ⟨hinit, hsel⟩),
    fun fresh format unowned nonpositive => exec_of_body_raise hs ?_,
    fun fresh format unowned positive high => exec_of_body_raise hs ?_⟩
  · have hlength := (windowLength_eq_iff positive W).2 ⟨hlow, hhigh⟩
    have hbody : runLpfInit cutoff s = .ok .ack (s.setLpf (Lpf.construct W)) := by
      rw [runLpfInit_of_free fresh format unowned, if_neg positive.not_ge, hlength, if_neg (by omega)]
    exact exec_of_body_ok (i := .lpfInit cutoff) hs hbody
  · exact (runLpfInit_of_free fresh format unowned).trans (if_pos nonpositive)
  · exact (runLpfInit_of_free fresh format unowned).trans
      ((if_neg positive.not_ge).trans (if_pos (windowLength_eq_zero positive high)))

/-! ## One filter step -/

/-- The state after the filter has taken the input sample `x` (41_lowpass_filter.md R124). -/
def State.filterStep (s : State) (x : ℤ) : State := (s.setSrcIndex (s.srcIndex + 1)).setLpf (s.lpf.push x)

@[simp] theorem State.filterStep_params (s : State) (x : ℤ) : (s.filterStep x).params = s.params := rfl
@[simp] theorem State.filterStep_srcIndex (s : State) (x : ℤ) : (s.filterStep x).srcIndex = s.srcIndex + 1 := rfl
@[simp] theorem State.filterStep_lpf (s : State) (x : ℤ) : (s.filterStep x).lpf = s.lpf.push x := rfl

@[simp] theorem Lpf.push_W (l : Lpf) (x : ℤ) : (l.push x).W = l.W := rfl
@[simp] theorem Lpf.push_init (l : Lpf) (x : ℤ) : (l.push x).init = l.init := rfl

theorem Lpf.push_of_window_cons {l : Lpf} {old : ℤ} {rest : List ℤ} (h : l.window = old :: rest) (x : ℤ) :
    l.push x = { l with window := rest ++ [x], sum := l.sum - old + x } := by
  simp [Lpf.push, h]

theorem Lpf.output_of_ne {l : Lpf} (h : l.W ≠ 0) : l.output = l.sum / l.W := quot_of_ne (Nat.cast_ne_zero.2 h)

section Next

variable {s : State} {x : ℤ}

theorem readLpf_end (h : s.params.srcSamples[s.srcIndex]? = none) : readLpf s = .ok none s := by
  simp [readLpf, readRaw_end h]

theorem readLpf_sample (h : s.params.srcSamples[s.srcIndex]? = some x) (hx : sampleInRange s.params x = true) :
    readLpf s = .ok (some (s.lpf.push x).output) (s.filterStep x) := by
  simp [readLpf, readRaw_sample h hx, State.filterStep]

theorem readLpf_outOfRange (h : s.params.srcSamples[s.srcIndex]? = some x) (hx : sampleInRange s.params x = false) :
    readLpf s = .raise .sampleOutOfRange := by
  simp [readLpf, readRaw_outOfRange h hx]

/-- A read of the filter that delivers a value has taken a sample in range. -/
theorem readLpf_some {t : State} {q : ℚ} (h : readLpf s = .ok (some q) t) :
    ∃ x, s.params.srcSamples[s.srcIndex]? = some x ∧ sampleInRange s.params x = true ∧ q = (s.lpf.push x).output := by
  cases hx : s.params.srcSamples[s.srcIndex]? with
  | none => cases (readLpf_end hx).symm.trans h
  | some x =>
    cases hr : sampleInRange s.params x with
    | false => cases (readLpf_outOfRange hx hr).symm.trans h
    | true => cases (readLpf_sample hx hr).symm.trans h; exact ⟨x, rfl, hr, rfl⟩

theorem runLpfNext_of_fresh (fresh : s.lpf.init = false) : runLpfNext s = .raise .notInitialized := by
  simp [runLpfNext, fresh]

theorem runLpfNext_of_owned (constructed : s.lpf.init = true) (owned : s.zcd.init = true ∧ s.zcd.sel = .lpf) :
    runLpfNext s = .raise .ownershipViolation := by
  simp [runLpfNext, constructed, State.zcdOwnsFilter_iff.2 owned]

theorem runLpfNext_of_unowned (constructed : s.lpf.init = true)
    (unowned : ¬ (s.zcd.init = true ∧ s.zcd.sel = .lpf)) : runLpfNext s = (readLpf s).map sampleResponse := by
  have unowned : s.zcdOwnsFilter = false := by simpa using mt State.zcdOwnsFilter_iff.1 unowned
  simp [runLpfNext, constructed, unowned]

/-- `LPF.NEXT` on a sample in range, by a filter the host owns. -/
theorem exec_lpfNext_sample (hs : s.fault = .none) (constructed : s.lpf.init = true)
    (unowned : ¬ (s.zcd.init = true ∧ s.zcd.sel = .lpf)) (sample : s.params.srcSamples[s.srcIndex]? = some x)
    (inRange : sampleInRange s.params x = true) :
    exec .lpfNext s = .next ((s.filterStep x).respond (.sample (s.lpf.push x).output)) := by
  refine exec_of_body_ok hs ((runLpfNext_of_unowned constructed unowned).trans ?_)
  rw [readLpf_sample sample inRange]; rfl

/-- An `LPF.NEXT` that answers `Sample` found a filter and a sample in range. -/
theorem runLpfNext_sample {t : State} {q : ℚ} (h : runLpfNext s = .ok (.sample q) t) :
    s.lpf.init = true ∧
    ∃ x, s.params.srcSamples[s.srcIndex]? = some x ∧ sampleInRange s.params x = true ∧ q = (s.lpf.push x).output := by
  have constructed : s.lpf.init = true := by
    by_contra fresh
    cases (runLpfNext_of_fresh (by simpa using fresh)).symm.trans h
  refine ⟨constructed, ?_⟩
  by_cases owned : s.zcd.init = true ∧ s.zcd.sel = .lpf
  · cases (runLpfNext_of_owned constructed owned).symm.trans h
  · obtain ⟨v, hread, hv⟩ := Res.map_eq_ok.1 ((runLpfNext_of_unowned constructed owned).symm.trans h)
    cases v with
    | none => cases hv
    | some v => cases hv; exact readLpf_some hread

end Next

/-- Settles O33: one case per check of the command, and per outcome of the read of the input port. -/
theorem lpfNextSlidesTheWindow : Obligations.LpfNextSlidesTheWindow := by
  intro s hs
  refine ⟨fun fresh => exec_of_body_raise hs (runLpfNext_of_fresh fresh),
    fun constructed hinit hsel => exec_of_body_raise hs (runLpfNext_of_owned constructed ⟨hinit, hsel⟩),
    fun constructed unowned => ⟨fun atEnd => ?_, fun x sample outOfRange => ?_,
      fun x old rest sample hlow hhigh hwindow hW => ?_⟩⟩
  · refine exec_of_body_ok hs ((runLpfNext_of_unowned constructed unowned).trans ?_)
    rw [readLpf_end (List.getElem?_eq_none_iff.2 atEnd)]; rfl
  · have hbad : sampleInRange s.params x = false := by
      rw [← Bool.not_eq_true, sampleInRange_iff]; omega
    refine exec_of_body_raise hs ((runLpfNext_of_unowned constructed unowned).trans ?_)
    rw [readLpf_outOfRange sample hbad]; rfl
  · rw [exec_lpfNext_sample hs constructed unowned sample (sampleInRange_iff.2 ⟨hlow, hhigh⟩),
      Lpf.output_of_ne (l := s.lpf.push x) hW, State.filterStep, Lpf.push_of_window_cons hwindow]
    rfl

/-! ## The window and the average -/

/-- The input `j` places before the one at index `k`; 0 before the first (41_lowpass_filter.md R120). -/
def inputBack (xs : List ℤ) (k j : ℕ) : ℤ := if j ≤ k then xs.getD (k - j) 0 else 0

/-- The last `W` inputs up to index `k`, zeros before the first, from the newest to the oldest. -/
theorem lastN_zeros_append_take_reverse {xs : List ℤ} {k : ℕ} (hk : k < xs.length) (W : ℕ) :
    (lastN W (List.replicate W 0 ++ xs.take (k + 1))).reverse = (List.range W).map (inputBack xs k) := by
  have hlength : (xs.take (k + 1)).length = k + 1 := by simp; omega
  have hreverse : (lastN W (List.replicate W 0 ++ xs.take (k + 1))).reverse =
      ((xs.take (k + 1)).reverse ++ List.replicate W 0).take W := by
    rw [lastN, List.reverse_drop, List.reverse_append, List.reverse_replicate]
    congr 1
    simp only [List.length_append, List.length_replicate]
    omega
  rw [hreverse]
  refine List.ext_getElem (by simp) fun j _ _ => ?_
  simp only [List.getElem_take, List.getElem_map, List.getElem_range, inputBack]
  by_cases hj : j ≤ k
  · rw [if_pos hj, List.getElem_append_left (by simp; omega), List.getElem_reverse, List.getElem_take,
      List.getD_eq_getElem _ _ (by omega)]
    congr 1; omega
  · rw [if_neg hj, List.getElem_append_right (by simp; omega), List.getElem_replicate]

section Average

variable {s : State}

theorem State.SourceInv.filterStep {x : ℤ} (hs : s.SourceInv) (constructed : s.lpf.init = true)
    (sample : s.params.srcSamples[s.srcIndex]? = some x) (inRange : sampleInRange s.params x = true) :
    (s.filterStep x).SourceInv :=
  hs.read sample inRange rfl rfl (by simp [constructed])

/-- The running sum is the window's (10_state.md R47 item 2). -/
theorem State.SourceInv.output_eq_windowSum_div (hs : s.SourceInv) (constructed : s.lpf.init = true) :
    s.lpf.output = s.lpf.window.sum / s.lpf.W := by
  obtain ⟨hW, -, hsum⟩ := hs.filter constructed
  rw [Lpf.output_of_ne (by omega), hsum]

/-- The output after the input at index `k` is the average of the last `W` inputs (41_lowpass_filter.md R120). -/
theorem State.SourceInv.output_eq_average {k : ℕ} (hs : s.SourceInv) (constructed : s.lpf.init = true)
    (hk : s.srcIndex = k + 1) :
    s.lpf.output = (((List.range s.lpf.W).map (inputBack s.params.srcSamples k)).sum : ℤ) / s.lpf.W := by
  have hcursor := hs.cursor
  rw [hs.output_eq_windowSum_div constructed, ← List.sum_reverse, hs.window constructed, hk,
    lastN_zeros_append_take_reverse (by omega)]

/-- The window holds samples read and zeros, so all of it lies in the range of the samples. -/
theorem State.SourceInv.window_inRange (hs : s.SourceInv) (constructed : s.lpf.init = true) {y : ℤ}
    (hy : y ∈ s.lpf.window) : 0 ≤ y ∧ y ≤ 2 ^ s.params.srcBitsPerSample - 1 := by
  rw [hs.window constructed] at hy
  obtain hzero | hread := List.mem_append.1 (List.mem_of_mem_drop hy)
  · rw [List.eq_of_mem_replicate hzero]
    have : (0 : ℤ) < 2 ^ s.params.srcBitsPerSample := by positivity
    omega
  · exact sampleInRange_iff.1 (hs.readInRange y hread)

/-- An average of values in a range lies in it (41_lowpass_filter.md R127). -/
theorem State.SourceInv.output_inRange (hs : s.SourceInv) (constructed : s.lpf.init = true) :
    0 ≤ s.lpf.output ∧ s.lpf.output ≤ 2 ^ s.params.srcBitsPerSample - 1 := by
  obtain ⟨hW, hlength, -⟩ := hs.filter constructed
  have hWpos : (0 : ℚ) < s.lpf.W := by exact_mod_cast hW
  have hlow : 0 ≤ s.lpf.window.sum := List.sum_nonneg fun y hy => (hs.window_inRange constructed hy).1
  have hhigh := List.sum_le_card_nsmul s.lpf.window _ fun y hy => (hs.window_inRange constructed hy).2
  rw [hlength, nsmul_eq_mul] at hhigh
  rw [hs.output_eq_windowSum_div constructed]
  refine ⟨div_nonneg (by exact_mod_cast hlow) hWpos.le, (div_le_iff₀' hWpos).2 ?_⟩
  exact_mod_cast hhigh

/-- A window of one holds only the sample just taken. -/
theorem State.SourceInv.push_output_of_one (hs : s.SourceInv) (constructed : s.lpf.init = true) (hW : s.lpf.W = 1)
    (x : ℤ) : (s.lpf.push x).output = x := by
  obtain ⟨-, hlength, hsum⟩ := hs.filter constructed
  obtain ⟨old, hwindow⟩ := List.length_eq_one_iff.1 (hlength.trans hW)
  rw [Lpf.push_of_window_cons hwindow, Lpf.output_of_ne (by simp [hW])]
  simp [hsum, hwindow, hW]

end Average

/-- Settles O34: the state after the step meets the invariant of the source, so its window holds the last inputs and its
output is their average. -/
theorem filterOutputIsTheMovingAverage : Obligations.FilterOutputIsTheMovingAverage := by
  intro s x hi hs constructed unowned sample hlow hhigh
  have inRange := sampleInRange_iff.2 ⟨hlow, hhigh⟩
  refine ⟨_, exec_lpfNext_sample hs constructed unowned sample inRange, hs, rfl, ?_⟩
  have haverage :=
    (hi.sourceInv.filterStep constructed sample inRange).output_eq_average constructed (k := s.srcIndex) rfl
  rw [State.filterStep_lpf, State.filterStep_params, Lpf.push_W] at haverage
  rw [State.respond_responses, haverage]
  simp [State.filterStep, inputBack, Function.comp_def]

/-- Settles O35: the state after the step meets the invariant of the source, so its window lies in the range. -/
theorem filterOutputStaysInSampleRange : Obligations.FilterOutputStaysInSampleRange := by
  intro s t q hi hs h hresponses
  obtain ⟨r, u, hbody, rfl⟩ | ⟨c, -, rfl⟩ := exec_cases h hs
  · obtain ⟨-, -, hkept, -⟩ := body_shell hbody
    obtain rfl : r = .sample q := by simpa [hkept] using hresponses
    obtain ⟨constructed, x, sample, inRange, rfl⟩ := runLpfNext_sample hbody
    obtain ⟨hlow, hhigh⟩ := (hi.sourceInv.filterStep constructed sample inRange).output_inRange constructed
    refine ⟨hlow, hhigh, fun hW => ?_⟩
    rw [hi.sourceInv.push_output_of_one constructed hW]
    exact ⟨sample, rfl⟩
  · simp at hresponses

end Sys2Proof.Machine
end

section
/-! PROOFS of 42_zero_crossing.md. What the detector's four commands do by their checks, in the rule's order; the runs of
a stream and the deliveries they make; and that the reads of a constructed detector complete. -/

namespace Sys2Proof.Machine

/-! ## Threshold and polarity -/

/-- Settles O36: the threshold by its power of two, the polarity by its three cases. -/
theorem polarityIsAboveOrBelowTheThreshold : Obligations.PolarityIsAboveOrBelowTheThreshold := by
  intro p cur
  refine ⟨fun h => ?_, fun h => ?_, fun h => ?_, fun q =>
    ⟨fun h => polarity_above h cur, fun h => polarity_below h cur, fun h => ?_⟩⟩
  · norm_num [threshold, h]
  · norm_num [threshold, h]
  · norm_num [threshold, h]
  · exact (if_neg h.not_gt).trans (if_neg h.not_lt)

/-! ## Construction -/

theorem posOf_eq {p : Params} (hp : p.srcSampleRate ≠ 0) (n : ℕ) : posOf p n = ⟨n, n / p.srcSampleRate⟩ := by
  rw [← posOf_seconds hp]; rfl

theorem sampleInRange_eq_false {p : Params} {x : ℤ} (h : x < 0 ∨ 2 ^ p.srcBitsPerSample - 1 < x) :
    sampleInRange p x = false := by
  rw [← Bool.not_eq_true, sampleInRange_iff]; omega

section Construction

variable {s : State} {sel : ℕ}

theorem runZcdInit_of_constructed (constructed : s.zcd.init = true) :
    runZcdInit sel s = .raise .alreadyInitialized := if_pos constructed

theorem runZcdInit_of_badSel (fresh : s.zcd.init = false) (h0 : sel ≠ 0) (h1 : sel ≠ 1) :
    runZcdInit sel s = .raise .invalidOperand := by
  simp [runZcdInit, fresh, h0, h1]

theorem runZcdInit_of_badFormat (fresh : s.zcd.init = false) (legal : sel = 0 ∨ sel = 1)
    (format : ¬ ValidFormat s.params) : runZcdInit sel s = .raise .badSourceFormat := by
  have format : sourceFormatOk s.params = false := by simpa using mt sourceFormatOk_iff_validFormat.1 format
  obtain rfl | rfl := legal <;> simp [runZcdInit, fresh, format]

theorem runZcdInit_of_noFilter (fresh : s.zcd.init = false) (format : ValidFormat s.params)
    (noFilter : s.lpf.init = false) : runZcdInit 1 s = .raise .notInitialized := by
  simp [runZcdInit, fresh, sourceFormatOk_iff_validFormat.2 format, noFilter]

theorem runZcdInit_of_owned (fresh : s.zcd.init = false) (format : ValidFormat s.params)
    (owned : s.lpf.init = true) : runZcdInit 0 s = .raise .ownershipViolation := by
  simp [runZcdInit, fresh, sourceFormatOk_iff_validFormat.2 format, owned]

/-- A detector can be constructed on the stream `sel` selects (42_zero_crossing.md R146). -/
structure Constructible (s : State) (sel : ℕ) : Prop where
  noFault : s.fault = .none
  fresh : s.zcd.init = false
  format : ValidFormat s.params
  stream : sel = 0 ∧ s.lpf.init = false ∨ sel = 1 ∧ s.lpf.init = true

theorem Constructible.runZcdInit_of_ok {t : State} {first : Option ℚ} (h : Constructible s sel)
    (hread : readZ (s.selecting sel) = .ok first t) :
    runZcdInit sel s = .ok .ack (t.setZcd (Zcd.construct t.params (selOf sel) first)) := by
  have format := sourceFormatOk_iff_validFormat.2 h.format
  unfold State.selecting at hread
  obtain ⟨rfl, hlpf⟩ | ⟨rfl, hlpf⟩ := h.stream <;> simp [runZcdInit, h.fresh, format, hlpf, hread]

theorem Constructible.runZcdInit_of_raise {c : FaultCode} (h : Constructible s sel)
    (hread : readZ (s.selecting sel) = .raise c) : runZcdInit sel s = .raise c := by
  have format := sourceFormatOk_iff_validFormat.2 h.format
  unfold State.selecting at hread
  obtain ⟨rfl, hlpf⟩ | ⟨rfl, hlpf⟩ := h.stream <;> simp [runZcdInit, h.fresh, format, hlpf, hread]

theorem Constructible.exec_end (h : Constructible s sel) (atEnd : s.params.srcSamples[s.srcIndex]? = none) :
    exec (.zcdInit sel) s = .next ((s.setZcd (Zcd.construct s.params (selOf sel) none)).respond .ack) :=
  exec_of_body_ok (i := .zcdInit sel) h.noFault
    (h.runZcdInit_of_ok (t := s.selecting sel) (readZ_end (s := s.selecting sel) atEnd))

theorem Constructible.exec_outOfRange (h : Constructible s sel) {x : ℤ}
    (sample : s.params.srcSamples[s.srcIndex]? = some x) (outOfRange : sampleInRange s.params x = false) :
    exec (.zcdInit sel) s = .next (s.faultedWith .sampleOutOfRange) :=
  exec_of_body_raise h.noFault (h.runZcdInit_of_raise (readZ_outOfRange (s := s.selecting sel) sample outOfRange))

theorem Constructible.exec_sample (h : Constructible s sel) {x : ℤ}
    (sample : s.params.srcSamples[s.srcIndex]? = some x) (inRange : sampleInRange s.params x = true) :
    exec (.zcdInit sel) s = .next ((((s.selecting sel).taken 1).setZcd
      (Zcd.construct s.params (selOf sel) (some ((s.selecting sel).streamValue x)))).respond .ack) :=
  exec_of_body_ok (i := .zcdInit sel) h.noFault
    (h.runZcdInit_of_ok (readZ_sample (s := s.selecting sel) sample inRange))

end Construction

/-- Settles O37: one case per check of the command, and per outcome of the read of the selected stream. -/
theorem zcdInitConsumesTheFirstSample : Obligations.ZcdInitConsumesTheFirstSample := by
  intro s sel hs
  refine ⟨fun constructed => exec_of_body_raise hs (runZcdInit_of_constructed constructed),
    fun fresh h0 h1 => exec_of_body_raise hs (runZcdInit_of_badSel fresh h0 h1),
    fun fresh legal format => exec_of_body_raise hs (runZcdInit_of_badFormat fresh legal format), ?_, ?_,
    fun fresh format stream => ?_⟩
  · rintro fresh format rfl noFilter
    exact exec_of_body_raise hs (runZcdInit_of_noFilter fresh format noFilter)
  · rintro fresh format rfl owned
    exact exec_of_body_raise hs (runZcdInit_of_owned fresh format owned)
  have h : Constructible s sel := ⟨hs, fresh, format, stream⟩
  have hempty : posOf s.params 0 = ⟨0, 0⟩ := by simp [posOf_eq format.1]
  have hfirst : posOf s.params 1 = ⟨1, 1 / s.params.srcSampleRate⟩ := by simp [posOf_eq format.1]
  refine ⟨fun atEnd => ?_, fun x sample outOfRange => ?_, fun x sample hlow hhigh => ?_⟩
  · rw [h.exec_end (List.getElem?_eq_none_iff.2 atEnd), ← hempty]; rfl
  · exact h.exec_outOfRange sample (sampleInRange_eq_false outOfRange)
  rw [h.exec_sample sample (sampleInRange_iff.2 ⟨hlow, hhigh⟩), ← hfirst]
  have hlpf := State.taken_one_lpf (s := s.selecting sel) sample
  constructor
  · rintro rfl
    rfl
  · rintro old rest rfl hwindow hW
    have hpush := Lpf.push_of_window_cons hwindow x
    have hvalue : (s.selecting 1).streamValue x = ((s.lpf.sum - old + x : ℤ) : ℚ) / s.lpf.W := by
      change (s.lpf.push x).output = _
      rw [Lpf.output_of_ne (l := s.lpf.push x) hW, hpush]
    rw [hvalue]
    exact congrArg Host.Outcome.next (State.ext_fields rfl rfl rfl (hlpf.trans hpush) rfl rfl rfl rfl)

/-! ## Reads, rewinds and Positions -/

section Reads

variable {s t : State}

theorem runZcdNext_of_constructed (constructed : s.zcd.init = true) :
    runZcdNext s = (zcdNext s).map halfPeriodResponse := by
  simp [runZcdNext, constructed]

theorem exec_zcdNext_of_ok (hs : s.fault = .none) (constructed : s.zcd.init = true) {v : Option ℚ}
    (h : zcdNext s = .ok v t) : exec .zcdNext s = .next (t.respond (halfPeriodResponse v)) := by
  refine exec_of_body_ok hs ((runZcdNext_of_constructed constructed).trans ?_)
  rw [h]; rfl

theorem exec_zcdNext_of_raise (hs : s.fault = .none) (constructed : s.zcd.init = true) {c : FaultCode}
    (h : zcdNext s = .raise c) : exec .zcdNext s = .next (s.faultedWith c) := by
  refine exec_of_body_raise hs ((runZcdNext_of_constructed constructed).trans ?_)
  rw [h]; rfl

theorem zcdNext_of_raise {c : FaultCode} (noReplay : s.zcd.replay = false) (h : zcdProduce s = .raise c) :
    zcdNext s = .raise c := by
  simp [zcdNext, noReplay, h]

theorem Zcd.replayValue_of_last {z : Zcd} {h : ℚ} {pos : Position} (hlast : z.last = some (h, pos)) :
    z.replayValue = h := by
  simp [Zcd.replayValue, hlast]

/-- The detector with no run pending at the end of its stream (42_zero_crossing.md R145, R147). -/
theorem zcdNext_of_ended (noReplay : s.zcd.replay = false) (noRun : s.zcd.runLen = 0)
    (atEnd : s.params.srcSamples[s.srcIndex]? = none) :
    zcdNext s = .ok none (s.setZcd { s.zcd with lastWasEnd := true }) := by
  refine zcdNext_end noReplay ?_
  rw [zcdProduce_end atEnd, flushRun, if_pos noRun]

/-- The state after the detector took `n` values and delivered a run of `total` samples: a run of `len` samples of
polarity `positive` is in progress, and the look-back slot holds the delivery (42_zero_crossing.md R147). -/
def State.deliverRun (s : State) (total n len : ℕ) (positive : Bool) : State :=
  (s.taken n).setZcd { s.zcd with
    positive := positive
    runLen := len
    consumed := s.zcd.consumed + n
    prevPos := s.zcd.curPos
    last := some ((s.params.srcSampleRate : ℚ) / (2 * total), posOf s.params (s.zcd.consumed + n))
    lastWasEnd := false }

/-- A read up to the value that ends the run (42_zero_crossing.md R145, R147). -/
theorem zcdNext_run (noReplay : s.zcd.replay = false) (hrun : s.zcd.runLen ≠ 0) (run : List ℚ) (y : ℚ)
    (after : List ℚ) (hupcoming : s.upcoming = run ++ y :: after)
    (inRange : ∀ x ∈ (s.params.srcSamples.drop s.srcIndex).take (run.length + 1), sampleInRange s.params x = true)
    (same : ∀ v ∈ run, polarity s.params v s.zcd.positive = s.zcd.positive)
    (flips : polarity s.params y s.zcd.positive ≠ s.zcd.positive) :
    zcdNext s = .ok (some ((s.params.srcSampleRate : ℚ) / (2 * (s.zcd.runLen + run.length : ℕ))))
      (s.deliverRun (s.zcd.runLen + run.length) (run.length + 1) 1 (!s.zcd.positive)) := by
  have hproduce := zcdProduce_run run y after hupcoming inRange same flips
  rw [halfPeriodOf_eq (by omega)] at hproduce
  exact zcdNext_produce noReplay hproduce

/-- A read that flushes the last run (42_zero_crossing.md R145, R147). -/
theorem zcdNext_flush (noReplay : s.zcd.replay = false) (hrun : s.zcd.runLen ≠ 0) (inRange : s.UnreadInRange)
    (same : ∀ v ∈ s.upcoming, polarity s.params v s.zcd.positive = s.zcd.positive) :
    zcdNext s = .ok (some ((s.params.srcSampleRate : ℚ) / (2 * (s.zcd.runLen + s.upcoming.length : ℕ))))
      (s.deliverRun (s.zcd.runLen + s.upcoming.length) s.upcoming.length 0 s.zcd.positive) := by
  have hproduce := zcdProduce_flush hrun (fun x hx => sampleInRange_iff.2 (inRange x hx)) same
  rw [halfPeriodOf_eq (by omega)] at hproduce
  exact zcdNext_produce noReplay hproduce

end Reads

/-- Settles O38: one case per end of a read of the detector, a replay or the outcome of `ZcdProduce`. -/
theorem zcdNextDeliversTheRunInProgress : Obligations.ZcdNextDeliversTheRunInProgress := by
  intro s hs
  refine ⟨fun fresh => exec_of_body_raise hs (by simp [body, runZcdNext, fresh]),
    fun h p constructed replay hlast => ?_,
    fun constructed noReplay hrate => ⟨fun run y after hrun hupcoming inRange same flips => ?_,
      fun hrun inRange _ same => ?_, fun noRun atEnd => ?_, fun good bad after hdrop hgood hbad same => ?_⟩⟩
  · rw [exec_zcdNext_of_ok hs constructed (zcdNext_replay replay), Zcd.replayValue_of_last hlast]; rfl
  · rw [exec_zcdNext_of_ok hs constructed (zcdNext_run noReplay hrun run y after hupcoming inRange same flips),
      State.deliverRun, posOf_eq hrate]; rfl
  · rw [exec_zcdNext_of_ok hs constructed (zcdNext_flush noReplay hrun inRange same), State.deliverRun,
      posOf_eq hrate]; rfl
  · exact exec_zcdNext_of_ok hs constructed
      (zcdNext_of_ended noReplay noRun (List.getElem?_eq_none_iff.2 atEnd))
  · exact exec_zcdNext_of_raise hs constructed
      (zcdNext_of_raise noReplay (zcdProduce_bad good bad after hdrop hgood hbad same))

section Rewinds

variable {s : State}

theorem runZcdRewind_of_constructed (constructed : s.zcd.init = true) :
    runZcdRewind s = (zcdRewind s).map fun _ => .ack := by
  simp [runZcdRewind, constructed]

theorem exec_zcdRewind_of_ok (hs : s.fault = .none) (constructed : s.zcd.init = true)
    (noReplay : s.zcd.replay = false) (notEnd : s.zcd.lastWasEnd = false) (hlast : s.zcd.last ≠ none) :
    exec .zcdRewind s = .next ((s.setZcd { s.zcd with replay := true }).respond .ack) := by
  refine exec_of_body_ok hs ((runZcdRewind_of_constructed constructed).trans ?_)
  rw [zcdRewind_ok noReplay notEnd hlast]; rfl

theorem exec_zcdRewind_of_raise (hs : s.fault = .none) (constructed : s.zcd.init = true) {c : FaultCode}
    (h : zcdRewind s = .raise c) : exec .zcdRewind s = .next (s.faultedWith c) := by
  refine exec_of_body_raise hs ((runZcdRewind_of_constructed constructed).trans ?_)
  rw [h]; rfl

end Rewinds

/-- Settles O39: one case per check of the rewind. -/
theorem zcdRewindArmsTheReplay : Obligations.ZcdRewindArmsTheReplay := by
  intro s hs
  refine ⟨fun fresh => exec_of_body_raise hs (by simp [body, runZcdRewind, fresh]),
    fun constructed replay => exec_zcdRewind_of_raise hs constructed (by simp [zcdRewind, replay]),
    fun constructed noReplay wasEnd => exec_zcdRewind_of_raise hs constructed (by simp [zcdRewind, noReplay, wasEnd]),
    fun constructed noReplay notEnd hlast =>
      exec_zcdRewind_of_raise hs constructed (by simp [zcdRewind, noReplay, notEnd, hlast]),
    fun constructed noReplay notEnd hlast => exec_zcdRewind_of_ok hs constructed noReplay notEnd hlast⟩

theorem Zcd.curPos_of_last {z : Zcd} {h : ℚ} {pos : Position} (hlast : z.last = some (h, pos)) : z.curPos = pos := by
  simp [Zcd.curPos, hlast]

theorem Zcd.curPos_of_none {z : Zcd} (hlast : z.last = none) : z.curPos = z.initPos := by
  simp [Zcd.curPos, hlast]

/-- `ZCD.POS` by the look-back slot's Position or the one before it (42_zero_crossing.md R149). -/
theorem exec_zcdPos_of_constructed {s : State} (hs : s.fault = .none) (constructed : s.zcd.init = true) :
    exec .zcdPos s = .next (s.respond
      (.pos (posOf s.params (if s.zcd.replay then s.zcd.prevPos else s.zcd.curPos).samples))) := by
  refine exec_of_body_ok hs ?_
  cases hreplay : s.zcd.replay <;> simp [body, runZcdPos, constructed, hreplay]

/-- Settles O40: the Position of a pending rewind, of the last delivery, or of construction. -/
theorem zcdPosAnswersTheLastPosition : Obligations.ZcdPosAnswersTheLastPosition := by
  intro s hs
  refine ⟨fun fresh => exec_of_body_raise hs (by simp [body, runZcdPos, fresh]), fun constructed hrate => ?_⟩
  rw [exec_zcdPos_of_constructed hs constructed, posOf_eq hrate]
  refine ⟨fun replay => ?_, fun h p noReplay hlast => ?_, fun noReplay hlast => ?_⟩
  · rw [replay]; rfl
  · rw [noReplay, Zcd.curPos_of_last hlast]; rfl
  · rw [noReplay, Zcd.curPos_of_none hlast]; rfl

/-- Clearing flags that are clear. -/
theorem Zcd.clearFlags_eq {z : Zcd} (noReplay : z.replay = false) (notEnd : z.lastWasEnd = false) :
    { z with replay := false, lastWasEnd := false } = z := by
  cases z; simp_all

/-- Settles O41: the rewind arms the replay, and the read after it takes the replay back. -/
theorem rewindThenNextRedeliversTheValue : Obligations.RewindThenNextRedeliversTheValue := by
  intro s h p hs constructed noReplay notEnd hlast
  have hrewind := exec_zcdRewind_of_ok hs constructed noReplay notEnd (by simp [hlast])
  have hread := exec_zcdNext_of_ok (s := (s.setZcd { s.zcd with replay := true }).respond .ack) hs constructed
    (zcdNext_replay rfl)
  have hvalue : ({ s.zcd with replay := true } : Zcd).replayValue = h := Zcd.replayValue_of_last hlast
  rw [execMany_cons hrewind, execMany_cons hread]
  refine State.ext_fields rfl rfl rfl rfl (Zcd.clearFlags_eq noReplay notEnd) rfl rfl ?_
  simp [execMany, halfPeriodResponse, hvalue]

/-! ## The values still to be read -/

section Unread

variable {s t : State}

theorem State.UnreadInRange.mono (h : s.UnreadInRange) (hp : t.params = s.params) (hc : s.srcIndex ≤ t.srcIndex) :
    t.UnreadInRange := by
  intro x hx
  rw [hp] at hx ⊢
  exact h x (List.drop_subset_drop_left _ hc hx)

theorem State.UnreadInRange.sample {x : ℤ} (h : s.UnreadInRange)
    (sample : s.params.srcSamples[s.srcIndex]? = some x) : sampleInRange s.params x = true := by
  obtain ⟨hlt, rfl⟩ := List.getElem?_eq_some_iff.1 sample
  exact sampleInRange_iff.2 (h _ (by rw [List.drop_eq_getElem_cons hlt]; exact List.mem_cons_self))

theorem State.upcoming_taken (s : State) (n : ℕ) : (s.taken n).upcoming = s.upcoming.drop n := by
  induction n generalizing s with
  | zero => simp
  | succ n ih =>
    rw [Nat.add_comm, ← State.taken_add, ih]
    cases sample : s.params.srcSamples[s.srcIndex]? with
    | none =>
      have hlen := List.getElem?_eq_none_iff.1 sample
      have hend : (s.taken 1).params.srcSamples[(s.taken 1).srcIndex]? = none :=
        List.getElem?_eq_none_iff.2 (Nat.le_succ_of_le hlen)
      rw [State.upcoming_nil sample, State.upcoming_nil hend, List.drop_nil, List.drop_nil]
    | some x => rw [State.upcoming_cons sample, Nat.add_comm, List.drop_succ_cons]

theorem State.deliverRun_upcoming (s : State) (total n len : ℕ) (positive : Bool) :
    (s.deliverRun total n len positive).upcoming = s.upcoming.drop n :=
  (State.upcoming_setZcd rfl).trans (s.upcoming_taken n)

end Unread

/-! ## The runs of a stream -/

/-- `lens` are the lengths of the runs of a stream, a run of `len` samples of polarity `pos` being in progress: the last
run, or a run ended by the first sample `y` of the next (42_zero_crossing.md R150). -/
inductive Runs (p : Params) : Bool → ℕ → List ℚ → List ℕ → Prop where
  | last {pos : Bool} {len : ℕ} {qs : List ℚ} (same : ∀ v ∈ qs, polarity p v pos = pos) :
      Runs p pos len qs [len + qs.length]
  | flip {pos : Bool} {len : ℕ} {run : List ℚ} {y : ℚ} {after : List ℚ} {lens : List ℕ}
      (same : ∀ v ∈ run, polarity p v pos = pos) (flips : polarity p y pos ≠ pos) (rest : Runs p (!pos) 1 after lens) :
      Runs p pos len (run ++ y :: after) ((len + run.length) :: lens)

theorem Runs.cons_same {p : Params} {pos : Bool} {len : ℕ} {q : ℚ} {qs : List ℚ} {lens : List ℕ}
    (h : Runs p pos (len + 1) qs lens) (hq : polarity p q pos = pos) : Runs p pos len (q :: qs) lens := by
  have hlength (run : List ℚ) : len + 1 + run.length = len + (q :: run).length := by
    rw [List.length_cons, Nat.add_assoc, Nat.add_comm 1]
  cases h with
  | last same =>
    rw [hlength]
    exact .last (List.forall_mem_cons.2 ⟨hq, same⟩)
  | flip same flips rest =>
    rw [hlength]
    exact .flip (List.forall_mem_cons.2 ⟨hq, same⟩) flips rest

theorem runs_runLengths (p : Params) (pos : Bool) (len : ℕ) (qs : List ℚ) :
    Runs p pos len qs (runLengths p pos len qs) := by
  induction qs generalizing pos len with
  | nil => exact .last (by simp)
  | cons q qs ih =>
    unfold runLengths
    split
    next same => exact (ih pos (len + 1)).cons_same same
    next flips =>
      have hpos : polarity p q pos = !pos := Bool.eq_not.2 flips
      rw [hpos]
      exact .flip (run := []) (by simp) flips (ih (!pos) 1)

theorem Runs.ne_nil {p : Params} {pos : Bool} {len : ℕ} {qs : List ℚ} {lens : List ℕ} (h : Runs p pos len qs lens) :
    lens ≠ [] := by
  cases h <;> simp

theorem recordedCounts_cons {before len : ℕ} {lens : List ℕ} (h : lens ≠ []) :
    recordedCounts before (len :: lens) = (before + len + 1) :: recordedCounts (before + len) lens := by
  cases lens with
  | nil => exact absurd rfl h
  | cons next rest => rfl

/-! ## The deliveries of a stream -/

/-- A run is in progress in a constructed detector with nothing to replay and every unread sample in range; `before`
samples lie before the run. -/
structure InRun (s : State) (before : ℕ) : Prop where
  noFault : s.fault = .none
  constructed : s.zcd.init = true
  noReplay : s.zcd.replay = false
  inRange : s.UnreadInRange
  run : s.zcd.runLen ≠ 0
  consumed : s.zcd.consumed = before + s.zcd.runLen

/-- The responses are no part of it. -/
theorem InRun.respondAll {s : State} {before : ℕ} (h : InRun s before) (rs : List Response) :
    InRun (s.respondAll rs) before :=
  ⟨h.noFault, h.constructed, h.noReplay, h.inRange, h.run, h.consumed⟩

/-- The commands `more`, issued after a delivery whose Position counts `n` samples, answer `answer n` and do nothing
else. -/
def Reports (p : Params) (more : List Instr) (answer : ℕ → List Response) : Prop :=
  ∀ (t : State) (h : ℚ) (n : ℕ) (rest : List Instr), t.params = p → t.fault = .none → t.zcd.init = true →
    t.zcd.replay = false → t.zcd.last = some (h, posOf p n) →
    execMany (more ++ rest) t = execMany rest (t.respondAll (answer n))

theorem reports_nil (p : Params) : Reports p [] fun _ => [] := by
  intro t h n rest _ _ _ _ _
  rw [State.respondAll_nil, List.nil_append]

theorem reports_zcdPos {p : Params} (hp : p.srcSampleRate ≠ 0) :
    Reports p [.zcdPos] fun n => [.pos ⟨n, (n : ℚ) / p.srcSampleRate⟩] := by
  rintro t h n rest rfl noFault constructed noReplay hlast
  rw [List.singleton_append, execMany_cons (exec_zcdPos_of_constructed noFault constructed), noReplay,
    if_neg (by simp), Zcd.curPos_of_last hlast, posOf_samples, posOf_eq hp]
  rfl

/-- One `ZCD.NEXT` and the commands `more` for each run. -/
def rounds (more : List Instr) (n : ℕ) : List Instr := (List.replicate n (.zcdNext :: more)).flatten

theorem rounds_succ (more : List Instr) (n : ℕ) : rounds more (n + 1) = .zcdNext :: (more ++ rounds more n) := by
  simp [rounds, List.replicate_succ]

/-- What the rounds answer for runs of the lengths `lens`, `before` samples lying before the first. -/
def deliveries (p : Params) (answer : ℕ → List Response) (before : ℕ) (lens : List ℕ) : List Response :=
  (List.zipWith (fun len n => .halfPeriod ((p.srcSampleRate : ℚ) / (2 * (len : ℕ))) :: answer n) lens
    (recordedCounts before lens)).flatten

section Deliveries

variable {p : Params} {more : List Instr} {answer : ℕ → List Response} {s : State}

theorem deliveries_singleton (before len : ℕ) :
    deliveries p answer before [len] =
      .halfPeriod ((p.srcSampleRate : ℚ) / (2 * (len : ℕ))) :: answer (before + len) := by
  simp [deliveries, recordedCounts]

theorem deliveries_cons {before len : ℕ} {lens : List ℕ} (h : lens ≠ []) :
    deliveries p answer before (len :: lens) =
      .halfPeriod ((p.srcSampleRate : ℚ) / (2 * (len : ℕ))) ::
        (answer (before + len + 1) ++ deliveries p answer (before + len) lens) := by
  simp [deliveries, recordedCounts_cons h]

/-- One round: the delivery, then the reports on its Position. -/
theorem execMany_round (hmore : Reports s.params more answer) (noFault : s.fault = .none)
    (constructed : s.zcd.init = true) (noReplay : s.zcd.replay = false) {v : ℚ} {total n len : ℕ} {positive : Bool}
    (hread : zcdNext s = .ok (some v) (s.deliverRun total n len positive)) (rest : List Instr) :
    execMany (.zcdNext :: (more ++ rest)) s = execMany rest
      ((s.deliverRun total n len positive).respondAll (.halfPeriod v :: answer (s.zcd.consumed + n))) := by
  rw [execMany_cons (exec_zcdNext_of_ok noFault constructed hread)]
  have hreport := hmore ((s.deliverRun total n len positive).respond (.halfPeriod v)) _ _ rest rfl noFault constructed
    noReplay rfl
  rw [State.respond_eq_respondAll, State.respondAll_respondAll] at hreport
  exact hreport

theorem execMany_zcdNext_of_ended (noFault : s.fault = .none) (constructed : s.zcd.init = true)
    (noReplay : s.zcd.replay = false) (noRun : s.zcd.runLen = 0) (atEnd : s.params.srcSamples.length ≤ s.srcIndex) :
    (execMany [.zcdNext] s).responses = s.responses ++ [.endOfStream] := by
  have hread := zcdNext_of_ended noReplay noRun (List.getElem?_eq_none_iff.2 atEnd)
  rw [execMany_cons (exec_zcdNext_of_ok noFault constructed hread)]
  rfl

/-- From the middle of a run the detector delivers every run of its stream, then `End` (42_zero_crossing.md R150). -/
theorem Runs.execMany_responses {pos : Bool} {len before : ℕ} {qs : List ℚ} {lens : List ℕ}
    (h : Runs p pos len qs lens) (hmore : Reports p more answer) (hs : InRun s before) (hparams : s.params = p)
    (hpos : s.zcd.positive = pos) (hlen : s.zcd.runLen = len) (hqs : s.upcoming = qs) :
    (execMany (rounds more lens.length ++ [.zcdNext]) s).responses =
      s.responses ++ deliveries p answer before lens ++ [.endOfStream] := by
  induction h generalizing s before with
  | last same =>
    subst hparams hpos hlen hqs
    have hread := zcdNext_flush hs.noReplay hs.run hs.inRange same
    have atEnd : s.params.srcSamples.length ≤ s.srcIndex + s.upcoming.length := by
      rw [State.upcoming_length]; omega
    rw [List.length_singleton, rounds_succ, List.cons_append, List.append_assoc,
      execMany_round hmore hs.noFault hs.constructed hs.noReplay hread, deliveries_singleton, hs.consumed,
      Nat.add_assoc]
    exact execMany_zcdNext_of_ended hs.noFault hs.constructed hs.noReplay rfl atEnd
  | @flip pos len run y after lens same flips rest ih =>
    subst hparams hpos hlen
    have hread := zcdNext_run hs.noReplay hs.run run y after hqs
      (fun x hx => sampleInRange_iff.2 (hs.inRange x (List.mem_of_mem_take hx))) same flips
    have hcount : s.zcd.consumed + (run.length + 1) = before + (s.zcd.runLen + run.length) + 1 := by
      rw [hs.consumed]; omega
    rw [List.length_cons, rounds_succ, List.cons_append, List.append_assoc,
      execMany_round hmore hs.noFault hs.constructed hs.noReplay hread, deliveries_cons rest.ne_nil, hcount]
    have hafter : InRun (s.deliverRun (s.zcd.runLen + run.length) (run.length + 1) 1 (!s.zcd.positive))
        (before + (s.zcd.runLen + run.length)) :=
      ⟨hs.noFault, hs.constructed, hs.noReplay, hs.inRange.mono rfl (Nat.le_add_right _ _), Nat.one_ne_zero, hcount⟩
    have hupcoming : s.upcoming.drop (run.length + 1) = after := by simp [hqs]
    refine (ih (hafter.respondAll _) rfl rfl rfl ((s.deliverRun_upcoming ..).trans hupcoming)).trans ?_
    simp [State.respondAll, State.deliverRun]

/-- From its construction a detector delivers every run of its stream, then `End`; the construction sample counts toward
the first run (42_zero_crossing.md R146, R150). -/
theorem Constructible.execMany_responses {sel : ℕ} {q : ℚ} {qs : List ℚ} (h : Constructible s sel)
    (inRange : s.UnreadInRange) (hupcoming : (s.selecting sel).upcoming = q :: qs)
    (hmore : Reports s.params more answer) :
    (execMany (.zcdInit sel ::
        (rounds more (runLengths s.params (polarity s.params q false) 1 qs).length ++ [.zcdNext])) s).responses =
      s.responses ++ .ack ::
        deliveries s.params answer 0 (runLengths s.params (polarity s.params q false) 1 qs) ++ [.endOfStream] := by
  obtain ⟨x, sample, rfl, hrest⟩ := State.of_upcoming_cons hupcoming
  have hrun : InRun ((((s.selecting sel).taken 1).setZcd (Zcd.construct s.params (selOf sel)
      (some ((s.selecting sel).streamValue x)))).respond .ack) 0 :=
    ⟨h.noFault, rfl, rfl, inRange.mono rfl (Nat.le_succ _), Nat.one_ne_zero, rfl⟩
  have hruns := runs_runLengths s.params (polarity s.params ((s.selecting sel).streamValue x) false) 1 qs
  rw [execMany_cons (h.exec_sample sample (inRange.sample sample)),
    hruns.execMany_responses hmore hrun rfl rfl rfl ((State.upcoming_setZcd rfl).trans hrest)]
  simp [State.selecting]

end Deliveries

/-- Settles O42: the rounds of `ZCD.NEXT` and `ZCD.POS` from the construction of the detector. -/
theorem detectorDeliversTheRunsOfItsStream : Obligations.DetectorDeliversTheRunsOfItsStream := by
  intro s sel q qs _ noFault fresh format stream inRange hupcoming
  have h : Constructible s sel := ⟨noFault, fresh, format, stream⟩
  exact h.execMany_responses inRange hupcoming (reports_zcdPos format.1)

/-! ## Square waves -/

/-- `k` cycles of `n` values `a` and `n` values `b`. -/
def squareWave {α : Type} (a b : α) (n k : ℕ) : List α :=
  (List.replicate k (List.replicate n a ++ List.replicate n b)).flatten

theorem squareWave_succ {α : Type} (a b : α) (n k : ℕ) :
    squareWave a b n (k + 1) = List.replicate n a ++ (List.replicate n b ++ squareWave a b n k) := by
  simp [squareWave, List.replicate_succ]

theorem squareWave_eq_nil {α : Type} {a b : α} {n k : ℕ} (hn : n ≠ 0) (h : squareWave a b n k = []) : k = 0 := by
  cases k with
  | zero => rfl
  | succ k => simp [squareWave_succ, hn] at h

theorem map_squareWave {α β : Type} (f : α → β) (a b : α) (n k : ℕ) :
    (squareWave a b n k).map f = squareWave (f a) (f b) n k := by
  simp [squareWave]

theorem mem_squareWave {α : Type} {a b x : α} {n k : ℕ} (h : x ∈ squareWave a b n k) : x = a ∨ x = b := by
  obtain ⟨cycle, hcycle, hx⟩ := List.mem_flatten.1 h
  rw [List.eq_of_mem_replicate hcycle] at hx
  exact (List.mem_append.1 hx).imp List.eq_of_mem_replicate List.eq_of_mem_replicate

section Wave

variable {p : Params} {a b : ℚ} {pos : Bool} {n : ℕ}

theorem runLengths_replicate_same (ha : ∀ cur, polarity p a cur = pos) (len n : ℕ) (rest : List ℚ) :
    runLengths p pos len (List.replicate n a ++ rest) = runLengths p pos (len + n) rest := by
  induction n generalizing len with
  | zero => rfl
  | succ n ih =>
    rw [List.replicate_succ, List.cons_append, runLengths, if_pos (ha pos), ih, Nat.add_assoc, Nat.add_comm 1]

/-- Values of the other polarity end the run in progress and are the next one. -/
theorem runLengths_replicate_flip (ha : ∀ cur, polarity p a cur = pos) (hn : n ≠ 0) (len : ℕ) (rest : List ℚ) :
    runLengths p (!pos) len (List.replicate n a ++ rest) = len :: runLengths p pos n rest := by
  obtain ⟨m, rfl⟩ := Nat.exists_eq_succ_of_ne_zero hn
  rw [List.replicate_succ, List.cons_append, runLengths, if_neg (by simp [ha]), ha, runLengths_replicate_same ha,
    Nat.add_comm 1]

/-- A square wave after a run of its second half's polarity forms `2k` runs of `n`. -/
theorem runLengths_squareWave (ha : ∀ cur, polarity p a cur = pos) (hb : ∀ cur, polarity p b cur = !pos) (hn : n ≠ 0)
    (len k : ℕ) : runLengths p (!pos) len (squareWave a b n k) = len :: List.replicate (2 * k) n := by
  induction k generalizing len with
  | zero => rfl
  | succ k ih =>
    have hsecond := runLengths_replicate_flip hb hn n (squareWave a b n k)
    rw [Bool.not_not] at hsecond
    rw [squareWave_succ, runLengths_replicate_flip ha hn, hsecond, ih]
    rfl

/-- The square wave from its construction sample. -/
theorem runLengths_squareWave_tail (ha : ∀ cur, polarity p a cur = pos) (hb : ∀ cur, polarity p b cur = !pos)
    (hn : n ≠ 0) (k : ℕ) {q : ℚ} {qs : List ℚ} (hq : squareWave a b n k = q :: qs) :
    runLengths p (polarity p q false) 1 qs = List.replicate (2 * k) n := by
  have hruns := runLengths_squareWave ha hb hn 0 k
  obtain rfl : q = a := by
    obtain _ | k := k
    · cases hq
    obtain ⟨m, rfl⟩ := Nat.exists_eq_succ_of_ne_zero hn
    rw [squareWave_succ, List.replicate_succ] at hq
    exact (List.cons.inj hq).1.symm
  rw [hq, runLengths, if_neg (by simp [ha]), ha] at hruns
  rw [ha]
  exact (List.cons.inj hruns).2

theorem deliveries_of_reports_nil (before : ℕ) (lens : List ℕ) :
    deliveries p (fun _ => []) before lens =
      lens.map fun len => .halfPeriod ((p.srcSampleRate : ℚ) / (2 * (len : ℕ))) := by
  induction lens generalizing before with
  | nil => rfl
  | cons len lens ih =>
    by_cases h : lens = []
    · subst h; rfl
    · rw [deliveries_cons h, ih, List.nil_append, List.map_cons]

theorem rounds_nil (n : ℕ) : rounds [] n = List.replicate n .zcdNext := by
  simp [rounds]

end Wave

/-- A detector on an empty raw input is at its end at once (42_zero_crossing.md R146). -/
theorem execMany_zcdInit_empty {s : State} (h : Constructible s 0) (hempty : s.params.srcSamples.length ≤ s.srcIndex) :
    (execMany [.zcdInit 0, .zcdNext] s).responses = s.responses ++ [.ack, .endOfStream] := by
  rw [execMany_cons (h.exec_end (List.getElem?_eq_none_iff.2 hempty))]
  have hend := execMany_zcdNext_of_ended (s := (s.setZcd (Zcd.construct s.params (selOf 0) none)).respond .ack)
    h.noFault rfl rfl rfl hempty
  rw [hend]
  simp

/-- A square wave read through the detector, by the polarity of its first half. -/
theorem execMany_squareWave {p : Params} {a b : ℤ} {n k : ℕ} {pos : Bool} (format : ValidFormat p)
    (ha : sampleInRange p a = true) (hb : sampleInRange p b = true) (hn : n ≠ 0)
    (hpa : ∀ cur, polarity p a cur = pos) (hpb : ∀ cur, polarity p b cur = !pos)
    (hsamples : p.srcSamples = squareWave a b n k) :
    (execMany (.zcdInit 0 :: List.replicate (2 * k + 1) .zcdNext) (State.resetOf p)).responses =
      .ack :: List.replicate (2 * k) (.halfPeriod ((p.srcSampleRate : ℚ) / (2 * n))) ++ [.endOfStream] := by
  have h : Constructible (State.resetOf p) 0 := ⟨rfl, rfl, format, .inl ⟨rfl, rfl⟩⟩
  have hupcoming : ((State.resetOf p).selecting 0).upcoming = squareWave (a : ℚ) (b : ℚ) n k := by
    rw [← map_squareWave (fun x : ℤ => (x : ℚ)), ← hsamples]; rfl
  have inRange : (State.resetOf p).UnreadInRange := by
    intro x hx
    have hx : x ∈ squareWave a b n k := hsamples ▸ List.mem_of_mem_drop hx
    obtain rfl | rfl := mem_squareWave hx
    · exact sampleInRange_iff.1 ha
    · exact sampleInRange_iff.1 hb
  cases hwave : squareWave (a : ℚ) (b : ℚ) n k with
  | nil =>
    obtain rfl := squareWave_eq_nil hn hwave
    exact execMany_zcdInit_empty h (by simp [State.resetOf, hsamples, squareWave])
  | cons q qs =>
    have hresponses := h.execMany_responses inRange (hupcoming.trans hwave) (reports_nil p)
    have hruns := runLengths_squareWave_tail hpa hpb hn k hwave
    change runLengths (State.resetOf p).params (polarity (State.resetOf p).params q false) 1 qs = _ at hruns
    rw [hruns, rounds_nil, List.length_replicate, ← List.replicate_succ', deliveries_of_reports_nil,
      List.map_replicate] at hresponses
    exact hresponses

/-- Settles O43: the wave starts above the threshold or below it, and on either side its runs are the halves of its
cycles. -/
theorem squareWaveGivesTwoHalfPeriodsACycle : Obligations.SquareWaveGivesTwoHalfPeriodsACycle := by
  intro p a b n k format ha hb hn hsides hsamples
  obtain ⟨habove, hbelow⟩ | ⟨hbelow, habove⟩ := hsides
  · exact execMany_squareWave format ha hb (by omega) (polarity_above habove) (polarity_below hbelow) hsamples
  · exact execMany_squareWave format ha hb (by omega) (polarity_below hbelow) (polarity_above habove) hsamples

/-- The bytes of the two halves of a cycle lie on the two sides of the 8-bit threshold (20_memory.md R66). -/
theorem byte8_sides {p : Params} (h8 : p.srcBitsPerSample = 8) (ph : Phase) :
    (((phaseSymbol ph).byte8 : ℚ) > threshold p ∧ ((phaseSymbol (invert ph)).byte8 : ℚ) < threshold p) ∨
    (((phaseSymbol ph).byte8 : ℚ) < threshold p ∧ ((phaseSymbol (invert ph)).byte8 : ℚ) > threshold p) := by
  cases ph <;> norm_num [threshold, h8, phaseSymbol, invert, Symbol.byte8]

theorem byte8_inRange {p : Params} (h8 : p.srcBitsPerSample = 8) (sym : Symbol) :
    sampleInRange p sym.byte8 = true := by
  rw [sampleInRange_iff, h8]
  cases sym <;> decide

theorem cycleSymbols_eq_squareWave (ph : Phase) (n k : ℕ) :
    cycleSymbols ph n k = squareWave (phaseSymbol ph) (phaseSymbol (invert ph)) n k := rfl

/-- The frequency read back brackets the one emitted, by the bounds of the floor of R103. -/
theorem frequency_bounds {rate f : ℚ} {n : ℕ} (hf : 0 < f) (hn : 1 ≤ n) (hle : (n : ℚ) ≤ rate / (2 * f))
    (hlt : rate / (2 * f) < n + 1) : f ≤ rate / (2 * n) ∧ rate / (2 * (n + 1)) < f := by
  have hn : (0 : ℚ) < n := by exact_mod_cast hn
  rw [le_div_iff₀ (by positivity)] at hle ⊢
  rw [div_lt_iff₀ (by positivity)] at hlt ⊢
  constructor <;> linarith

/-- Settles O44: the Oscillator's output is a square wave around the threshold. -/
theorem oscillatorOutputReadsBackAsItsFrequency : Obligations.OscillatorOutputReadsBackAsItsFrequency := by
  intro enc dec f n k hf hn hrate h8 hle hlt hsamples
  have hout := exec_oscOscs_eq (s := State.resetOf enc) rfl hf ((halfSamples_eq_iff hf n).2 ⟨hle, hlt⟩) k
  have hwave : dec.srcSamples = squareWave (phaseSymbol enc.oscInitialPhase).byte8
      (phaseSymbol (invert enc.oscInitialPhase)).byte8 n k := by
    rw [hsamples, execMany_cons hout, ← map_squareWave Symbol.byte8, ← cycleSymbols_eq_squareWave]
    rfl
  have hpositive : enc.oscSampleRate ≠ 0 := by
    intro hzero
    rw [hzero, Nat.cast_zero, zero_div] at hle
    exact absurd (Nat.cast_nonpos.1 hle) (by omega)
  rw [← hrate] at hle hlt hpositive
  exact ⟨squareWaveGivesTwoHalfPeriodsACycle dec _ _ n k ⟨hpositive, .inl h8⟩ (byte8_inRange h8 _)
    (byte8_inRange h8 _) hn (byte8_sides h8 _) hwave, frequency_bounds hf hn hle hlt⟩

/-! ## Reads that complete -/

section Complete

variable {s t : State}

theorem zcdProduce_completes (inRange : s.UnreadInRange) : ∃ r t, zcdProduce s = .ok r t := by
  induction s using produce_induction with
  | atEnd s atEnd =>
    rw [zcdProduce_end atEnd, flushRun]
    split <;> exact ⟨_, _, rfl⟩
  | bad s x sample outOfRange => simp [inRange.sample sample] at outOfRange
  | flip s x sample hx flips => exact ⟨_, _, zcdProduce_flip sample hx flips⟩
  | grow s x sample hx same ih =>
    rw [zcdProduce_grow sample hx same]
    exact ih (inRange.mono rfl (Nat.le_succ _))

theorem zcdNext_completes (inRange : s.UnreadInRange) : ∃ r t, zcdNext s = .ok r t := by
  cases replay : s.zcd.replay with
  | true => exact ⟨_, _, zcdNext_replay replay⟩
  | false =>
    obtain ⟨r, t, hproduce⟩ := zcdProduce_completes inRange
    cases r with
    | none => exact ⟨_, _, zcdNext_end replay hproduce⟩
    | some v => exact ⟨_, _, zcdNext_produce replay hproduce⟩

theorem zcdNext_unreadInRange {r : Option ℚ} (inRange : s.UnreadInRange) (h : zcdNext s = .ok r t) :
    t.UnreadInRange := by
  obtain ⟨hparams, -⟩ := zcdNext_shell h
  exact inRange.mono hparams (DetectorStep.next h).frame.cursor

/-- A value just delivered can be rewound (42_zero_crossing.md R148). -/
theorem zcdRewind_after_delivery {v : ℚ} (hd : s.DetectorInv) (h : zcdNext s = .ok (some v) t) :
    ∃ u, zcdRewind t = .ok () u := by
  obtain ⟨replay, -, rfl⟩ | ⟨noReplay, w, u, hproduce, -, rfl⟩ | ⟨-, u, -, hv, -⟩ := zcdNext_cases h
  · exact ⟨_, zcdRewind_ok rfl rfl (hd.slot.replay replay).1⟩
  · obtain ⟨-, -, -, -, -, -, -, -, -, -, -, -, -, -, hreplay, -⟩ := zcdProduce_frame hproduce
    exact ⟨_, zcdRewind_ok (hreplay.trans noReplay) rfl (by simp [State.deliver])⟩
  · cases hv

theorem findLoop_completes {lo hi : ℚ} {n : ℕ} (fuel count : ℕ) (hd : s.DetectorInv) (inRange : s.UnreadInRange) :
    ∃ b t, findLoop lo hi n fuel count s = .ok b t := by
  induction fuel generalizing count s with
  | zero => exact ⟨_, _, rfl⟩
  | succ fuel ih =>
    obtain ⟨r, u, hread⟩ := zcdNext_completes inRange
    have ih (count : ℕ) := ih count (zcdNext_inv hd hread) (zcdNext_unreadInRange inRange hread)
    unfold findLoop
    rw [hread]
    cases r with
    | none => exact ⟨_, _, rfl⟩
    | some v =>
      dsimp only
      split
      · exact ih _
      split
      · obtain ⟨w, hrewind⟩ := zcdRewind_after_delivery hd hread
        exact ⟨_, _, by rw [hrewind, Res.map_ok]⟩
      · exact ih _

theorem dfindLoop_completes {n : ℕ} {d : ℚ} (fuel : ℕ) (win : List ℚ) (run : ℕ) (hd : s.DetectorInv)
    (inRange : s.UnreadInRange) : ∃ r t, dfindLoop n d fuel win run s = .ok r t := by
  induction fuel generalizing win run s with
  | zero => exact ⟨_, _, rfl⟩
  | succ fuel ih =>
    obtain ⟨r, u, hread⟩ := zcdNext_completes inRange
    have ih (win : List ℚ) (run : ℕ) := ih win run (zcdNext_inv hd hread) (zcdNext_unreadInRange inRange hread)
    unfold dfindLoop
    rw [hread]
    cases r with
    | none => exact ⟨_, _, rfl⟩
    | some v =>
      dsimp only
      split
      · exact ih _ _
      split
      · split
        · obtain ⟨w, hrewind⟩ := zcdRewind_after_delivery hd hread
          exact ⟨_, _, by rw [hrewind, Res.map_ok]⟩
        · exact ih _ _
      · exact ih _ _

/-- A command whose body completes answers with its type and leaves no fault. -/
theorem exec_answers_of_completes {i : Instr} (hi : s.Inv) (hs : s.fault = .none) (h : ∃ r t, body i s = .ok r t) :
    ∃ t r, exec i s = .next t ∧ t.fault = .none ∧ t.responses = s.responses ++ [r] ∧ answers i r := by
  obtain ⟨r, u, hbody⟩ := h
  obtain ⟨-, -, hresponses, hfault⟩ := body_shell hbody
  exact ⟨_, r, exec_of_body_ok hs hbody, hfault.trans hs, by simp [hresponses], body_answers hi hbody⟩

end Complete

/-- Settles O45: no read meets a sample out of range and every rewind follows a delivery, so each body completes; its
response has the type of its command. -/
theorem detectorReadsComplete : Obligations.DetectorReadsComplete := by
  intro s hi hs constructed inRange
  have hd := hi.detectorInv constructed
  refine ⟨?_, fun low high n hband hn => ?_, fun n d hdev hn => ?_⟩
  · obtain ⟨r, u, hread⟩ := zcdNext_completes inRange
    obtain ⟨t, r, hexec, hfault, hresponses, hanswers⟩ := exec_answers_of_completes (i := .zcdNext) hi hs
      ⟨_, u, by rw [body, runZcdNext_of_constructed constructed, hread, Res.map_ok]⟩
    refine ⟨t, hexec, hfault, ?_⟩
    obtain rfl | ⟨h, hpos, rfl⟩ := hanswers
    · exact .inl hresponses
    · exact .inr ⟨h, hpos, hresponses⟩
  · obtain ⟨b, u, hloop⟩ := findLoop_completes (lo := low) (hi := high) (n := n) (syncFuel s) 0 hd inRange
    obtain ⟨t, r, hexec, hfault, hresponses, b, rfl⟩ := exec_answers_of_completes (i := .syncFind low high n) hi hs
      ⟨.bool b, u, by simp [body, runSyncFind, constructed, hn, hband.not_gt, hloop]⟩
    exact ⟨t, b, hexec, hfault, hresponses⟩
  · obtain ⟨r, u, hloop⟩ := dfindLoop_completes (n := n) (d := d) (syncFuel s) [] 0 hd inRange
    obtain ⟨t, r, hexec, hfault, hresponses, hanswers⟩ := exec_answers_of_completes (i := .syncDfind n d) hi hs
      ⟨r, u, by simp [body, runSyncDfind, constructed, hn, hdev.not_gt, hloop]⟩
    refine ⟨t, hexec, hfault, ?_⟩
    obtain rfl | ⟨q, hpos, rfl⟩ := hanswers
    · exact .inl hresponses
    · exact .inr ⟨q, hpos, hresponses⟩

end Sys2Proof.Machine
end

section
/-! PROOFS of 43_sync_detector.md. What successive reads of the detector leave behind; the finders' loops as they consume
a sequence of delivered values, `find` with the length of the run so far and `dfindRun` with the run itself; the ways
either loop ends; and the Position after it. -/

namespace Sys2Proof.Machine

/-! ## Successive reads -/

section Deliveries

variable {s t u : State} {v : ℚ} {vs ws : List ℚ}

theorem delivers_singleton : Delivers [v] s u ↔ zcdNext s = .ok (some v) u := by simp [Delivers]

theorem delivers_append : Delivers (vs ++ ws) s u ↔ ∃ t, Delivers vs s t ∧ Delivers ws t u := by
  induction vs generalizing s with
  | nil => simp [Delivers]
  | cons v vs ih =>
    simp only [List.cons_append, Delivers, ih]
    constructor
    · rintro ⟨m, hread, t, hvs, hws⟩; exact ⟨t, ⟨m, hread, hvs⟩, hws⟩
    · rintro ⟨t, ⟨m, hread, hvs⟩, hws⟩; exact ⟨m, hread, t, hvs, hws⟩

theorem delivers_concat : Delivers (vs ++ [v]) s u ↔ ∃ t, Delivers vs s t ∧ zcdNext t = .ok (some v) u := by
  simp only [delivers_append, delivers_singleton]

/-- A read takes a pending replay, so none is pending after it (42_zero_crossing.md R147). -/
theorem zcdNext_noReplay {r : Option ℚ} (h : zcdNext s = .ok r t) : t.zcd.replay = false := by
  obtain ⟨-, -, -, -, -, -, -, -, -, -, -, -, hreplay⟩ := zcdNext_frame h
  exact hreplay

theorem Delivers.noReplay (h : Delivers vs s u) (hvs : vs ≠ []) : u.zcd.replay = false := by
  rw [← List.dropLast_append_getLast hvs] at h
  obtain ⟨t, -, hread⟩ := delivers_concat.1 h
  exact zcdNext_noReplay hread

/-- The detector delivers only positive half-periods. -/
theorem Delivers.pos (h : Delivers vs s u) (hd : s.DetectorInv) : ∀ v ∈ vs, 0 < v := by
  induction vs generalizing s with
  | nil => simp
  | cons v vs ih =>
    obtain ⟨t, hread, hrest⟩ := h
    exact List.forall_mem_cons.2 ⟨zcdNext_pos hd hread, ih hrest (zcdNext_inv hd hread)⟩

/-- The state after a rewind (42_zero_crossing.md R148). -/
def State.rewound (s : State) : State := s.setZcd { s.zcd with replay := true }

/-- A value delivered from the stream can be rewound, in every state: the read left no replay, no end and a look-back
value (43_sync_detector.md R173). -/
theorem zcdRewind_of_read (noReplay : s.zcd.replay = false) (h : zcdNext s = .ok (some v) t) :
    zcdRewind t = .ok () t.rewound := by
  obtain ⟨replay, -⟩ | ⟨-, w, u, -, -, rfl⟩ | ⟨-, u, -, hv, -⟩ := zcdNext_cases h
  · simp [noReplay] at replay
  · exact zcdRewind_ok (zcdNext_noReplay h) rfl (by simp [State.deliver])
  · cases hv

/-- A value delivered from the stream moves the Position before it into the slot a rewind falls back on. -/
theorem zcdNext_prevPos (noReplay : s.zcd.replay = false) (h : zcdNext s = .ok (some v) t) :
    t.zcd.prevPos = s.zcd.curPos := by
  obtain ⟨replay, -⟩ | ⟨-, w, u, hproduce, -, rfl⟩ | ⟨-, u, -, hv, -⟩ := zcdNext_cases h
  · simp [noReplay] at replay
  · obtain ⟨-, -, -, -, -, -, -, -, -, -, -, hinitPos, hlast, -⟩ := zcdProduce_frame hproduce
    simp [State.deliver, Zcd.curPos, hinitPos, hlast]
  · cases hv

/-- The end of the stream leaves the Position of the last value delivered. -/
theorem zcdNext_end_curPos (h : zcdNext s = .ok none t) : t.zcd.curPos = s.zcd.curPos := by
  obtain ⟨-, hv, -⟩ | ⟨-, w, u, -, hv, -⟩ | ⟨-, u, hproduce, -, rfl⟩ := zcdNext_cases h
  · cases hv
  · cases hv
  · obtain ⟨-, -, -, -, -, -, -, -, -, -, -, hinitPos, hlast, -⟩ := zcdProduce_frame hproduce
    simp [Zcd.curPos, hinitPos, hlast]

/-- The stream ends only with no run pending (42_zero_crossing.md R145). -/
theorem zcdProduce_none_runLen (h : zcdProduce s = .ok none t) : t.zcd.runLen = 0 := by
  induction s using produce_induction with
  | atEnd s atEnd =>
    rw [zcdProduce_end atEnd, flushRun] at h
    split at h
    next noRun => cases h; exact noRun
    · cases h
  | bad s x sample outOfRange => rw [zcdProduce_outOfRange sample outOfRange] at h; cases h
  | flip s x sample inRange hp => rw [zcdProduce_flip sample inRange hp] at h; cases h
  | grow s x sample inRange hp ih => exact ih (zcdProduce_grow sample inRange hp ▸ h)

/-- The detector's stream has ended, and a read said so (42_zero_crossing.md R147). -/
structure State.Ended (s : State) : Prop where
  noReplay : s.zcd.replay = false
  atEnd : s.srcIndex = s.params.srcSamples.length
  noRun : s.zcd.runLen = 0
  lastWasEnd : s.zcd.lastWasEnd = true

theorem zcdNext_ended (hd : s.DetectorInv) (h : zcdNext s = .ok none t) : t.Ended := by
  have noReplay := zcdNext_noReplay h
  have hended := (zcdNext_inv hd h).ended
  obtain ⟨-, hv, -⟩ | ⟨-, w, u, -, hv, -⟩ | ⟨-, u, hproduce, -, rfl⟩ := zcdNext_cases h
  · cases hv
  · cases hv
  · have noRun := zcdProduce_none_runLen hproduce
    exact ⟨noReplay, hended noRun, noRun, rfl⟩

/-- At the end of the stream a read changes nothing. -/
theorem State.Ended.zcdNext_eq (h : s.Ended) : zcdNext s = .ok none s := by
  rw [zcdNext_of_ended h.noReplay h.noRun (List.getElem?_eq_none_iff.2 h.atEnd.ge), ← h.lastWasEnd]
  rfl

/-- An induction along the detector's deliveries, which are finitely many (70_reset_and_hazards.md R255). -/
theorem delivery_induction {P : State → Prop}
    (step : ∀ s, (∀ v t, zcdNext s = .ok (some v) t → P t) → P s) (s : State) : P s :=
  (measure deliveriesLeft).wf.induction s fun s ih => step s fun _ t h => ih t (zcdNext_some_measure h)

end Deliveries

/-- A body that succeeds writes the response port by its one response. -/
theorem exec_of_body_ok_responses {i : Instr} {s t : State} {r : Response} (hs : s.fault = .none)
    (h : body i s = .ok r t) : exec i s = .next { t with responses := s.responses ++ [r] } := by
  obtain ⟨-, -, hresponses, -⟩ := body_shell h
  rw [exec_of_body_ok hs h, ← hresponses]
  rfl

/-! ## `SYNC.FIND` over the values it reads -/

section Find

variable {s t u w : State} {lo hi x y : ℚ} {n count : ℕ} {vs skipped run : List ℚ}

theorem find_of_inBand (hread : zcdNext s = .ok (some x) t) (hx : inBand x lo hi = true) :
    find lo hi n count s = find lo hi n (count + 1) t := by
  rw [find_eq, hread]; exact if_pos hx

theorem find_of_short (hread : zcdNext s = .ok (some x) t) (hx : inBand x lo hi = false) (hcount : count < n) :
    find lo hi n count s = find lo hi n 0 t := by
  rw [find_eq, hread]; simp [hx, hcount.not_ge]

theorem find_of_long (hread : zcdNext s = .ok (some x) t) (hx : inBand x lo hi = false) (hcount : n ≤ count)
    (noReplay : s.zcd.replay = false) : find lo hi n count s = .ok true t.rewound := by
  rw [find_eq, hread]; simp [hx, hcount, zcdRewind_of_read noReplay hread]

theorem find_of_end (hread : zcdNext s = .ok none t) : find lo hi n count s = .ok (decide (n ≤ count)) t := by
  rw [find_eq, hread]

theorem find_of_fault {c : FaultCode} (hread : zcdNext s = .raise c) : find lo hi n count s = .raise c := by
  rw [find_eq, hread]

/-- In-band values lengthen the run. -/
theorem find_of_run (hreads : Delivers run s u) (hrun : ∀ v ∈ run, inBand v lo hi = true) :
    find lo hi n count s = find lo hi n (count + run.length) u := by
  induction run generalizing s count with
  | nil => cases hreads; rfl
  | cons v run ih =>
    obtain ⟨t, hread, hrest⟩ := hreads
    obtain ⟨hv, hrun⟩ := List.forall_mem_cons.1 hrun
    rw [find_of_inBand hread hv, ih hrest hrun, List.length_cons, Nat.add_assoc, Nat.add_comm 1]

/-- No `n` consecutive in-band values among `vs` are followed by an out-of-band value: `SYNC.FIND` reads all of `vs`. -/
def NoRunEnds (lo hi : ℚ) (n : ℕ) (vs : List ℚ) : Prop :=
  ∀ before run y after, vs = before ++ run ++ y :: after → run.length = n →
    (∀ v ∈ run, inBand v lo hi = true) → inBand y lo hi = true

/-- The in-band values at the end of `vs`: the run in progress after them. -/
def trailingRun (lo hi : ℚ) (vs : List ℚ) : List ℚ := vs.rtakeWhile (inBand · lo hi)

theorem trailingRun_concat_of_inBand (hx : inBand x lo hi = true) :
    trailingRun lo hi (vs ++ [x]) = trailingRun lo hi vs ++ [x] := List.rtakeWhile_concat_pos _ _ _ hx

theorem trailingRun_concat_of_outOfBand (hx : inBand x lo hi = false) : trailingRun lo hi (vs ++ [x]) = [] :=
  List.rtakeWhile_concat_neg _ _ _ (by simp [hx])

theorem trailingRun_eq_nil (h : ∀ v, vs.getLast? = some v → inBand v lo hi = false) : trailingRun lo hi vs = [] :=
  List.rtakeWhile_eq_nil_iff.2 fun hne => by simp [h _ (List.getLast?_eq_some_getLast hne)]

/-- A run in progress of at least `n` values ends in `n` in-band values. -/
theorem exists_run_of_le_trailingRun (h : n ≤ (trailingRun lo hi vs).length) :
    ∃ before run, vs = before ++ run ∧ run.length = n ∧ ∀ v ∈ run, inBand v lo hi = true := by
  have hsuffix : (trailingRun lo hi vs).drop ((trailingRun lo hi vs).length - n) <:+ vs :=
    (List.drop_suffix _ _).trans (List.rtakeWhile_suffix _ _)
  obtain ⟨before, hbefore⟩ := hsuffix
  exact ⟨before, _, hbefore.symm, by rw [List.length_drop]; omega,
    fun v hv => List.mem_rtakeWhile_imp (p := (inBand · lo hi)) (List.mem_of_mem_drop hv)⟩

theorem NoRun.noRunEnds (h : NoRun lo hi n vs) : NoRunEnds lo hi n vs := by
  rintro before run y after rfl hlength hrun
  obtain ⟨v, hv, hout⟩ := h run ⟨before, y :: after, rfl⟩ hlength
  simp [hrun v hv] at hout

theorem NoRun.trailingRun_lt (h : NoRun lo hi n vs) : (trailingRun lo hi vs).length < n := by
  by_contra hle
  obtain ⟨before, run, rfl, hlength, hrun⟩ := exists_run_of_le_trailingRun (Nat.le_of_not_lt hle)
  obtain ⟨v, hv, hout⟩ := h run ⟨before, [], by simp⟩ hlength
  simp [hrun v hv] at hout

/-- `SYNC.FIND` over values that do not stop it goes on with the run in progress. -/
theorem find_of_noRunEnds (hvs : NoRunEnds lo hi n vs) (hreads : Delivers vs s u) :
    find lo hi n 0 s = find lo hi n (trailingRun lo hi vs).length u := by
  induction vs using List.reverseRecOn generalizing u with
  | nil => cases hreads; rfl
  | append_singleton vs x ih =>
    obtain ⟨t, hbefore, hread⟩ := delivers_concat.1 hreads
    have hbeforeLast : NoRunEnds lo hi n vs := by
      rintro before run y after rfl
      exact hvs before run y (after ++ [x]) (by simp)
    rw [ih hbeforeLast hbefore]
    cases hx : inBand x lo hi with
    | true => rw [find_of_inBand hread hx, trailingRun_concat_of_inBand hx, List.length_append, List.length_singleton]
    | false =>
      rw [trailingRun_concat_of_outOfBand hx]
      refine find_of_short hread hx ?_
      by_contra hle
      obtain ⟨before, run, rfl, hlength, hrun⟩ := exists_run_of_le_trailingRun (Nat.le_of_not_lt hle)
      simp [hvs before run x [] rfl hlength hrun] at hx

/-- `run` is the first run of at least `n` in-band values, after the values `skipped`. -/
structure FirstRun (lo hi : ℚ) (n : ℕ) (skipped run : List ℚ) : Prop where
  skips : NoRun lo hi n skipped
  begins : ∀ v, skipped.getLast? = some v → inBand v lo hi = false
  inRun : ∀ v ∈ run, inBand v lo hi = true
  long : n ≤ run.length

theorem FirstRun.find_eq (h : FirstRun lo hi n skipped run) (hreads : Delivers (skipped ++ run) s u) :
    find lo hi n 0 s = find lo hi n run.length u := by
  obtain ⟨t, hskipped, hrun⟩ := delivers_append.1 hreads
  rw [find_of_noRunEnds h.skips.noRunEnds hskipped, trailingRun_eq_nil h.begins, find_of_run hrun h.inRun,
    List.length_nil, Nat.zero_add]

theorem FirstRun.noReplay (h : FirstRun lo hi n skipped run) (hn : n ≠ 0) (hreads : Delivers (skipped ++ run) s u) :
    u.zcd.replay = false := by
  refine hreads.noReplay (List.append_ne_nil_of_right_ne_nil _ ?_)
  rintro rfl
  exact hn (Nat.le_zero.1 h.long)

variable (constructed : s.zcd.init = true) (hn : n ≠ 0) (hband : lo ≤ hi)
include constructed hn hband

theorem body_syncFind : body (.syncFind lo hi n) s = (find lo hi n 0 s).map .bool := by
  simp [body, runSyncFind, find, constructed, hn, hband.not_gt]

/-- An out-of-band value ends the run and is rewound (43_sync_detector.md R172). -/
theorem FirstRun.body_of_outOfBand (h : FirstRun lo hi n skipped run) (hreads : Delivers (skipped ++ run) s u)
    (hread : zcdNext u = .ok (some y) w) (hy : inBand y lo hi = false) :
    body (.syncFind lo hi n) s = .ok (.bool true) w.rewound := by
  rw [body_syncFind constructed hn hband, h.find_eq hreads,
    find_of_long hread hy h.long (h.noReplay hn hreads), Res.map_ok]

/-- The stream ends the run (43_sync_detector.md R172, D20). -/
theorem FirstRun.body_of_end (h : FirstRun lo hi n skipped run) (hreads : Delivers (skipped ++ run) s u)
    (hread : zcdNext u = .ok none w) : body (.syncFind lo hi n) s = .ok (.bool true) w := by
  rw [body_syncFind constructed hn hband, h.find_eq hreads, find_of_end hread, decide_eq_true h.long,
    Res.map_ok]

/-- The stream ends before a run was ended by an out-of-band value (43_sync_detector.md R172). -/
theorem NoRunEnds.body_of_end (h : NoRunEnds lo hi n vs) (hreads : Delivers vs s u) (hread : zcdNext u = .ok none w) :
    body (.syncFind lo hi n) s = .ok (.bool (decide (n ≤ (trailingRun lo hi vs).length))) w := by
  rw [body_syncFind constructed hn hband, find_of_noRunEnds h hreads, find_of_end hread, Res.map_ok]

theorem NoRunEnds.body_of_fault {c : FaultCode} (h : NoRunEnds lo hi n vs) (hreads : Delivers vs s u)
    (hread : zcdNext u = .raise c) : body (.syncFind lo hi n) s = .raise c := by
  rw [body_syncFind constructed hn hband, find_of_noRunEnds h hreads, find_of_fault hread, Res.map_raise]

end Find

/-- Settles O46: the operand checks in order, then the loop over the skipped values, the run, and the read that ends
it. -/
theorem syncFindStopsAfterTheFirstLongRun : Obligations.SyncFindStopsAfterTheFirstLongRun := by
  intro s lo hi n hs
  refine ⟨fun fresh => exec_of_body_raise hs (by simp [body, runSyncFind, fresh]),
    fun constructed hzero => exec_of_body_raise hs (by simp [body, runSyncFind, constructed, hzero]),
    fun constructed hn malformed => exec_of_body_raise hs (by simp [body, runSyncFind, constructed, hn, malformed]),
    fun constructed hn hband => ⟨fun skipped run y u hreads skips begins inRun long hy => ?_,
      fun skipped run u w hreads hread skips begins inRun long => ?_, fun vs u w hreads hread noRun => ?_,
      fun vs u c hreads hread noRunEnds => ?_⟩⟩
  · obtain ⟨t, hreads, hread⟩ := delivers_concat.1 hreads
    exact exec_of_body_ok_responses hs
      (FirstRun.body_of_outOfBand constructed hn hband ⟨skips, begins, inRun, long⟩ hreads hread hy)
  · exact exec_of_body_ok_responses hs
      (FirstRun.body_of_end constructed hn hband ⟨skips, begins, inRun, long⟩ hreads hread)
  · have hbody := noRun.noRunEnds.body_of_end constructed hn hband hreads hread
    rw [decide_eq_false noRun.trailingRun_lt.not_ge] at hbody
    exact exec_of_body_ok_responses hs hbody
  · exact exec_of_body_raise hs (NoRunEnds.body_of_fault constructed hn hband noRunEnds hreads hread)

/-! ## `SYNC.DFIND` over the values it reads -/

section Dfind

variable {s t u w : State} {n : ℕ} {d v x y : ℚ} {before run skipped : List ℚ}

/-- The loop of `SYNC.DFIND` with the run so far: its window holds the run's last `n` values. -/
def dfindRun (n : ℕ) (d : ℚ) (run : List ℚ) (s : State) : Res Response := dfind n d (lastN n run) run.length s

theorem lastN_singleton (hn : n ≠ 0) (x : ℚ) : lastN n [x] = [x] := by
  obtain ⟨m, rfl⟩ := Nat.exists_eq_succ_of_ne_zero hn
  simp [lastN]

theorem lastN_length_of_le (h : n ≤ run.length) : (lastN n run).length = n := by
  rw [lastN, List.length_drop]; omega

/-- Sliding the window of the last `n` values gives that of the run with one more value. -/
theorem slide_lastN (hn : n ≠ 0) (run : List ℚ) (x : ℚ) : slide n (lastN n run) x = lastN n (run ++ [x]) := by
  unfold slide lastN
  rw [List.length_append, List.length_singleton]
  by_cases hlong : n ≤ run.length
  · rw [if_pos (by rw [List.length_drop]; omega), List.tail_drop, List.drop_append_of_le_length (by omega)]
    congr 2; omega
  · rw [if_neg (by rw [List.length_drop]; omega), List.drop_append_of_le_length (by omega)]
    congr 2; omega

theorem PositiveWindow.lastN (hrun : PositiveWindow run) (hn : n ≠ 0) : PositiveWindow (lastN n run) := by
  obtain ⟨hne, hpos⟩ := hrun
  refine ⟨?_, fun v hv => hpos v (List.mem_of_mem_drop hv)⟩
  have := List.length_pos_iff.2 hne
  rw [← List.length_pos_iff, Machine.lastN, List.length_drop]
  omega

theorem average_lastN (hrun : PositiveWindow run) (hn : n ≠ 0) : average (lastN n run) = runAverage n run := by
  obtain ⟨hne, -⟩ := hrun.lastN hn
  exact quot_of_ne (by simpa using hne)

/-- On a run long enough the average is that of exactly `n` values (43_sync_detector.md R177). -/
theorem runAverage_of_le (h : n ≤ run.length) : runAverage n run = (lastN n run).sum / n := by
  rw [runAverage, lastN_length_of_le h]

/-- The loop's test is the relative deviation from the run's average, which is positive (43_sync_detector.md R175). -/
theorem deviates_iff (hrun : PositiveWindow run) (hn : n ≠ 0) :
    d < relativeDeviation x (average (lastN n run)) ↔ Deviates n d run x := by
  have hpos := (hrun.lastN hn).average_pos
  rw [relativeDeviation, quot_of_ne hpos.ne', average_lastN hrun hn, Deviates]

theorem dfindRun_of_first (hn : n ≠ 0) (hread : zcdNext s = .ok (some x) t) :
    dfindRun n d [] s = dfindRun n d [x] t := by
  rw [dfindRun, dfind_eq, hread, dfindRun, lastN_singleton hn]
  rfl

theorem dfindRun_of_steady (hn : n ≠ 0) (hrun : PositiveWindow run) (hread : zcdNext s = .ok (some x) t)
    (hx : ¬ Deviates n d run x) : dfindRun n d run s = dfindRun n d (run ++ [x]) t := by
  rw [dfindRun, dfind_eq, hread, dfindRun, List.length_append, ← slide_lastN hn]
  simp [hrun.1, deviates_iff hrun hn, hx]

theorem dfindRun_of_short (hn : n ≠ 0) (hrun : PositiveWindow run) (hread : zcdNext s = .ok (some x) t)
    (hx : Deviates n d run x) (hshort : run.length < n) : dfindRun n d run s = dfindRun n d [x] t := by
  rw [dfindRun, dfind_eq, hread, dfindRun, lastN_singleton hn]
  simp [hrun.1, deviates_iff hrun hn, hx, hshort.not_ge]

theorem dfindRun_of_long (hn : n ≠ 0) (hrun : PositiveWindow run) (hread : zcdNext s = .ok (some x) t)
    (hx : Deviates n d run x) (hlong : n ≤ run.length) (noReplay : s.zcd.replay = false) :
    dfindRun n d run s = .ok (.freq ((lastN n run).sum / n)) t.rewound := by
  rw [← runAverage_of_le hlong, ← average_lastN hrun hn, dfindRun, dfind_eq, hread]
  simp [hrun.1, deviates_iff hrun hn, hx, hlong, zcdRewind_of_read noReplay hread]

theorem dfindRun_of_end (hread : zcdNext s = .ok none t) :
    dfindRun n d run s = .ok (dfindEnd n run.length (lastN n run)) t := by
  rw [dfindRun, dfind_eq, hread]

theorem dfindRun_of_fault {c : FaultCode} (hread : zcdNext s = .raise c) : dfindRun n d run s = .raise c := by
  rw [dfindRun, dfind_eq, hread]

/-- The loop consumes a run whose values stay within the deviation. -/
theorem dfindRun_of_run (hn : n ≠ 0) (hreads : Delivers run s u) (hbefore : before ≠ [])
    (hpos : ∀ v ∈ before ++ run, 0 < v) (hsteady : Steady n d (before ++ run)) :
    dfindRun n d before s = dfindRun n d (before ++ run) u := by
  induction run generalizing s before with
  | nil => cases hreads; rw [List.append_nil]
  | cons x run ih =>
    obtain ⟨t, hread, hrest⟩ := hreads
    have hx : ¬ Deviates n d before x := hsteady.2 before x run rfl hbefore
    have hwindow : PositiveWindow before := ⟨hbefore, fun v hv => hpos v (List.mem_append_left _ hv)⟩
    have hshift : before ++ x :: run = before ++ [x] ++ run := by simp
    rw [hshift] at hpos hsteady ⊢
    rw [dfindRun_of_steady hn hwindow hread hx, ih hrest (by simp) hpos hsteady]

/-- The value `x` begins a new run after `run`: there is no run yet, or `x` ends one too short (43_sync_detector.md
R176). -/
def Begins (n : ℕ) (d : ℚ) (run : List ℚ) (x : ℚ) : Prop :=
  run = [] ∨ PositiveWindow run ∧ run.length < n ∧ Deviates n d run x

theorem Begins.dfindRun_eq (h : Begins n d run x) (hn : n ≠ 0) (hread : zcdNext s = .ok (some x) t) :
    dfindRun n d run s = dfindRun n d [x] t := by
  obtain rfl | ⟨hrun, hshort, hx⟩ := h
  · exact dfindRun_of_first hn hread
  · exact dfindRun_of_short hn hrun hread hx hshort

/-- The loop over runs too short arrives at the value that begins the next run. -/
theorem Restarts.dfindRun_eq (h : Restarts n d skipped v) (hn : n ≠ 0) (hreads : Delivers (skipped ++ [v]) s u)
    (hpos : ∀ x ∈ skipped, 0 < x) (hbegins : Begins n d before ((skipped ++ [v]).headD v)) :
    dfindRun n d before s = dfindRun n d [v] u := by
  induction h generalizing s before with
  | nil v => exact hbegins.dfindRun_eq hn (delivers_singleton.1 hreads)
  | cons x run rest v hsteady hshort hdeviates _ ih =>
    rw [List.cons_append, List.cons_append, List.append_assoc] at hreads
    obtain ⟨s₁, hread, hreads⟩ := hreads
    obtain ⟨s₂, hrun, hrest⟩ := delivers_append.1 hreads
    obtain ⟨hposRun, hposRest⟩ := List.forall_mem_append.1 hpos
    rw [hbegins.dfindRun_eq hn hread, dfindRun_of_run hn hrun (by simp) hposRun hsteady]
    exact ih hrest hposRest (.inr ⟨⟨by simp, hposRun⟩, hshort, hdeviates⟩)

/-- The loop from its start through the skipped runs and the run in progress. -/
theorem Restarts.dfindRun_of_run (h : Restarts n d skipped v) (hn : n ≠ 0) (hd : s.DetectorInv)
    (hsteady : Steady n d (v :: run)) (hreads : Delivers (skipped ++ v :: run) s u) :
    dfindRun n d [] s = dfindRun n d (v :: run) u ∧ PositiveWindow (v :: run) ∧ u.zcd.replay = false := by
  obtain ⟨hposSkipped, hposRun⟩ := List.forall_mem_append.1 (hreads.pos hd)
  have noReplay := hreads.noReplay (by simp)
  rw [List.append_cons] at hreads
  obtain ⟨t, hskipped, hrun⟩ := delivers_append.1 hreads
  refine ⟨?_, ⟨by simp, hposRun⟩, noReplay⟩
  rw [h.dfindRun_eq hn hskipped hposSkipped (.inl rfl)]
  exact Machine.dfindRun_of_run hn hrun (by simp) hposRun hsteady

theorem body_syncDfind (constructed : s.zcd.init = true) (hn : n ≠ 0) (hdev : 0 ≤ d) :
    body (.syncDfind n d) s = dfindRun n d [] s := by
  simp [body, runSyncDfind, dfindRun, dfind, lastN, constructed, hn, hdev.not_gt]

theorem dfindEnd_lastN (hrun : PositiveWindow run) (hn : n ≠ 0) :
    dfindEnd n run.length (lastN n run) = if n ≤ run.length then .freq ((lastN n run).sum / n) else .undefined := by
  unfold dfindEnd
  split
  next hlong => rw [average_lastN hrun hn, runAverage_of_le hlong]
  · rfl

variable (hd : s.DetectorInv) (hn : n ≠ 0) (hdev : 0 ≤ d)
include hd hn hdev

/-- A value that deviates from a run long enough ends it and is rewound (43_sync_detector.md R176). -/
theorem Restarts.body_of_deviation (h : Restarts n d skipped v) (hsteady : Steady n d (v :: run))
    (hreads : Delivers (skipped ++ v :: run) s u) (hread : zcdNext u = .ok (some y) w)
    (hlong : n ≤ (v :: run).length) (hy : Deviates n d (v :: run) y) :
    body (.syncDfind n d) s = .ok (.freq ((lastN n (v :: run)).sum / n)) w.rewound := by
  obtain ⟨hloop, hrun, noReplay⟩ := h.dfindRun_of_run hn hd hsteady hreads
  rw [body_syncDfind hd.constructed hn hdev, hloop, dfindRun_of_long hn hrun hread hy hlong noReplay]

/-- The stream ends inside a run (43_sync_detector.md R176, D20). -/
theorem Restarts.body_of_end (h : Restarts n d skipped v) (hsteady : Steady n d (v :: run))
    (hreads : Delivers (skipped ++ v :: run) s u) (hread : zcdNext u = .ok none w) :
    body (.syncDfind n d) s =
      .ok (if n ≤ (v :: run).length then .freq ((lastN n (v :: run)).sum / n) else .undefined) w := by
  obtain ⟨hloop, hrun, -⟩ := h.dfindRun_of_run hn hd hsteady hreads
  rw [body_syncDfind hd.constructed hn hdev, hloop, dfindRun_of_end hread, dfindEnd_lastN hrun hn]

theorem Restarts.body_of_fault {c : FaultCode} (h : Restarts n d skipped v) (hsteady : Steady n d (v :: run))
    (hreads : Delivers (skipped ++ v :: run) s u) (hread : zcdNext u = .raise c) :
    body (.syncDfind n d) s = .raise c := by
  obtain ⟨hloop, -, -⟩ := h.dfindRun_of_run hn hd hsteady hreads
  rw [body_syncDfind hd.constructed hn hdev, hloop, dfindRun_of_fault hread]

end Dfind

/-- Settles O47: the operand checks, then the loop over the runs too short, the run in progress, and the read that ends
it. -/
theorem syncDfindStopsAfterTheFirstSteadyRun : Obligations.SyncDfindStopsAfterTheFirstSteadyRun := by
  intro s n d hs
  refine ⟨fun fresh => exec_of_body_raise hs (by simp [body, runSyncDfind, fresh]),
    fun constructed illegal => exec_of_body_raise hs (by simp [body, runSyncDfind, constructed, illegal]),
    fun hi constructed hn hdev => ?_⟩
  have hd := hi.detectorInv constructed
  refine ⟨fun skipped run v y u hreads restarts steady long hy => ?_,
    fun skipped run v u w hreads hread restarts steady => ?_, fun w hread => ?_,
    fun skipped run v u c hreads hread restarts steady => ?_, fun c hread => ?_⟩
  · obtain ⟨t, hreads, hread⟩ := delivers_concat.1 hreads
    exact exec_of_body_ok_responses hs (restarts.body_of_deviation hd hn hdev steady hreads hread long hy)
  · exact exec_of_body_ok_responses hs (restarts.body_of_end hd hn hdev steady hreads hread)
  · refine exec_of_body_ok_responses hs ?_
    rw [body_syncDfind constructed hn hdev, dfindRun_of_end hread, dfindEnd, if_neg (by simpa using hn)]
  · exact exec_of_body_raise hs (restarts.body_of_fault hd hn hdev steady hreads hread)
  · exact exec_of_body_raise hs
      ((body_syncDfind constructed hn hdev).trans (dfindRun_of_fault hread))

/-! ## How a finder ends -/

section Ends

variable {s t u : State} {r : Res Response} {a : Response}

/-- The response of a finder that found a run. -/
def FoundRun (a : Response) : Prop := a = .bool true ∨ ∃ q, a = .freq q

/-- `FinderEnds s r`: a finder's loop that reads the detector from `s` ends with `r`, because a read faulted, because the
stream ended, or because a value read from the stream ended a run and was rewound. -/
inductive FinderEnds : State → Res Response → Prop where
  | fault {s : State} {c : FaultCode} (read : zcdNext s = .raise c) : FinderEnds s (.raise c)
  | stream {s t : State} {a : Response} (read : zcdNext s = .ok none t) : FinderEnds s (.ok a t)
  | rewind {s t : State} {v : ℚ} {a : Response} (noReplay : s.zcd.replay = false)
      (read : zcdNext s = .ok (some v) t) (found : FoundRun a) : FinderEnds s (.ok a t.rewound)
  | next {s t : State} {v : ℚ} {r : Res Response} (read : zcdNext s = .ok (some v) t) (rest : FinderEnds t r) :
      FinderEnds s r

/-- The loop of `SYNC.FIND` rewinds only with a run in progress, so not what it read first (43_sync_detector.md R173). -/
theorem find_ends {lo hi : ℚ} {n : ℕ} (hn : n ≠ 0) (count : ℕ) (hcount : count ≠ 0 → s.zcd.replay = false) :
    FinderEnds s ((find lo hi n count s).map .bool) := by
  induction s using delivery_induction generalizing count with
  | step s ih =>
    rw [find_eq]
    cases hread : zcdNext s with
    | raise c => exact .fault hread
    | ok delivered t =>
      cases delivered with
      | none => exact .stream hread
      | some v =>
        have hnext (count : ℕ) : FinderEnds s ((find lo hi n count t).map .bool) :=
          .next hread (ih v t hread count fun _ => zcdNext_noReplay hread)
        dsimp only
        split
        · exact hnext _
        split
        next hlong =>
          have noReplay := hcount (by omega)
          rw [zcdRewind_of_read noReplay hread]
          exact .rewind noReplay hread (.inl rfl)
        · exact hnext _

/-- The loop of `SYNC.DFIND` rewinds only with a run in progress (43_sync_detector.md R176). -/
theorem dfind_ends {n : ℕ} {d : ℚ} (win : List ℚ) (run : ℕ) (hrun : run ≠ 0 → s.zcd.replay = false) :
    FinderEnds s (dfind n d win run s) := by
  induction s using delivery_induction generalizing win run with
  | step s ih =>
    rw [dfind_eq]
    cases hread : zcdNext s with
    | raise c => exact .fault hread
    | ok delivered t =>
      cases delivered with
      | none => exact .stream hread
      | some v =>
        have hnext (win : List ℚ) (run : ℕ) : FinderEnds s (dfind n d win run t) :=
          .next hread (ih v t hread win run fun _ => zcdNext_noReplay hread)
        dsimp only
        split
        · exact hnext _ _
        next hrunning =>
        split
        · split
          · have noReplay := hrun hrunning
            rw [zcdRewind_of_read noReplay hread]
            exact .rewind noReplay hread (.inr ⟨_, rfl⟩)
          · exact hnext _ _
        · exact hnext _ _

theorem FinderEnds.raise_eq {c : FaultCode} (h : FinderEnds s r) (hr : r = .raise c) : c = .sampleOutOfRange := by
  induction h with
  | fault read => cases hr; exact zcdNext_raise read
  | stream | rewind => cases hr
  | next _ _ ih => exact ih hr

/-- A finder's loop that did not fault found a run and rewound the value after it, or reached the end of the stream. -/
theorem FinderEnds.rewound_or_ended (h : FinderEnds s r) (hd : s.DetectorInv) (hr : r = .ok a t) :
    t.zcd.replay = true ∧ FoundRun a ∨ t.Ended := by
  induction h with
  | fault => cases hr
  | stream read => cases hr; exact .inr (zcdNext_ended hd read)
  | rewind _ _ found => cases hr; exact .inl ⟨rfl, found⟩
  | next read _ ih => exact ih (zcdNext_inv hd read) hr

/-- What the body of a finder comes to: an operand check fails, or its loop ends. -/
inductive FinderOutcome (s : State) : Res Response → Prop where
  | check {c : FaultCode} (operand : c = .notInitialized ∨ c = .invalidOperand ∨ c = .malformedBand) :
      FinderOutcome s (.raise c)
  | loop {r : Res Response} (constructed : s.zcd.init = true) (ends : FinderEnds s r) : FinderOutcome s r

theorem body_syncFind_outcome (lo hi : ℚ) (n : ℕ) (s : State) : FinderOutcome s (body (.syncFind lo hi n) s) := by
  simp only [body, runSyncFind]
  split
  · exact .check (.inl rfl)
  next constructed =>
  split
  · exact .check (.inr (.inl rfl))
  next hn =>
  split
  · exact .check (.inr (.inr rfl))
  exact .loop (by simpa using constructed) (find_ends hn 0 (absurd rfl))

theorem body_syncDfind_outcome (n : ℕ) (d : ℚ) (s : State) : FinderOutcome s (body (.syncDfind n d) s) := by
  simp only [body, runSyncDfind]
  split
  · exact .check (.inl rfl)
  next constructed =>
  split
  · exact .check (.inr (.inl rfl))
  exact .loop (by simpa using constructed) (dfind_ends [] 0 (absurd rfl))

/-- Either finder is a command whose body has a finder's outcome. -/
theorem finder_outcome (h : (∃ lo hi n, exec (.syncFind lo hi n) s = .next t) ∨
    (∃ n d, exec (.syncDfind n d) s = .next t)) : ∃ i, exec i s = .next t ∧ FinderOutcome s (body i s) := by
  obtain ⟨lo, hi, n, h⟩ | ⟨n, d, h⟩ := h
  · exact ⟨_, h, body_syncFind_outcome lo hi n s⟩
  · exact ⟨_, h, body_syncDfind_outcome n d s⟩

theorem FinderOutcome.raise_eq {c : FaultCode} (h : FinderOutcome s r) (hr : r = .raise c) :
    c = .notInitialized ∨ c = .invalidOperand ∨ c = .malformedBand ∨ c = .sampleOutOfRange := by
  cases h with
  | check operand => cases hr; tauto
  | loop _ ends => exact .inr (.inr (.inr (ends.raise_eq hr)))

end Ends

/-- Settles O48: the faults of a finder are those of its operand checks and of a read. -/
theorem findersNeverRaiseARewindFault : Obligations.FindersNeverRaiseARewindFault := by
  intro s t hs h
  obtain ⟨i, h, houtcome⟩ := finder_outcome h
  obtain ⟨r, u, hbody, rfl⟩ | ⟨c, hbody, rfl⟩ := exec_cases h hs
  · obtain ⟨-, -, -, hfault⟩ := body_shell hbody
    simp [hfault, hs]
  · obtain rfl | rfl | rfl | rfl := houtcome.raise_eq hbody <;> simp [hs]

/-- A detector with a replay pending refuses a rewind and delivers the look-back value again. -/
theorem exec_of_replay {s : State} (hs : s.fault = .none) (constructed : s.zcd.init = true)
    (replay : s.zcd.replay = true) (notEnd : s.zcd.lastWasEnd = false) {y : ℚ} {pos : Position}
    (hlast : s.zcd.last = some (y, pos)) :
    exec .zcdRewind s = .next (s.faultedWith .doubleRewind) ∧
    exec .zcdNext s = .next { s with
      zcd := { s.zcd with replay := false }
      responses := s.responses ++ [.halfPeriod y] } := by
  refine ⟨exec_zcdRewind_of_raise hs constructed (by simp [zcdRewind, replay]), ?_⟩
  rw [exec_zcdNext_of_ok hs constructed (zcdNext_replay replay), Zcd.replayValue_of_last hlast, ← notEnd]
  rfl

/-- Settles O49: the loop rewound, and the replay is what the next command meets, or it reached the end of the stream,
where a read changes nothing. -/
theorem findersLeaveAReplayOrTheEnd : Obligations.FindersLeaveAReplayOrTheEnd := by
  intro s t hi hs h hfault
  obtain ⟨i, h, houtcome⟩ := finder_outcome h
  obtain ⟨a, u, hbody, rfl⟩ | ⟨c, hbody, rfl⟩ := exec_cases h hs
  swap
  · exact absurd hfault (by simpa [hs] using body_raise hbody)
  obtain ⟨-, -, hresponses, -⟩ := body_shell hbody
  have hanswer (b : Response) : (u.respond a).responses = s.responses ++ [b] ↔ a = b := by simp [hresponses]
  simp only [hanswer]
  rw [hbody] at houtcome
  cases houtcome with
  | loop constructed ends =>
  have heffect := body_effect hbody
  obtain ⟨hinit, -, -⟩ := heffect.progress.detector constructed
  obtain ⟨replay, found⟩ | ended := ends.rewound_or_ended (hi.detectorInv constructed) rfl
  · obtain ⟨hlast, notEnd⟩ := (heffect.inv hi).replay replay
    obtain ⟨⟨y, pos⟩, hslot⟩ := Option.ne_none_iff_exists'.1 hlast
    obtain ⟨hrewind, hnext⟩ := exec_of_replay (s := u.respond a) hfault hinit replay notEnd hslot
    refine ⟨fun _ => ⟨found, hrewind, y, pos, hslot, hnext⟩, fun noReplay => ?_, fun notFound => ?_⟩
    · simp [replay] at noReplay
    · obtain rfl | ⟨q, rfl⟩ := found <;> simp at notFound
  · have hended : (u.respond a).Ended := ⟨ended.noReplay, ended.atEnd, ended.noRun, ended.lastWasEnd⟩
    refine ⟨fun replay => ?_, fun _ => ⟨hended.atEnd, hended.noRun, hended.lastWasEnd,
      exec_zcdNext_of_ok hfault hinit hended.zcdNext_eq⟩, fun _ => hended.noReplay⟩
    simp [ended.noReplay] at replay

/-! ## The Position after a finder -/

/-- `ZCD.POS` right after a command that kept the detector constructed (42_zero_crossing.md R149). -/
theorem exec_zcdPos_after {i : Instr} {s t : State} {a : Response} {pos : Position} (hs : s.fault = .none)
    (hd : s.DetectorInv) (hbody : body i s = .ok a t)
    (hpos : (if t.zcd.replay then t.zcd.prevPos else t.zcd.curPos) = pos) :
    ∃ u, exec i s = .next u ∧ exec .zcdPos u = .next { u with
      responses := s.responses ++ [a, .pos ⟨pos.samples, (pos.samples : ℚ) / s.params.srcSampleRate⟩] } := by
  obtain ⟨hparams, -, hresponses, hfault⟩ := body_shell hbody
  obtain ⟨constructed, -, -⟩ := (body_effect hbody).progress.detector hd.constructed
  refine ⟨_, exec_of_body_ok hs hbody, ?_⟩
  rw [exec_zcdPos_of_constructed (s := t.respond a) (hfault.trans hs) constructed]
  subst hpos
  simp [posOf_eq (sourceFormatOk_iff.1 hd.format).1, State.respond, hparams, hresponses]

/-- Settles O50: a rewind falls back on the Position before the value that ended the run, and the end of the stream
leaves that of the last value read. -/
theorem positionAfterAFindIsTheRunsLast : Obligations.PositionAfterAFindIsTheRunsLast := by
  intro s u w n hi hs constructed hn
  have hd := hi.detectorInv constructed
  refine ⟨fun lo hi y skipped run hband hreads hread skips begins inRun long hy => ?_,
    fun lo hi vs hband hreads hread noRunEnds => ?_,
    fun d v y skipped run hdev hreads hread restarts steady long hy => ?_⟩
  · have hrun : FirstRun lo hi n skipped run := ⟨skips, begins, inRun, long⟩
    exact exec_zcdPos_after hs hd (hrun.body_of_outOfBand constructed hn hband hreads hread hy)
      (zcdNext_prevPos (t := w) (hrun.noReplay hn hreads) hread)
  · obtain ⟨t, hexec, hpos⟩ := exec_zcdPos_after hs hd
      (NoRunEnds.body_of_end constructed hn hband noRunEnds hreads hread) (pos := u.zcd.curPos)
      (by rw [zcdNext_noReplay hread]; exact zcdNext_end_curPos hread)
    exact ⟨t, _, hexec, hpos⟩
  · exact exec_zcdPos_after hs hd (restarts.body_of_deviation hd hn hdev steady hreads hread long hy)
      (zcdNext_prevPos (t := w) (hreads.noReplay (by simp)) hread)

end Sys2Proof.Machine
end

section
/-! PROOFS of 44_classifier.md. What the body of each classifier command comes to by its bands, and that it comes to the
same in every state. -/

namespace Sys2Proof.Machine

/-! ## The two band tests -/

theorem inBand_eq_decide (v lo hi : ℚ) : inBand v lo hi = decide (lo ≤ v ∧ v ≤ hi) :=
  (Bool.decide_and _ _).symm

theorem body_fclsIs_of_wellFormed {lo hi : ℚ} (hband : lo ≤ hi) (value : ℚ) (s : State) :
    body (.fclsIs value lo hi) s = .ok (.bool (inBand value lo hi)) s := if_neg hband.not_gt

theorem body_fclsIs_of_malformed {lo hi : ℚ} (malformed : hi < lo) (value : ℚ) (s : State) :
    body (.fclsIs value lo hi) s = .raise .malformedBand := if_pos malformed

/-- `FCLS.OSCIS` is `FCLS.IS` on the mean of the two half-periods (44_classifier.md R192). -/
theorem body_fclsOscis (h1 h2 lo hi : ℚ) :
    body (.fclsOscis h1 h2 lo hi) = body (.fclsIs (oscillationMean h1 h2) lo hi) := rfl

/-- Settles O51: a well-formed band gives the band test, and a malformed one the fault. -/
theorem isTestsTheClosedBand : Obligations.IsTestsTheClosedBand := by
  intro s value lo hi hs
  refine ⟨fun hband => ?_, fun malformed => exec_of_body_raise hs (body_fclsIs_of_malformed malformed value s)⟩
  rw [← inBand_eq_decide]
  exact exec_of_body_ok hs (body_fclsIs_of_wellFormed hband value s)

/-- Settles O52, as `FCLS.IS` on the mean. -/
theorem oscisTestsTheMean : Obligations.OscisTestsTheMean := by
  intro s h1 h2 lo hi hs
  have hbody := congrFun (body_fclsOscis h1 h2 lo hi) s
  refine ⟨fun hband => ?_,
    fun malformed => exec_of_body_raise hs (hbody.trans (body_fclsIs_of_malformed malformed _ s))⟩
  rw [← inBand_eq_decide]
  exact exec_of_body_ok hs (hbody.trans (body_fclsIs_of_wellFormed hband _ s))

/-! ## The bit of two bands -/

section Bit

variable {zeroLo zeroHi oneLo oneHi : ℚ}

/-- The zero band and the one band share a point (44_classifier.md R193). -/
def BandsMeet (zeroLo zeroHi oneLo oneHi : ℚ) : Prop :=
  ∃ x, (zeroLo ≤ x ∧ x ≤ zeroHi) ∧ (oneLo ≤ x ∧ x ≤ oneHi)

/-- The test of `FCLS.BIT` on the ends of its bands says whether they share a point. -/
theorem max_le_min_iff_bandsMeet :
    max zeroLo oneLo ≤ min zeroHi oneHi ↔ BandsMeet zeroLo zeroHi oneLo oneHi := by
  rw [← Set.nonempty_Icc, ← Set.Icc_inter_Icc]
  rfl

theorem body_fclsBit_of_apart (hzero : zeroLo ≤ zeroHi) (hone : oneLo ≤ oneHi)
    (apart : ¬ BandsMeet zeroLo zeroHi oneLo oneHi) (value : ℚ) (s : State) :
    body (.fclsBit value zeroLo zeroHi oneLo oneHi) s =
      .ok (.tri (bitOf (inBand value zeroLo zeroHi) (inBand value oneLo oneHi))) s :=
  (if_neg (not_or.2 ⟨hzero.not_gt, hone.not_gt⟩)).trans (if_neg (mt max_le_min_iff_bandsMeet.1 apart))

theorem body_fclsBit_of_malformed (malformed : zeroHi < zeroLo ∨ oneHi < oneLo) (value : ℚ) (s : State) :
    body (.fclsBit value zeroLo zeroHi oneLo oneHi) s = .raise .malformedBand := if_pos malformed

/-- Bands that share a point are both well formed, so it is the command's second check that raises the fault. -/
theorem body_fclsBit_of_meet (meet : BandsMeet zeroLo zeroHi oneLo oneHi) (value : ℚ) (s : State) :
    body (.fclsBit value zeroLo zeroHi oneLo oneHi) s = .raise .malformedBand := by
  have ⟨x, ⟨hzeroLo, hzeroHi⟩, honeLo, honeHi⟩ := meet
  have wellFormed := not_or.2 ⟨(hzeroLo.trans hzeroHi).not_gt, (honeLo.trans honeHi).not_gt⟩
  exact (if_neg wellFormed).trans (if_pos (max_le_min_iff_bandsMeet.2 meet))

end Bit

/-- Settles O53: on bands without a common point a value lies in at most one, so the two band tests fix the bit. -/
theorem bitAnswersTheBandOfTheValue : Obligations.BitAnswersTheBandOfTheValue := by
  intro s value zeroLo zeroHi oneLo oneHi hs
  refine ⟨fun hzero hone apart => ?_, ?_⟩
  · have hexec {z o : Bool} (hz : inBand value zeroLo zeroHi = z) (ho : inBand value oneLo oneHi = o) :
        exec (.fclsBit value zeroLo zeroHi oneLo oneHi) s = .next (s.respond (.tri (bitOf z o))) := by
      rw [exec_of_body_ok hs (body_fclsBit_of_apart hzero hone apart value s), hz, ho]
    have outside {lo hi : ℚ} (h : ¬ (lo ≤ value ∧ value ≤ hi)) : inBand value lo hi = false :=
      Bool.eq_false_iff.2 (mt inBand_iff.1 h)
    refine ⟨fun inOne => ?_, fun inZero => ?_, fun notOne notZero => ?_⟩
    · exact hexec (outside fun inZero => apart ⟨value, inZero, inOne⟩) (inBand_iff.2 inOne)
    · exact hexec (inBand_iff.2 inZero) (outside fun inOne => apart ⟨value, inZero, inOne⟩)
    · exact hexec (outside notZero) (outside notOne)
  · rintro (malformed | malformed | meet)
    · exact exec_of_body_raise hs (body_fclsBit_of_malformed (.inl malformed) value s)
    · exact exec_of_body_raise hs (body_fclsBit_of_malformed (.inr malformed) value s)
    · exact exec_of_body_raise hs (body_fclsBit_of_meet meet value s)

/-! ## Purity -/

/-- A body that gives one response in every state and writes nothing, or raises one fault in every state. -/
def PureBody (b : State → Res Response) : Prop :=
  (∃ r, ∀ s, b s = .ok r s) ∨ ∃ c, ∀ s, b s = .raise c

theorem body_fclsIs_pure (value lo hi : ℚ) : PureBody (body (.fclsIs value lo hi)) := by
  obtain hband | malformed := le_or_gt lo hi
  · exact .inl ⟨_, body_fclsIs_of_wellFormed hband value⟩
  · exact .inr ⟨_, body_fclsIs_of_malformed malformed value⟩

theorem body_fclsBit_pure (value zeroLo zeroHi oneLo oneHi : ℚ) :
    PureBody (body (.fclsBit value zeroLo zeroHi oneLo oneHi)) := by
  obtain hzero | malformed := le_or_gt zeroLo zeroHi
  swap
  · exact .inr ⟨_, body_fclsBit_of_malformed (.inl malformed) value⟩
  obtain hone | malformed := le_or_gt oneLo oneHi
  swap
  · exact .inr ⟨_, body_fclsBit_of_malformed (.inr malformed) value⟩
  by_cases meet : BandsMeet zeroLo zeroHi oneLo oneHi
  · exact .inr ⟨_, body_fclsBit_of_meet meet value⟩
  · exact .inl ⟨_, body_fclsBit_of_apart hzero hone meet value⟩

theorem body_pure_of_isFcls {i : Instr} (command : isFcls i = true) : PureBody (body i) := by
  cases i with
  | fclsIs value lo hi => exact body_fclsIs_pure value lo hi
  | fclsOscis h1 h2 lo hi => rw [body_fclsOscis]; exact body_fclsIs_pure _ lo hi
  | fclsBit value zeroLo zeroHi oneLo oneHi => exact body_fclsBit_pure value zeroLo zeroHi oneLo oneHi
  | _ => simp [isFcls] at command

/-- Settles O54: the body gives one response, or raises one fault, in both states. -/
theorem classifierIsPure : Obligations.ClassifierIsPure := by
  intro i s1 s2 t1 t2 hi hs1 hs2 h1 h2
  obtain ⟨r, hbody⟩ | ⟨c, hbody⟩ := body_pure_of_isFcls hi
  · cases (exec_of_body_ok hs1 (hbody s1)).symm.trans h1
    cases (exec_of_body_ok hs2 (hbody s2)).symm.trans h2
    exact ⟨hs1.trans hs2.symm, r, rfl, rfl⟩
  · cases (exec_of_body_raise hs1 (hbody s1)).symm.trans h1
    cases (exec_of_body_raise hs2 (hbody s2)).symm.trans h2
    exact ⟨rfl, .fault c, rfl, rfl⟩

end Sys2Proof.Machine
end

section
/-! PROOFS of 45_control.md. -/

namespace Sys2Proof.Machine

/-- Settles O17: the command stands outside the shell that refuses in the faulted state, and its response alone is
written. -/
theorem statusReadsTheFaultRegister : Obligations.StatusReadsTheFaultRegister := exec_ctlStatus

end Sys2Proof.Machine
end

section
/-! PROOFS of 60_exceptions.md. What issuing a command comes to in the faulted state, and what one that leaves a fault
has written; from these the statements about the fault register and the idle port. -/

namespace Sys2Proof.Machine

/-! ## Issuing a command in the faulted state -/

theorem issue_ctlStatus (s : State) : issue (encode .ctlStatus) s = .next (s.respond (.status s.fault.number)) :=
  (issue_of_decode_ok (decode_encode .ctlStatus) s).trans (exec_ctlStatus s)

/-- The model decodes before it refuses, and comes to the same as R214: what decodes is refused by its meaning, and what
does not is refused in place of `IllegalCommand`. -/
theorem issue_of_ne {c : Command} (hc : c ≠ encode .ctlStatus) {s : State} (hs : s.fault ≠ .none) :
    issue c s = .next s.refuse := by
  cases hd : decode c with
  | error e => rw [issue_of_decode_error hd, State.illegal_of_ne hs]
  | ok i =>
    have hi : i ≠ .ctlStatus := by
      rintro rfl
      exact hc (encode_eq_of_decode hd).symm
    rw [issue_of_decode_ok hd, exec_of_ne hi hs]

theorem issue_responds_of_ne (c : Command) {s : State} (hs : s.fault ≠ .none) :
    ∃ r, issue c s = .next (s.respond r) := by
  by_cases hc : c = encode .ctlStatus
  · subst hc
    exact ⟨_, issue_ctlStatus s⟩
  · exact ⟨_, issue_of_ne hc hs⟩

/-- Settles O13: of all commands only that of `CTL.STATUS` decodes to the one meaning that does not refuse. -/
theorem faultedStateRefusesCommands : Obligations.FaultedStateRefusesCommands := by
  intro s c rest hs hport
  rw [step_of_command hport]
  constructor
  · intro hc
    exact issue_of_ne hc (s := s.setPending rest) hs
  · rintro rfl
    exact issue_ctlStatus (s.setPending rest)

/-! ## Precise faults -/

/-- A body that succeeds has written no fault, and one that raises has its writes discarded. -/
theorem eq_faultedWith_of_exec {i : Instr} {s t : State} (hs : s.fault = .none) (h : exec i s = .next t)
    (ht : t.fault ≠ .none) : t = s.faultedWith t.fault := by
  obtain ⟨r, u, hb, rfl⟩ | ⟨c, -, rfl⟩ := exec_cases h hs
  · obtain ⟨-, -, -, hfault⟩ := body_shell hb
    exact absurd (hfault.trans hs) ht
  · rw [State.enterFault_of_none hs]
    rfl

theorem eq_faultedWith_of_issue {c : Command} {s t : State} (hs : s.fault = .none) (h : issue c s = .next t)
    (ht : t.fault ≠ .none) : t = s.faultedWith t.fault := by
  cases hd : decode c with
  | error e =>
    rw [issue_of_decode_error hd, State.illegal_of_none hs, State.enterFault_of_none hs] at h
    cases h
    rfl
  | ok i =>
    rw [issue_of_decode_ok hd] at h
    exact eq_faultedWith_of_exec hs h ht

/-- Settles O14: the command is issued on the state it found, with itself off the port. -/
theorem faultsArePrecise : Obligations.FaultsArePrecise := by
  intro s t c rest hs hport h ht
  rw [step_of_command hport] at h
  exact eq_faultedWith_of_issue (s := s.setPending rest) hs h ht

/-! ## The life of a fault, and the idle port -/

/-- Settles O15, by the head of the command port: in the faulted state a command does no more than respond. -/
theorem onlyResetLeavesTheFaultedState : Obligations.OnlyResetLeavesTheFaultedState := by
  intro s t h hs
  match hport : s.pending with
  | [] => cases (step_of_idle hport).symm.trans h; exact .inl rfl
  | .reset :: rest => cases (step_of_reset hport).symm.trans h; exact .inr ⟨rfl, rest, rfl⟩
  | .command c :: rest =>
    obtain ⟨r, hissue⟩ := issue_responds_of_ne c (s := s.setPending rest) hs
    cases ((step_of_command hport).trans hissue).symm.trans h
    exact .inl rfl

/-- Settles O3: the step finds no event to take. -/
theorem idlePortHoldsTheState : Obligations.IdlePortHoldsTheState := fun _ => step_of_idle

/-- Settles O16: each number is its row of the table. -/
theorem faultCodesHaveTheListedNumbers : Obligations.FaultCodesHaveTheListedNumbers :=
  ⟨rfl, rfl, rfl, rfl, rfl, rfl, rfl, rfl, rfl, rfl, rfl, rfl, rfl⟩

end Sys2Proof.Machine
end

section
/-! PROOFS of 70_reset_and_hazards.md. What the reset signal restores, and that the machine answers every host event
with a next state. -/

namespace Sys2Proof.Machine

/-! ## The reset signal -/

/-- The command port is not an element of the table of 10_state.md R22. -/
theorem State.AtReset.setPending {p : Params} {s : State} (h : s.AtReset p) (events : List HostEvent) :
    (s.setPending events).AtReset p := h

/-- The reset signal gives the state after reset, but for the later host events (70_reset_and_hazards.md R240). -/
theorem State.applyReset_atReset (s : State) : s.applyReset.AtReset s.params := by
  obtain ⟨hlisted, -⟩ := resetGivesEveryElementItsListedValue
  obtain ⟨hreset, -⟩ := hlisted s.params
  exact hreset.setPending s.pending

/-- Settles O2: the step applies the reset on the rest of the port, whatever the fault register holds. -/
theorem resetSignalRestoresEveryElement : Obligations.ResetSignalRestoresEveryElement := by
  intro s rest hport
  exact ⟨_, step_of_reset hport, (s.setPending rest).applyReset_atReset, by simp, by simp⟩

/-! ## Every step answers -/

/-- Settles O5, by the head of the command port: the idle port and a reset answer outright, and a command, legal or not
and in the faulted state too, is answered once. -/
theorem everyStepAnswersANextState : Obligations.EveryStepAnswersANextState := by
  intro s
  match hport : s.pending with
  | [] => exact ⟨s, step_of_idle hport⟩
  | .reset :: _ => exact ⟨_, step_of_reset hport⟩
  | .command _ :: _ =>
    obtain ⟨t, ht, -⟩ := step_command_answersOnce hport
    exact ⟨t, ht⟩

end Sys2Proof.Machine
end
